-- ==== Sys2Proof/Word.lean ====
section
/-! DEFINITION. The two data widths of the block (spec/00_scope.md R4): every value is unsigned, none is sign-extended. -/

namespace Sys2Proof

/-- `u8` of R4. -/
abbrev Byte := BitVec 8

/-- `u16` of R4. -/
abbrev Half := BitVec 16

end Sys2Proof
end

