-- ==== Sys2Proof/Machine/Bits.lean ====
section
/-! DEFINITION. The byte-order and size helpers of spec/00_scope.md R4. -/

namespace Sys2Proof.Machine

/-- `w[15:8]` (R4). -/
def hi8 (w : Half) : Byte := (w >>> 8).setWidth 8

/-- `w[7:0]` (R4). -/
def lo8 (w : Half) : Byte := w.setWidth 8

/-- `(zext16(a) << 8) | zext16(b)`: a is the more significant byte (R4, R65). -/
def be16 (a b : Byte) : Half := (a.setWidth 16 <<< 8) ||| b.setWidth 16

/-- `ceil8(n)`: the bytes that n packed bits take (R4, R100). -/
def ceil8 (n : Nat) : Nat := (n + 7) / 8

/-- A sequence of words as bytes, the more significant byte of each first (R65, R67). -/
def beBytes : List Half → List Byte
  | [] => []
  | w :: ws => hi8 w :: lo8 w :: beBytes ws

/-- A byte sequence read as words, the more significant byte of each first (R67); an odd last byte is no word. -/
def beHalves : List Byte → List Half
  | a :: b :: rest => be16 a b :: beHalves rest
  | _ => []

end Sys2Proof.Machine
end

