-- ==== Sys2Proof/Machine/Crc.lean ====
section
/-! DEFINITION. The CRC engine (spec/46_crc.md): the bitwise form of R300 is the model's; the table form of R301 is beside it. -/

namespace Sys2Proof.Machine

/-- One shift of R300: the reflected polynomial 0xA001 is applied when the bit shifted out is 1. -/
def crcShift (c : Half) : Half :=
  if c.getLsbD 0 then (c >>> 1) ^^^ 0xA001#16 else c >>> 1

/-- n shifts in a row. -/
def crcShifts : Nat → Half → Half
  | 0, c => c
  | n + 1, c => crcShifts n (crcShift c)

/-- One byte of R300: into the low half of c, then eight shifts. -/
def crcByte (c : Half) (b : Byte) : Half := crcShifts 8 (c ^^^ b.setWidth 16)

/-- `Crc16(b)` (R300): initial value 0xFFFF, no final XOR. -/
def crc16 (bytes : List Byte) : Half := bytes.foldl crcByte 0xFFFF#16

/-- `T[i]` of R301: the eight shifts started from `c = i`. -/
def crcTable (i : Byte) : Half := crcShifts 8 (i.setWidth 16)

/-- One byte of the table method (R301). -/
def crcByteTable (c : Half) (b : Byte) : Half := (c >>> 8) ^^^ crcTable (lo8 c ^^^ b)

/-- The table method over a byte sequence (R301). -/
def crc16Table (bytes : List Byte) : Half := bytes.foldl crcByteTable 0xFFFF#16

/-- The two bytes appended to a frame, low byte first (R66, R302). -/
def crcTail (bytes : List Byte) : List Byte := [lo8 (crc16 bytes), hi8 (crc16 bytes)]

/-- `FRAME(a, pdu)` (R90, R106): address, PDU, CRC low byte, CRC high byte. -/
def frameBytes (a : Byte) (pdu : List Byte) : List Byte := (a :: pdu) ++ crcTail (a :: pdu)

end Sys2Proof.Machine
end

