-- ==== Sys2Proof/Config.lean ====
section
/-! DEFINITION. What is fixed for a run: the launch parameters of spec/00_scope.md R3 and spec/60_exceptions.md R335, as
plain data that State carries and no step writes; and the model's free values (constants without a body). -/

namespace Sys2Proof

/-- One response handler per known function code (R20, R94). -/
inductive HandlerId
  | rc | rdi | rhr | rir | wsc | wsr | wmc | wmr | rsid | rwmr
  deriving DecidableEq, Repr

/-- The base address and the number of points of one shadow table; the same for every slave (R3, D28). -/
structure Window where
  base  : Nat
  count : Nat
  deriving DecidableEq, Repr

/-- The launch parameters (R3, R335, D7). `TRANSPORT` is an operand of `Init`, not a field. The three durations are carried
and never read: the model is untimed (R201, R336). -/
structure Config where
  /-- `MAX_SLAVES` -/
  maxSlaves        : Nat
  coilWindow       : Window
  discWindow       : Window
  holdWindow       : Window
  inputWindow      : Window
  /-- `ENABLED_FCS`, as the handlers of the enabled codes in ascending code order (the canonical form of the set). -/
  enabledFcs       : List HandlerId
  /-- `FUNC_HANDLERS_MAX` -/
  funcHandlersMax  : Nat
  /-- `EVQ_CAP` -/
  evqCap           : Nat
  /-- `REP_SLAVEID_BUF_SIZE` -/
  repSlaveIdSize   : Nat
  t35Duration      : Nat
  respondTimeout   : Nat
  convertDelay     : Nat
  serialInitOk     : Bool
  timerInitOk      : Bool
  evqInitOk        : Bool
  deriving DecidableEq, Repr

/-- The parameters the model launches with: the default configuration of spec/95_test_vectors.md. DESIGN CHOICE (log 2):
the spec gives no parameter a value; the durations and `FUNC_HANDLERS_MAX` are the model's. -/
def Config.default : Config where
  maxSlaves := 2
  coilWindow := ⟨0, 256⟩
  discWindow := ⟨0, 256⟩
  holdWindow := ⟨0, 256⟩
  inputWindow := ⟨0, 256⟩
  enabledFcs := [.rc, .rdi, .rhr, .rir, .wsc, .wsr, .wmc, .wmr, .rsid, .rwmr]
  funcHandlersMax := 10
  evqCap := 4
  repSlaveIdSize := 8
  t35Duration := 1
  respondTimeout := 1
  convertDelay := 1
  serialInitOk := true
  timerInitOk := true
  evqInitOk := true

/-- FREE VALUE (log 8): the byte read at index 256 or above of the send buffer, in the `draw`-th Execute step. The spec gives
`txbuf` 256 bytes (R28) and no value beyond them. -/
opaque Config.beyondTx : (draw index : Nat) → Byte

/-- FREE VALUE (log 8): the same for the receive buffer (R27). -/
opaque Config.beyondRx : (draw index : Nat) → Byte

end Sys2Proof
end

