-- ==== Sys2Proof/Syntax.lean ====
section
/-! DEFINITION. The instructions: one constructor per row of spec/opcode_table.json. A request PDU, a response PDU and a frame are
the block's wire encodings (spec/30_encoding.md R90 to R97); the program steps are those of R105. -/

namespace Sys2Proof

/-- The four shadow tables (spec/10_state.md R39). -/
inductive Table
  | coils | disc | hold | input
  deriving DecidableEq, Repr

/-- The transport a configuration record may select (spec/00_scope.md R3 `TRANSPORT`, section 2). -/
inductive Transport
  | rtu | ascii | tcp
  deriving DecidableEq, Repr

/-- The operand of `Init`: a configuration record or null (spec/40_dispatcher.md R130). -/
inductive InitArg
  | null
  | record (transport : Transport)
  deriving DecidableEq, Repr

/-- One program step or one PDU or frame. The `req` rows carry the fields of the request PDU (R95), the `rsp` rows the bytes of
the response PDU after its function code (R96, R97), `frame` the fields of a serial-line frame (R90). A request with data carries
everything after its 16-bit fields as it stands: the byte count, then the data. -/
inductive Instr
  -- request PDUs
  | reqRc   (addr count : Half)
  | reqRdi  (addr count : Half)
  | reqRhr  (addr count : Half)
  | reqRir  (addr count : Half)
  | reqWsc  (addr value : Half)
  | reqWsr  (addr value : Half)
  | reqWmc  (addr count : Half) (bytes : List Byte)
  | reqWmr  (addr count : Half) (bytes : List Byte)
  | reqRwmr (raddr rcount waddr wcount : Half) (bytes : List Byte)
  | reqRsid
  -- response PDUs
  | rspRc   (data : List Byte)
  | rspRdi  (data : List Byte)
  | rspRhr  (data : List Byte)
  | rspRir  (data : List Byte)
  | rspWsc  (data : List Byte)
  | rspWsr  (data : List Byte)
  | rspWmc  (data : List Byte)
  | rspWmr  (data : List Byte)
  | rspRsid (data : List Byte)
  | rspRwmr (data : List Byte)
  | rspException (fc : Byte) (data : List Byte)
  | rspUnknown   (fc : Byte) (data : List Byte)
  -- the serial-line frame
  | frame (address : Byte) (pdu : List Byte) (crcLo crcHi : Byte)
  -- program steps
  | appInit (arg : InitArg)
  | appEnable
  | appDisable
  | appSetSlaveId (id : Byte) (running : Bool) (extra : List Byte)
  | appStoreRead (table : Table) (slave : Byte) (addr : Half) (n : Nat)
  | poll
  | portRx (b : Byte)
  | portTxe
  | portTmo
  | appRequestReadCoils (slave : Byte) (addr count : Half)
  | appRequestReadDiscreteInputs (slave : Byte) (addr count : Half)
  | appRequestReadHoldingRegister (slave : Byte) (addr count : Half)
  | appRequestReadInputRegister (slave : Byte) (addr count : Half)
  | appRequestWriteSingleCoil (slave : Byte) (addr value : Half)
  | appRequestWriteHoldingRegister (slave : Byte) (addr value : Half)
  | appRequestWriteMultipleCoils (slave : Byte) (addr count : Half) (bits : List Byte)
  | appRequestWriteMultipleHoldingRegister (slave : Byte) (addr count : Half) (values : List Half)
  | appRequestReadWriteMultipleHoldingRegister (slave : Byte) (raddr rcount waddr wcount : Half) (values : List Half)
  deriving DecidableEq, Repr

end Sys2Proof
end

