-- ==== Sys2Proof/Machine/Codes.lean ====
section
/-! DEFINITION. The numbers of the wire encoding: function codes (spec/30_encoding.md R94) and the operand bounds of
spec/43_pdu_requests.md, and the checks on the launch parameters (spec/00_scope.md R3). -/

namespace Sys2Proof.Machine

/-- The function code of a handler (R94). -/
def codeOf : HandlerId → Byte
  | .rc => 0x01#8
  | .rdi => 0x02#8
  | .rhr => 0x03#8
  | .rir => 0x04#8
  | .wsc => 0x05#8
  | .wsr => 0x06#8
  | .wmc => 0x0F#8
  | .wmr => 0x10#8
  | .rsid => 0x11#8
  | .rwmr => 0x17#8

/-- Every handler, in ascending code order (R94, R133). -/
def allHandlers : List HandlerId := [.rc, .rdi, .rhr, .rir, .wsc, .wsr, .wmc, .wmr, .rsid, .rwmr]

/-- The codes of `ENABLED_FCS` in ascending order (R133). -/
def enabledHandlers (cfg : Config) : List HandlerId :=
  allHandlers.filter (fun h => decide (h ∈ cfg.enabledFcs))

/-- The least and the greatest frame length and the greatest PDU length (R2, R90). -/
abbrev frameMin : Nat := 4
abbrev frameMax : Nat := 256
abbrev pduMax : Nat := 253

/-- The count bounds of 43_pdu_requests.md (R221 to R229, D22). -/
abbrev maxReadBits : Nat := 0x07D0
abbrev maxReadWords : Nat := 0x007D
abbrev maxWriteBits : Nat := 0x07B0
abbrev maxWriteWords : Nat := 0x0078

/-- `0xFF00` and `0x0000`, the only coil values (R99). -/
abbrev coilOn : Half := 0xFF00#16
abbrev coilOff : Half := 0x0000#16

/-- A table window lies inside the 16-bit address space (R3). -/
abbrev windowOk (w : Window) : Prop := w.base + w.count ≤ 65536

/-- The constraints of R3 on the launch parameters; `enabledFcs` is in its canonical form. -/
abbrev configOk (cfg : Config) : Prop :=
  1 ≤ cfg.maxSlaves ∧ cfg.maxSlaves ≤ 247 ∧
  windowOk cfg.coilWindow ∧ windowOk cfg.discWindow ∧ windowOk cfg.holdWindow ∧ windowOk cfg.inputWindow ∧
  cfg.enabledFcs = enabledHandlers cfg ∧ cfg.enabledFcs.length ≤ cfg.funcHandlersMax ∧
  1 ≤ cfg.evqCap ∧ 2 ≤ cfg.repSlaveIdSize ∧ cfg.repSlaveIdSize ≤ 252 ∧
  0 < cfg.t35Duration ∧ 0 < cfg.respondTimeout ∧ 0 < cfg.convertDelay

/-- The window of a table (R3, 45_register_store.md's geometry table). -/
def windowOf (cfg : Config) : Table → Window
  | .coils => cfg.coilWindow
  | .disc => cfg.discWindow
  | .hold => cfg.holdWindow
  | .input => cfg.inputWindow

end Sys2Proof.Machine
end

