-- ==== Sys2Proof/WellFormed.lean ====
section
/-! DEFINITION. Which instruction terms are instructions: the limits the wire encoding sets on a PDU or a frame
(spec/30_encoding.md R90, R95, R97, R103), and the widths of the model's own program encoding (log 1). -/

namespace Sys2Proof

open Sys2Proof.Machine

/-- The function codes that have a handler (R94). -/
def knownCode (fc : Byte) : Bool := allHandlers.any (fun h => decide (codeOf h = fc))

/-- A response PDU has at most 253 bytes, one of them its function code (R90). -/
def rspDataOk (data : List Byte) : Bool := decide (data.length + 1 ≤ pduMax)

/-- A sequence operand fits the 16-bit length of the program encoding (log 1). -/
def seqOk (n : Nat) : Bool := decide (n < 65536)

/-- A request PDU of n bytes and those that follow them fits the 253 bytes of a PDU (R90). -/
def reqBytesOk (n : Nat) (bytes : List Byte) : Bool := decide (n + bytes.length ≤ pduMax)

/-- Whether a term is an instruction. The values of the fields make no term ill-formed: an out-of-range operand of an API call or of a
request PDU is answered by the builder (R220; log 5). -/
def Instr.wellFormed : Instr → Bool
  | .reqRc _ _ => true
  | .reqRdi _ _ => true
  | .reqRhr _ _ => true
  | .reqRir _ _ => true
  | .reqWsc _ _ => true
  | .reqWsr _ _ => true
  | .reqWmc _ _ bytes => reqBytesOk 5 bytes
  | .reqWmr _ _ bytes => reqBytesOk 5 bytes
  | .reqRwmr _ _ _ _ bytes => reqBytesOk 9 bytes
  | .reqRsid => true
  | .rspRc data => rspDataOk data
  | .rspRdi data => rspDataOk data
  | .rspRhr data => rspDataOk data
  | .rspRir data => rspDataOk data
  | .rspWsc data => rspDataOk data
  | .rspWsr data => rspDataOk data
  | .rspWmc data => rspDataOk data
  | .rspWmr data => rspDataOk data
  | .rspRsid data => rspDataOk data
  | .rspRwmr data => rspDataOk data
  | .rspException fc data => fc.getLsbD 7 && rspDataOk data
  | .rspUnknown fc data => !fc.getLsbD 7 && !knownCode fc && rspDataOk data
  | .frame _ pdu _ _ => decide (1 ≤ pdu.length ∧ pdu.length ≤ pduMax)
  | .appInit _ => true
  | .appEnable => true
  | .appDisable => true
  | .appSetSlaveId _ _ extra => seqOk extra.length
  | .appStoreRead _ _ _ n => decide (n < 4294967296)
  | .poll => true
  | .portRx _ => true
  | .portTxe => true
  | .portTmo => true
  | .appRequestReadCoils _ _ _ => true
  | .appRequestReadDiscreteInputs _ _ _ => true
  | .appRequestReadHoldingRegister _ _ _ => true
  | .appRequestReadInputRegister _ _ _ => true
  | .appRequestWriteSingleCoil _ _ _ => true
  | .appRequestWriteHoldingRegister _ _ _ => true
  | .appRequestWriteMultipleCoils _ _ _ bits => seqOk bits.length
  | .appRequestWriteMultipleHoldingRegister _ _ _ values => seqOk values.length
  | .appRequestReadWriteMultipleHoldingRegister _ _ _ _ _ values => seqOk values.length

end Sys2Proof
end

