-- ==== Sys2Proof/Decode.lean ====
section
/-! DEFINITION. The encodings. The PDU and frame layouts are the spec's (spec/30_encoding.md R90, R95, R96, R97). A program is a
byte string: R105 gives its steps only a text notation, so the step kinds and their operand bytes are the model's (DESIGN CHOICE,
log 1). The decoder is total and rejects by name; the encoder follows it. -/

namespace Sys2Proof

open Sys2Proof.Machine

/-- Why a byte string is no encoded step. -/
inductive DecodeError
  /-- no byte is left -/
  | endOfProgram
  /-- the string ends inside a step -/
  | truncated
  /-- the first byte is no step kind -/
  | unknownKind
  /-- a PDU of length 0 -/
  | emptyPdu
  /-- a PDU longer than 253 bytes (R90) -/
  | pduTooLong
  /-- a request PDU whose code no request has (R95) -/
  | unknownRequestCode
  /-- a request PDU without the fields of its code (R95), or a frame whose length no frame has (R90) -/
  | badPduLength
  /-- an operand byte that stands for no table, flag or configuration operand -/
  | badOperand
  deriving DecidableEq, Repr

abbrev Decoded := Except DecodeError (Instr × List Byte)

/-! ### Request PDUs (R95) -/

/-- A request PDU of two 16-bit fields: 0x01 to 0x06. -/
def pduTwoFields (h : HandlerId) (a b : Half) : List Byte :=
  [codeOf h, hi8 a, lo8 a, hi8 b, lo8 b]

/-- A byte count (R100) and the data it counts. -/
def countedBytes (data : List Byte) : List Byte := BitVec.ofNat 8 data.length :: data

/-- A request PDU of address, count and what follows them: 0x0F, 0x10. -/
def pduWithBytes (h : HandlerId) (addr count : Half) (bytes : List Byte) : List Byte := pduTwoFields h addr count ++ bytes

/-- The same with the byte count of its data, as the builders write it. -/
def pduWithData (h : HandlerId) (addr count : Half) (data : List Byte) : List Byte :=
  pduWithBytes h addr count (countedBytes data)

/-- A request PDU of 0x17: its four fields and what follows them. -/
def pduReadWriteBytes (raddr rcount waddr wcount : Half) (bytes : List Byte) : List Byte :=
  [codeOf .rwmr, hi8 raddr, lo8 raddr, hi8 rcount, lo8 rcount, hi8 waddr, lo8 waddr, hi8 wcount, lo8 wcount] ++ bytes

/-- The same with the write byte count of its data, as the builder writes it. -/
def pduReadWrite (raddr rcount waddr wcount : Half) (data : List Byte) : List Byte :=
  pduReadWriteBytes raddr rcount waddr wcount (countedBytes data)

/-- The two fields after the function code, and nothing more. -/
def twoFields (body : List Byte) (k : Half → Half → Except DecodeError Instr) : Except DecodeError Instr :=
  match body with
  | [a1, a0, b1, b0] => k (be16 a1 a0) (be16 b1 b0)
  | _ => .error .badPduLength

/-- Address, count, and what follows them. -/
def fieldsThenBytes (body : List Byte) (k : Half → Half → List Byte → Except DecodeError Instr) : Except DecodeError Instr :=
  match body with
  | a1 :: a0 :: c1 :: c0 :: bytes => k (be16 a1 a0) (be16 c1 c0) bytes
  | _ => .error .badPduLength

/-- The four fields of 0x17, and what follows them. -/
def readWriteFields (body : List Byte) (k : Half → Half → Half → Half → List Byte → Except DecodeError Instr) :
    Except DecodeError Instr :=
  match body with
  | r1 :: r0 :: n1 :: n0 :: w1 :: w0 :: m1 :: m0 :: bytes => k (be16 r1 r0) (be16 n1 n0) (be16 w1 w0) (be16 m1 m0) bytes
  | _ => .error .badPduLength

/-- 0x11: the function code alone. -/
def rsidRequest (body : List Byte) : Except DecodeError Instr :=
  match body with
  | [] => .ok .reqRsid
  | _ => .error .badPduLength

/-- Reads a request PDU, as it stands from `txbuf[1]` (R61, R95, R102). Only its layout can be wrong: every value of its fields is
read, and it is the builder's checks that answer an out-of-range one (R220). -/
def decodeRequestPdu (pdu : List Byte) : Except DecodeError Instr :=
  match pdu with
  | [] => .error .emptyPdu
  | fc :: body =>
    if pduMax < body.length + 1 then .error .pduTooLong
    else if fc = codeOf .rc then twoFields body (fun a n => .ok (.reqRc a n))
    else if fc = codeOf .rdi then twoFields body (fun a n => .ok (.reqRdi a n))
    else if fc = codeOf .rhr then twoFields body (fun a n => .ok (.reqRhr a n))
    else if fc = codeOf .rir then twoFields body (fun a n => .ok (.reqRir a n))
    else if fc = codeOf .wsc then twoFields body (fun a v => .ok (.reqWsc a v))
    else if fc = codeOf .wsr then twoFields body (fun a v => .ok (.reqWsr a v))
    else if fc = codeOf .wmc then fieldsThenBytes body (fun a n bytes => .ok (.reqWmc a n bytes))
    else if fc = codeOf .wmr then fieldsThenBytes body (fun a n bytes => .ok (.reqWmr a n bytes))
    else if fc = codeOf .rwmr then readWriteFields body (fun ra rn wa wn bytes => .ok (.reqRwmr ra rn wa wn bytes))
    else if fc = codeOf .rsid then rsidRequest body
    else .error .unknownRequestCode

/-! ### Response PDUs (R93, R96, R97, R103) -/

/-- The row of the opcode table that a function code selects: bit 7 first (R97), then the ten codes (R94), else unknown. -/
def responseOf (fc : Byte) (data : List Byte) : Instr :=
  if fc.getLsbD 7 then .rspException fc data
  else if fc = codeOf .rc then .rspRc data
  else if fc = codeOf .rdi then .rspRdi data
  else if fc = codeOf .rhr then .rspRhr data
  else if fc = codeOf .rir then .rspRir data
  else if fc = codeOf .wsc then .rspWsc data
  else if fc = codeOf .wsr then .rspWsr data
  else if fc = codeOf .wmc then .rspWmc data
  else if fc = codeOf .wmr then .rspWmr data
  else if fc = codeOf .rsid then .rspRsid data
  else if fc = codeOf .rwmr then .rspRwmr data
  else .rspUnknown fc data

/-- Reads a response PDU, as it stands from `rxbuf[1]` (R62). -/
def decodeResponsePdu (pdu : List Byte) : Except DecodeError Instr :=
  match pdu with
  | [] => .error .emptyPdu
  | fc :: data => if rspDataOk data then .ok (responseOf fc data) else .error .pduTooLong

/-! ### Frames (R90) -/

/-- Reads a frame of 4 to 256 bytes: address, PDU, CRC low byte, CRC high byte. The check itself is made by the receiver (R175). -/
def decodeFrame (bytes : List Byte) : Except DecodeError Instr :=
  match bytes with
  | address :: rest =>
    if ¬ (frameMin ≤ bytes.length ∧ bytes.length ≤ frameMax) then .error .badPduLength
    else
      match rest.drop (rest.length - 2) with
      | [lo, hi] => .ok (.frame address (rest.take (rest.length - 2)) lo hi)
      | _ => .error .badPduLength
  | [] => .error .badPduLength

/-! ### Operands of the program encoding (log 1) -/

def withByte (bs : List Byte) (k : Byte → List Byte → Decoded) : Decoded :=
  match bs with
  | b :: rest => k b rest
  | [] => .error .truncated

def withHalf (bs : List Byte) (k : Half → List Byte → Decoded) : Decoded :=
  match bs with
  | a :: b :: rest => k (be16 a b) rest
  | _ => .error .truncated

/-- Exactly n bytes. -/
def withBytes (n : Nat) (bs : List Byte) (k : List Byte → List Byte → Decoded) : Decoded :=
  if n ≤ bs.length then k (bs.take n) (bs.drop n) else .error .truncated

/-- A byte sequence after its 16-bit length. -/
def withSeq (bs : List Byte) (k : List Byte → List Byte → Decoded) : Decoded :=
  withHalf bs (fun n rest => withBytes n.toNat rest k)

/-- A word sequence after its 16-bit length in words. -/
def withWords (bs : List Byte) (k : List Half → List Byte → Decoded) : Decoded :=
  withHalf bs (fun n rest => withBytes (2 * n.toNat) rest (fun raw rest' => k (beHalves raw) rest'))

/-- Exactly n bytes, read by a decoder of its own. -/
def withDecoded (n : Nat) (bs : List Byte) (dec : List Byte → Except DecodeError Instr) : Decoded :=
  withBytes n bs (fun item rest =>
    match dec item with
    | .ok i => .ok (i, rest)
    | .error e => .error e)

/-- A PDU after its 8-bit length, read by a PDU decoder. -/
def withPdu (bs : List Byte) (dec : List Byte → Except DecodeError Instr) : Decoded :=
  withByte bs (fun n rest => withDecoded n.toNat rest dec)

/-- The operands (slave, field, field) of the builders of 0x01 to 0x06. -/
def withSlaveTwo (bs : List Byte) (k : Byte → Half → Half → List Byte → Decoded) : Decoded :=
  withByte bs (fun s r => withHalf r (fun a r => withHalf r (fun b r => k s a b r)))

def tableByte : Table → Byte
  | .coils => 0#8
  | .disc => 1#8
  | .hold => 2#8
  | .input => 3#8

def tableOfByte (b : Byte) : Option Table :=
  if b = 0#8 then some .coils
  else if b = 1#8 then some .disc
  else if b = 2#8 then some .hold
  else if b = 3#8 then some .input
  else none

def initByte : InitArg → Byte
  | .null => 0#8
  | .record .rtu => 1#8
  | .record .ascii => 2#8
  | .record .tcp => 3#8

def initOfByte (b : Byte) : Option InitArg :=
  if b = 0#8 then some .null
  else if b = 1#8 then some (.record .rtu)
  else if b = 2#8 then some (.record .ascii)
  else if b = 3#8 then some (.record .tcp)
  else none

def flagByte (f : Bool) : Byte := if f then 1#8 else 0#8

def flagOfByte (b : Byte) : Option Bool :=
  if b = 0#8 then some false else if b = 1#8 then some true else none

/-- An operand byte that names one of a fixed set. -/
def withNamed {α : Type} (o : Option α) (k : α → Decoded) : Decoded :=
  match o with
  | some v => k v
  | none => .error .badOperand

/-! ### Step kinds (log 1) -/

def kindRequest : Byte := 0x51#8
def kindResponse : Byte := 0x52#8
def kindFrame : Byte := 0x46#8
def kindInit : Byte := 0x10#8
def kindEnable : Byte := 0x11#8
def kindDisable : Byte := 0x12#8
def kindSetSlaveId : Byte := 0x13#8
def kindStoreRead : Byte := 0x14#8
def kindPoll : Byte := 0x20#8
def kindRx : Byte := 0x30#8
def kindTxe : Byte := 0x31#8
def kindTmo : Byte := 0x32#8
/-- The builders: 0x80 and the function code of the PDU they write. -/
def kindBuilder (h : HandlerId) : Byte := 0x80#8 ||| codeOf h

/-- Reads one step from the front of a byte string and gives the rest of it. -/
def decode (bs : List Byte) : Decoded :=
  match bs with
  | [] => .error .endOfProgram
  | k :: r =>
    if k = kindRequest then withPdu r decodeRequestPdu
    else if k = kindResponse then withPdu r decodeResponsePdu
    else if k = kindFrame then withByte r (fun n r => withDecoded (n.toNat + 3) r decodeFrame)
    else if k = kindInit then withByte r (fun b r => withNamed (initOfByte b) (fun a => .ok (.appInit a, r)))
    else if k = kindEnable then .ok (.appEnable, r)
    else if k = kindDisable then .ok (.appDisable, r)
    else if k = kindSetSlaveId then
      withByte r (fun id r => withByte r (fun f r => withNamed (flagOfByte f) (fun running =>
        withSeq r (fun extra r => .ok (.appSetSlaveId id running extra, r)))))
    else if k = kindStoreRead then
      withByte r (fun t r => withNamed (tableOfByte t) (fun table => withByte r (fun s r => withHalf r (fun a r =>
        withHalf r (fun nh r => withHalf r (fun nl r =>
          .ok (.appStoreRead table s a (nh.toNat * 65536 + nl.toNat), r)))))))
    else if k = kindPoll then .ok (.poll, r)
    else if k = kindRx then withByte r (fun b r => .ok (.portRx b, r))
    else if k = kindTxe then .ok (.portTxe, r)
    else if k = kindTmo then .ok (.portTmo, r)
    else if k = kindBuilder .rc then withSlaveTwo r (fun s a n r => .ok (.appRequestReadCoils s a n, r))
    else if k = kindBuilder .rdi then withSlaveTwo r (fun s a n r => .ok (.appRequestReadDiscreteInputs s a n, r))
    else if k = kindBuilder .rhr then withSlaveTwo r (fun s a n r => .ok (.appRequestReadHoldingRegister s a n, r))
    else if k = kindBuilder .rir then withSlaveTwo r (fun s a n r => .ok (.appRequestReadInputRegister s a n, r))
    else if k = kindBuilder .wsc then withSlaveTwo r (fun s a v r => .ok (.appRequestWriteSingleCoil s a v, r))
    else if k = kindBuilder .wsr then withSlaveTwo r (fun s a v r => .ok (.appRequestWriteHoldingRegister s a v, r))
    else if k = kindBuilder .wmc then
      withSlaveTwo r (fun s a n r => withSeq r (fun bits r => .ok (.appRequestWriteMultipleCoils s a n bits, r)))
    else if k = kindBuilder .wmr then
      withSlaveTwo r (fun s a n r => withWords r (fun values r =>
        .ok (.appRequestWriteMultipleHoldingRegister s a n values, r)))
    else if k = kindBuilder .rwmr then
      withSlaveTwo r (fun s ra rn r => withHalf r (fun wa r => withHalf r (fun wn r => withWords r (fun values r =>
        .ok (.appRequestReadWriteMultipleHoldingRegister s ra rn wa wn values, r)))))
    else .error .unknownKind

/-! ### The encoder -/

def halfBytes (w : Half) : List Byte := [hi8 w, lo8 w]

def pduItem (kind : Byte) (pdu : List Byte) : List Byte := kind :: BitVec.ofNat 8 pdu.length :: pdu

def seqBytes (bs : List Byte) : List Byte := halfBytes (BitVec.ofNat 16 bs.length) ++ bs

def wordsBytes (ws : List Half) : List Byte := halfBytes (BitVec.ofNat 16 ws.length) ++ beBytes ws

def builderItem (h : HandlerId) (slave : Byte) (a b : Half) : List Byte :=
  [kindBuilder h, slave] ++ halfBytes a ++ halfBytes b

/-- The bytes of one step. -/
def encode : Instr → List Byte
  | .reqRc addr count => pduItem kindRequest (pduTwoFields .rc addr count)
  | .reqRdi addr count => pduItem kindRequest (pduTwoFields .rdi addr count)
  | .reqRhr addr count => pduItem kindRequest (pduTwoFields .rhr addr count)
  | .reqRir addr count => pduItem kindRequest (pduTwoFields .rir addr count)
  | .reqWsc addr value => pduItem kindRequest (pduTwoFields .wsc addr value)
  | .reqWsr addr value => pduItem kindRequest (pduTwoFields .wsr addr value)
  | .reqWmc addr count bytes => pduItem kindRequest (pduWithBytes .wmc addr count bytes)
  | .reqWmr addr count bytes => pduItem kindRequest (pduWithBytes .wmr addr count bytes)
  | .reqRwmr raddr rcount waddr wcount bytes => pduItem kindRequest (pduReadWriteBytes raddr rcount waddr wcount bytes)
  | .reqRsid => pduItem kindRequest [codeOf .rsid]
  | .rspRc data => pduItem kindResponse (codeOf .rc :: data)
  | .rspRdi data => pduItem kindResponse (codeOf .rdi :: data)
  | .rspRhr data => pduItem kindResponse (codeOf .rhr :: data)
  | .rspRir data => pduItem kindResponse (codeOf .rir :: data)
  | .rspWsc data => pduItem kindResponse (codeOf .wsc :: data)
  | .rspWsr data => pduItem kindResponse (codeOf .wsr :: data)
  | .rspWmc data => pduItem kindResponse (codeOf .wmc :: data)
  | .rspWmr data => pduItem kindResponse (codeOf .wmr :: data)
  | .rspRsid data => pduItem kindResponse (codeOf .rsid :: data)
  | .rspRwmr data => pduItem kindResponse (codeOf .rwmr :: data)
  | .rspException fc data => pduItem kindResponse (fc :: data)
  | .rspUnknown fc data => pduItem kindResponse (fc :: data)
  | .frame address pdu crcLo crcHi =>
    [kindFrame, BitVec.ofNat 8 pdu.length, address] ++ pdu ++ [crcLo, crcHi]
  | .appInit arg => [kindInit, initByte arg]
  | .appEnable => [kindEnable]
  | .appDisable => [kindDisable]
  | .appSetSlaveId id running extra => [kindSetSlaveId, id, flagByte running] ++ seqBytes extra
  | .appStoreRead table slave addr n =>
    [kindStoreRead, tableByte table, slave] ++ halfBytes addr ++ halfBytes (BitVec.ofNat 16 (n / 65536)) ++
      halfBytes (BitVec.ofNat 16 n)
  | .poll => [kindPoll]
  | .portRx b => [kindRx, b]
  | .portTxe => [kindTxe]
  | .portTmo => [kindTmo]
  | .appRequestReadCoils slave addr count => builderItem .rc slave addr count
  | .appRequestReadDiscreteInputs slave addr count => builderItem .rdi slave addr count
  | .appRequestReadHoldingRegister slave addr count => builderItem .rhr slave addr count
  | .appRequestReadInputRegister slave addr count => builderItem .rir slave addr count
  | .appRequestWriteSingleCoil slave addr value => builderItem .wsc slave addr value
  | .appRequestWriteHoldingRegister slave addr value => builderItem .wsr slave addr value
  | .appRequestWriteMultipleCoils slave addr count bits => builderItem .wmc slave addr count ++ seqBytes bits
  | .appRequestWriteMultipleHoldingRegister slave addr count values =>
    builderItem .wmr slave addr count ++ wordsBytes values
  | .appRequestReadWriteMultipleHoldingRegister slave raddr rcount waddr wcount values =>
    builderItem .rwmr slave raddr rcount ++ halfBytes waddr ++ halfBytes wcount ++ wordsBytes values

/-- The bytes of a table word, first byte in bits 7..0; bits at `nbits` and above are 0, up to five bytes (log 7). -/
def tableWordBytes (nbits w : Nat) : List Byte :=
  (List.range (max 5 (nbits / 8))).map (fun k => BitVec.ofNat 8 ((w % 2 ^ nbits) >>> (8 * k)))

/-- The instruction the block reads from a table word. Rows REQ_x and RSP_x share their match bits: the only PDU the block itself
decodes is a response (R93, R134, R143), so a bare word is read as a response PDU (log 7). -/
def decodeTableWord (nbits w : Nat) : Option Instr :=
  match decodeResponsePdu (tableWordBytes nbits w) with
  | .ok i => some i
  | .error _ => none

end Sys2Proof
end

