-- ==== Sys2Proof/Machine/Memory.lean ====
section
/-! DEFINITION. Byte memory in canonical form, for every addressable space of spec/20_memory.md R60: the two frame buffers, the
Report Slave ID buffer and the packed images of the four shadow tables. -/

namespace Sys2Proof.Machine

/-- A memory lists the bytes that differ from `unlistedByte`, addresses strictly rising. -/
abbrev Memory := List Host.Cell

/-- What an unlisted address reads as. The spec gives the buffers zeros (R27, R28, R38); for the shadow tables it gives no
value (R39, D26) and zero is the model's launch value: DESIGN CHOICE, unsafe (log 3). -/
def unlistedByte : Byte := 0#8

/-- The byte at an address. -/
def Memory.read : Memory → Nat → Byte
  | [], _ => unlistedByte
  | (k, b) :: rest, a => if k = a then b else Memory.read rest a

/-- Puts an entry in its place by address. -/
def Memory.place : Memory → Nat → Byte → Memory
  | [], a, v => [(a, v)]
  | (k, b) :: rest, a, v =>
    if a < k then (a, v) :: (k, b) :: rest else (k, b) :: Memory.place rest a v

/-- Writes one byte; writing the byte an unlisted address reads as removes the entry. -/
def Memory.write (m : Memory) (a : Nat) (v : Byte) : Memory :=
  let others : Memory := m.filter (fun c => decide (c.1 ≠ a))
  if v = unlistedByte then others else Memory.place others a v

/-- Writes a byte sequence at rising addresses from a. -/
def Memory.writeBytes : Memory → Nat → List Byte → Memory
  | m, _, [] => m
  | m, a, b :: bs => Memory.writeBytes (Memory.write m a b) (a + 1) bs

/-- The canonical form: addresses strictly rising, and no entry equal to what an unlisted address reads as. -/
abbrev Memory.wf (m : Memory) : Prop :=
  m.Pairwise (fun c d => c.1 < d.1) ∧ ∀ c ∈ m, c.2 ≠ unlistedByte

/-- The capacity of each frame buffer (R2 `BUF_SIZE`, also R2 `FRAME_MAX`). -/
abbrev bufSize : Nat := 256

/-- A byte written into a frame buffer: a write beyond the 256 bytes does nothing (no operation makes one from a state that
meets the invariant, log 9). -/
def Memory.bufWrite (m : Memory) (i : Nat) (v : Byte) : Memory :=
  if i < bufSize then Memory.write m i v else m

/-- A byte sequence written into a frame buffer from index i. -/
def Memory.bufWriteBytes : Memory → Nat → List Byte → Memory
  | m, _, [] => m
  | m, i, b :: bs => Memory.bufWriteBytes (Memory.bufWrite m i b) (i + 1) bs

end Sys2Proof.Machine
end

