-- ==== Sys2Proof/Machine/State.lean ====
section
/-! DEFINITION. The machine's state as plain data (spec/10_state.md), its value at process start (R350), and the reasons a step
can stop. -/

namespace Sys2Proof.Machine

/-! ### Enumerated types (R20) -/

inductive ProtocolState
  | notInitialized | disabled | enabled
  deriving DecidableEq, Repr

inductive Event
  | ready | frameReceived | execute | frameSent | error
  deriving DecidableEq, Repr

inductive ErrorEvent
  | respondTimeout | receiveDataError | executeFunctionError
  deriving DecidableEq, Repr

inductive RxState
  | init | idle | receiving | error
  deriving DecidableEq, Repr

inductive TxState
  | idle | transmitting | done
  deriving DecidableEq, Repr

inductive TimerPurpose
  | t35 | respondTimeout | convertDelay
  deriving DecidableEq, Repr

/-- R35: the one Port timer. -/
inductive TimerState
  | off
  | armed (purpose : TimerPurpose)
  deriving DecidableEq, Repr

inductive LineMode
  | tx | rx
  deriving DecidableEq, Repr

inductive Token
  | free | held
  deriving DecidableEq, Repr

/-- One slot of the function handler table (R22); code 0 is the sentinel. -/
structure HandlerSlot where
  code    : Byte
  handler : Option HandlerId
  deriving DecidableEq, Repr

/-- The empty slot `(0, none)` (R22). -/
def HandlerSlot.empty : HandlerSlot := ⟨0#8, none⟩

/-- The local error taxonomy (R310). -/
inductive LocalError
  | noError | noSuchRegister | invalidArgument | portError | insufficientResources | ioError | illegalState | busy | timeout
  deriving DecidableEq, Repr

/-- The protocol exceptions and `None` (R311). -/
inductive Exc
  | none | illegalFunction | illegalDataAddress | illegalDataValue | slaveDeviceFailure | acknowledge | slaveBusy
  | memoryParityError | gatewayPathFailed | gatewayTargetFailed
  deriving DecidableEq, Repr

/-- What an API call returns (R6, R54): an error value or `NoError`, or the points that `StoreRead` gives (R288). -/
inductive ApiResult
  | code (e : LocalError)
  | bits (values : List Bool)
  | words (values : List Half)
  deriving DecidableEq, Repr

/-- The sticky set of model faults (R52): `SendRejected` and `EventQueueOverflow` of R20, each a member or not. -/
structure FaultMarks where
  sendRejected       : Bool
  eventQueueOverflow : Bool
  deriving DecidableEq, Repr

/-- Everything the spec gives the block, and four fields of the model's own at the end. -/
structure State where
  /-- R3: the launch parameters, written by no step -/
  cfg         : Config
  -- dispatcher
  /-- R21 -/
  protoState  : ProtocolState
  /-- R22 -/
  hfn         : List HandlerSlot
  /-- R23; none is `Unset` -/
  errEvent    : Option ErrorEvent
  /-- R24 -/
  rcvPduLen   : Half
  -- framing
  /-- R25 -/
  rxState     : RxState
  /-- R26 -/
  txState     : TxState
  /-- R27 -/
  rxbuf       : Memory
  /-- R27 -/
  rxPos       : Nat
  /-- R28 -/
  txbuf       : Memory
  /-- R29 -/
  txCur       : Nat
  /-- R29 -/
  txRem       : Nat
  /-- R30 -/
  sndPduLen   : Half
  /-- R31 -/
  destAddr    : Byte
  /-- R32 -/
  bcast       : Bool
  /-- R33 -/
  lineMode    : LineMode
  /-- R34 -/
  running     : Bool
  -- Port collaborators
  /-- R35 -/
  timer       : TimerState
  /-- R36, oldest first -/
  evq         : List Event
  /-- R37 -/
  token       : Token
  -- codec
  /-- R38 -/
  sidBuf      : Memory
  /-- R38 -/
  sidLen      : Nat
  -- register store (R39), as packed images (R67, R68, R282)
  coils       : Memory
  disc        : Memory
  hold        : Memory
  input       : Memory
  -- bookkeeping and observations
  /-- R52 -/
  faults      : FaultMarks
  /-- R52 -/
  refused     : Bool
  /-- R53, in order -/
  wire        : List Byte
  /-- R54: the result of each API call, in order -/
  results     : List ApiResult
  /-- R54, R146: the `err_event` values read by the `Error` handler, in order -/
  errorsRead  : List (Option ErrorEvent)
  -- the model's own
  /-- the steps still to come, encoded (R105; log 1, log 4) -/
  program     : List Byte
  /-- how many Execute steps have run: the argument of the free values (log 8) -/
  draws       : Nat
  deriving DecidableEq, Repr

/-- The state at process start (R350, 10_state.md section 9) for given launch parameters and initial shadow tables. -/
def State.atStart (cfg : Config) (coils disc hold input : Memory) : State where
  cfg := cfg
  protoState := .notInitialized
  hfn := List.replicate cfg.funcHandlersMax HandlerSlot.empty
  errEvent := none
  rcvPduLen := 0#16
  rxState := .init
  txState := .idle
  rxbuf := []
  rxPos := 0
  txbuf := []
  txCur := 0
  txRem := 0
  sndPduLen := 0#16
  destAddr := 0#8
  bcast := false
  lineMode := .rx
  running := false
  timer := .off
  evq := []
  token := .free
  sidBuf := []
  sidLen := 0
  coils := coils
  disc := disc
  hold := hold
  input := input
  faults := ⟨false, false⟩
  refused := false
  wire := []
  results := []
  errorsRead := []
  program := []
  draws := 0

/-- The machine right after reset: process start with the default configuration (log 2) and shadow tables whose bytes are all
0 (DESIGN CHOICE, log 3: the spec leaves them unspecified, D26). -/
def State.reset : State := State.atStart Config.default [] [] [] []

/-- The reasons a step stops with a fault. -/
inductive Fault
  /-- Raised by `step` alone, when the program bytes encode no step (the model's own encoding, log 1). Safe: the model stops
  where the spec has no step. -/
  | undecodable (why : DecodeError)
  deriving DecidableEq, Repr

/-- The reasons a step or a launch is refused. -/
inductive Refusal
  /-- Raised by `exec` for an instruction that has no meaning yet; no arm is left that does. Safe. -/
  | notModelled (mnemonic : String)
  /-- Raised by `launch` for launch parameters that fail a constraint of R3 ("a configuration that fails one is refused"). Safe. -/
  | configurationRefused
  deriving DecidableEq, Repr

end Sys2Proof.Machine
end

