-- ==== Sys2Proof/Machine/Ops.lean ====
section
/-! DEFINITION. The named operations that every meaning is built from: the model's verdicts (spec/00_scope.md R6), the Port
collaborators (spec/60_exceptions.md R330 to R333), the error path (R314, R315) and the transport callouts
(spec/40_dispatcher.md R147). -/

namespace Sys2Proof.Machine

/-! ### Launch and verdicts -/

/-- A launch with parameters that fail a check is refused (R3); otherwise the state at process start. -/
def launch (cfg : Config) (coils disc hold input : Memory) : Host.Outcome State Fault Refusal :=
  if configOk cfg then .next (State.atStart cfg coils disc hold input) else .refused .configurationRefused

/-- `fault(SendRejected)` (R6, R52). -/
def markSendRejected (s : State) : State := { s with faults := { s.faults with sendRejected := true } }

/-- `refuse(reason)`: the sticky mark, and nothing else (R6, R52). -/
def markRefused (s : State) : State := { s with refused := true }

/-- An API call returns a value (R54). -/
def returns (r : ApiResult) (s : State) : State := { s with results := s.results ++ [r] }

/-- An API call returns `NoError` or an error value. -/
def returnsCode (e : LocalError) (s : State) : State := returns (.code e) s

/-! ### Event queue (R330) -/

/-- `post(ev)`: appended, or dropped with `fault(EventQueueOverflow)` when the queue is full. -/
def post (ev : Event) (s : State) : State :=
  { s with
    evq := if s.evq.length < s.cfg.evqCap then s.evq ++ [ev] else s.evq
    faults := if s.evq.length < s.cfg.evqCap then s.faults else { s.faults with eventQueueOverflow := true } }

/-- `evq_init()`, less its result `EVQ_INIT_OK`. -/
def evqInit (s : State) : State := { s with evq := [] }

/-! ### Resource token (R331) -/

def tokenInit (s : State) : State := { s with token := .free }

/-- `token_take()` when it succeeds. -/
def tokenTake (s : State) : State := { s with token := .held }

/-- `token_release()`, idempotent (D42). -/
def tokenRelease (s : State) : State := { s with token := .free }

/-! ### Serial and timer (R332, R333) -/

def setMode (m : LineMode) (s : State) : State := { s with lineMode := m }

/-- `put_byte(b)`: appended to the wire; its result is ignored (D36). -/
def putByte (b : Byte) (s : State) : State := { s with wire := s.wire ++ [b] }

/-- `timer_init()`, less its result `TIMER_INIT_OK`. -/
def timerInit (s : State) : State := { s with timer := .off }

/-- `timer_enable(p)`: arms the one timer, or restarts it. -/
def timerEnable (p : TimerPurpose) (s : State) : State := { s with timer := .armed p }

def timerDisable (s : State) : State := { s with timer := .off }

/-! ### The error path -/

/-- Error entry (R314), the block's taking of an exception: the cause goes to `err_event` and `Error` is posted. -/
def errorEntry (v : ErrorEvent) (s : State) : State := post .error { s with errEvent := some v }

/-- Error return (R315, R146): the pending value is read and the token released; `err_event` is not cleared. -/
def errorReturn (s : State) : State := tokenRelease { s with errorsRead := s.errorsRead ++ [s.errEvent] }

/-! ### Transport callouts (R147) -/

def getAddress (s : State) : Byte := s.destAddr

def setAddress (a : Byte) (s : State) : State := { s with destAddr := a }

def setSendLength (n : Half) (s : State) : State := { s with sndPduLen := n }

def getSendLength (s : State) : Half := s.sndPduLen

def isBroadcast (s : State) : Bool := s.bcast

/-- Fills the send buffer from the view that get-send-buffer returns: `txbuf[1..1+L)` (R61, R147). -/
def fillSendBuffer (pdu : List Byte) (s : State) : State := { s with txbuf := Memory.bufWriteBytes s.txbuf 1 pdu }

end Sys2Proof.Machine
end

