-- ==== Sys2Proof/Machine/Operands.lean ====
section
/-! DEFINITION. The operand forms: the buffer bytes, the PDU views (spec/20_memory.md R61 to R64) and the request fields read back
from the send buffer (spec/30_encoding.md R102). -/

namespace Sys2Proof.Machine

/-- The buffer a PDU view starts in, at index 1 (R61, R62, D15). -/
inductive View
  | tx | rx
  deriving DecidableEq, Repr

/-- `txbuf[i]`; beyond the 256 bytes a free value (log 8). -/
def txByte (s : State) (i : Nat) : Byte :=
  if i < bufSize then Memory.read s.txbuf i else Config.beyondTx s.draws i

/-- `rxbuf[i]`; beyond the 256 bytes a free value (log 8). -/
def rxByte (s : State) (i : Nat) : Byte :=
  if i < bufSize then Memory.read s.rxbuf i else Config.beyondRx s.draws i

/-- `txbuf[i..i+n)`. -/
def txSlice (s : State) (i n : Nat) : List Byte := (List.range n).map (fun k => txByte s (i + k))

/-- `rxbuf[i..i+n)`. -/
def rxSlice (s : State) (i n : Nat) : List Byte := (List.range n).map (fun k => rxByte s (i + k))

/-- `pdu[k]` of a view: byte `1 + k` of its buffer. -/
def pduByte (v : View) (s : State) (k : Nat) : Byte :=
  match v with
  | .tx => txByte s (1 + k)
  | .rx => rxByte s (1 + k)

/-- `pdu[k..k+n)` of a view. -/
def pduSlice (v : View) (s : State) (k n : Nat) : List Byte :=
  match v with
  | .tx => txSlice s (1 + k) n
  | .rx => rxSlice s (1 + k) n

/-- Writes `pdu[k..]` of a view. -/
def pduWrite (v : View) (k : Nat) (bytes : List Byte) (s : State) : State :=
  match v with
  | .tx => { s with txbuf := Memory.bufWriteBytes s.txbuf (1 + k) bytes }
  | .rx => { s with rxbuf := Memory.bufWriteBytes s.rxbuf (1 + k) bytes }

/-- `q(k)` of R102: the 16-bit field at PDU offset k of the request. -/
def reqField (s : State) (k : Nat) : Half := be16 (txByte s (1 + k)) (txByte s (2 + k))

def reqAddr (s : State) : Half := reqField s 1

/-- The count, the value of 0x05 and 0x06, or the read count of 0x17. -/
def reqCount (s : State) : Half := reqField s 3

def reqBc (s : State) : Byte := txByte s 6

def reqData (s : State) (n : Nat) : List Byte := txSlice s 7 n

def rwWaddr (s : State) : Half := reqField s 5

def rwWcount (s : State) : Half := reqField s 7

def rwWbc (s : State) : Byte := txByte s 10

def rwWdata (s : State) (n : Nat) : List Byte := txSlice s 11 n

end Sys2Proof.Machine
end

