-- ==== Sys2Proof/Machine/Flags.lean ====
section
/-! DEFINITION. The block's conditions and condition values: the broadcast latch, the exception bit of a function code, the
normalised coil value, the validation checks of a response, and the mapping of store errors to exceptions. -/

namespace Sys2Proof.Machine

/-- The broadcast latch of R196: whether the sent address is 0. -/
def broadcastLatch (s : State) : Bool := decide (txByte s 0 = 0#8)

/-- Bit 7 of a function code: an exception response (R93, R97). -/
def exceptionBit (fc : Byte) : Bool := fc.getLsbD 7

/-- A coil value is `0xFF00` or `0x0000` (R99). -/
def coilValueOk (v : Half) : Bool := decide (v = coilOn ∨ v = coilOff)

/-- The byte with the normalised coil value in bit 0 (R256). -/
def coilBit (v : Half) : Byte := if v = coilOn then 1#8 else 0#8

/-- A read response carries the expected byte count and at least that many bytes (R252 to R255, R260, D45). -/
def readResponseOk (v : View) (L nb : Nat) (s : State) : Bool :=
  decide (2 ≤ L ∧ (pduByte v s 1).toNat = nb ∧ 2 + nb ≤ L)

/-- A unicast write response has the length of the echo; a broadcast has no response to check (R256 to R259). -/
def echoOk (L : Nat) (s : State) : Bool := s.bcast || decide (L = 5)

/-- `ErrorToException` (R251). -/
def errorToException : LocalError → Exc
  | .noError => .none
  | .noSuchRegister => .illegalDataAddress
  | .timeout => .slaveBusy
  | .invalidArgument => .slaveDeviceFailure
  | .portError => .slaveDeviceFailure
  | .insufficientResources => .slaveDeviceFailure
  | .ioError => .slaveDeviceFailure
  | .illegalState => .slaveDeviceFailure
  | .busy => .slaveDeviceFailure

/-- The wire number of an exception (R98); no rule reads it. -/
def exceptionCode : Exc → Byte
  | .none => 0x00#8
  | .illegalFunction => 0x01#8
  | .illegalDataAddress => 0x02#8
  | .illegalDataValue => 0x03#8
  | .slaveDeviceFailure => 0x04#8
  | .acknowledge => 0x05#8
  | .slaveBusy => 0x06#8
  | .memoryParityError => 0x08#8
  | .gatewayPathFailed => 0x0A#8
  | .gatewayTargetFailed => 0x0B#8

end Sys2Proof.Machine
end

