-- ==== Sys2Proof/Machine/Framing.lean ====
section
/-! DEFINITION. The RTU framing layer: the receive machine (spec/41_rtu_receive.md), the transmit machine, the timer callback and
the lifecycle callouts (spec/42_rtu_transmit_timer.md). -/

namespace Sys2Proof.Machine

/-! ### Lifecycle callouts -/

/-- `RtuInit()` when both Port inits succeed (R190): the framing values. -/
def rtuInitValues (s : State) : State :=
  { s with rxState := .init, txState := .idle, running := false, timer := .off, lineMode := .rx }

/-- `Start()` (R191). -/
def start (s : State) : State :=
  timerEnable .t35 { setMode .rx { s with rxState := .init, txState := .idle } with running := true }

/-- `Stop()` (R192). -/
def stop (s : State) : State := timerDisable { s with running := false }

/-! ### Receive machine -/

/-- R171: the startup guard interval restarts; the byte is discarded. -/
def rxInit (s : State) : State := timerEnable .t35 s

/-- R172: the first byte of a frame; it cancels the timer and ends a pending `Done`. -/
def rxIdle (b : Byte) (s : State) : State :=
  timerEnable .t35
    { timerDisable s with
      txState := if s.txState = .done then .idle else s.txState
      rxbuf := Memory.bufWrite s.rxbuf 0 b
      rxPos := 1
      rxState := .receiving }

/-- R173: a later byte; the 257th is dropped and moves the machine to `Error`. -/
def rxReceiving (b : Byte) (s : State) : State :=
  timerEnable .t35
    (if s.rxPos < bufSize then { s with rxbuf := Memory.bufWrite s.rxbuf s.rxPos b, rxPos := s.rxPos + 1 }
     else { s with rxState := .error })

/-- R174: a byte after an overflow is discarded. -/
def rxError (s : State) : State := timerEnable .t35 s

/-- `ByteReceivedCallback()` with byte b (R170). -/
def byteReceived (b : Byte) (s : State) : State :=
  if s.running then
    match s.rxState with
    | .init => rxInit s
    | .idle => rxIdle b s
    | .receiving => rxReceiving b s
    | .error => rxError s
  else s

/-- `Receive()` (R175): the address and the PDU length of the frame in `rxbuf[0..rx_pos)`, or none for `IOError`. -/
def receive (s : State) : Option (Byte × Nat) :=
  if frameMin ≤ s.rxPos ∧ crc16 (rxSlice s 0 s.rxPos) = 0#16 then some (rxByte s 0, s.rxPos - 3) else none

/-! ### Transmit machine -/

/-- The three ends of `Send` (R193). -/
inductive SendResult
  | sent (s : State)
  | ioError
  | oversize
  deriving DecidableEq, Repr

/-- The state with the address byte in front of the PDU (R193). -/
def putAddress (a : Byte) (s : State) : State := { s with txbuf := Memory.bufWrite s.txbuf 0 a }

/-- The frame built in place, and the machine started (R193, R302). -/
def sendFrame (a : Byte) (len : Nat) (s : State) : State :=
  { putAddress a s with
    txbuf := Memory.bufWriteBytes (putAddress a s).txbuf (1 + len) (crcTail (txSlice (putAddress a s) 0 (1 + len)))
    txCur := 0
    txRem := len + 3
    txState := .transmitting
    lineMode := .tx }

/-- `Send(a, pdu, len)` (R193); the PDU is the view of the send buffer. -/
def send (a : Byte) (len : Nat) (s : State) : SendResult :=
  if pduMax < len then .oversize
  else if s.rxState ≠ .idle then .ioError
  else .sent (sendFrame a len s)

/-- R195: the next byte goes to the Port. -/
def txNextByte (s : State) : State :=
  { putByte (txByte s s.txCur) s with txCur := s.txCur + 1, txRem := s.txRem - 1 }

/-- R196: the turnaround; the broadcast latch, the line to receive mode, the timer for what was sent. -/
def txEnd (s : State) : State :=
  timerEnable (if broadcastLatch s then .convertDelay else .respondTimeout)
    { setMode .rx { s with bcast := broadcastLatch s } with txState := .done }

/-- `TransmitterEmptyCallback()` (R194); no effect in `Idle` and `Done` (R197). -/
def transmitterEmpty (s : State) : State :=
  if s.running then
    match s.txState with
    | .transmitting => if s.txRem ≠ 0 then txNextByte s else txEnd s
    | .idle => s
    | .done => s
  else s

/-! ### Timer callback -/

/-- R198: what the receive machine does at an expiry; it always ends in `Idle`. -/
def timerExpiredRx (s : State) : State :=
  match s.rxState with
  | .init => { post .ready s with rxState := .idle }
  | .receiving => { post .frameReceived s with rxState := .idle }
  | .error => { errorEntry .receiveDataError s with rxState := .idle }
  | .idle => s

/-- R199: the send part. -/
def timerExpiredTx (s : State) : State :=
  match s.txState with
  | .done =>
    if s.bcast then { post .execute s with txState := .idle }
    else { errorEntry .respondTimeout s with txState := .idle }
  | .idle => s
  | .transmitting => s

/-- `TimerExpiredCallback()` (R198, R199): the receive part before the send part (R317). -/
def timerExpired (s : State) : State := if s.running then timerExpiredTx (timerExpiredRx s) else s

/-- `PortTimerExpiry()` (R333): one-shot, and possible only while the timer is armed; otherwise nothing happens (log 6). -/
def portTimerExpiry (s : State) : State :=
  match s.timer with
  | .armed _ => timerExpired (timerDisable s)
  | .off => s

/-- `RXFRAME [b0, ..., bn]` (R106): the bytes in order, then the expiry. -/
def receiveFrame (bytes : List Byte) (s : State) : State :=
  portTimerExpiry (bytes.foldl (fun t b => byteReceived b t) s)

end Sys2Proof.Machine
end

