-- ==== Sys2Proof/Machine/Store.lean ====
section
/-! DEFINITION. The register store (spec/45_register_store.md). A table of slave s is its packed byte image (R67, R68, R282) in one
memory per table, at `imageBase s`. -/

namespace Sys2Proof.Machine

/-- Where the image of a slave's table begins: images are 131072 bytes apart, the size of 65536 words. -/
def imageBase (slave : Nat) : Nat := slave * 131072

/-- The memory that holds a table's images. -/
def tableOf (t : Table) (s : State) : Memory :=
  match t with
  | .coils => s.coils
  | .disc => s.disc
  | .hold => s.hold
  | .input => s.input

/-- Replaces a table's memory. -/
def withTable (t : Table) (m : Memory) (s : State) : State :=
  match t with
  | .coils => { s with coils := m }
  | .disc => { s with disc := m }
  | .hold => { s with hold := m }
  | .input => { s with input := m }

/-! ### Bit and word primitives -/

/-- The 16-bit little-endian window over bytes k and k+1 of an image (R282, D5). -/
def bitWindow (m : Memory) (slave k : Nat) : Half :=
  be16 (Memory.read m (imageBase slave + (k + 1))) (Memory.read m (imageBase slave + k))

/-- The window mask of n bits at offset sh (R282). -/
def windowMask (n sh : Nat) : Half := ((1#16 <<< n) - 1#16) <<< sh

/-- `SetBits(P, off, n, v)` (R282). -/
def setBits (m : Memory) (slave off n : Nat) (v : Byte) : Memory :=
  let k := off / 8
  let sh := off % 8
  let w := (bitWindow m slave k &&& ~~~ windowMask n sh) ||| ((v.setWidth 16 <<< sh) &&& windowMask n sh)
  Memory.write (Memory.write m (imageBase slave + k) (lo8 w)) (imageBase slave + (k + 1)) (hi8 w)

/-- `GetBits(P, off, n)` (R283). -/
def getBits (m : Memory) (slave off n : Nat) : Byte :=
  lo8 ((bitWindow m slave (off / 8) >>> (off % 8)) &&& ((1#16 <<< n) - 1#16))

/-- Bit i of a slave's table: bit `i mod 8` of byte `i div 8` (R68). -/
def bitAt (m : Memory) (slave i : Nat) : Bool := (Memory.read m (imageBase slave + i / 8)).getLsbD (i % 8)

/-- Word i of a slave's table, the more significant byte first (R67). -/
def wordAt (m : Memory) (slave i : Nat) : Half :=
  be16 (Memory.read m (imageBase slave + 2 * i)) (Memory.read m (imageBase slave + (2 * i + 1)))

/-- Writes word i of a slave's table (R67). -/
def setWord (m : Memory) (slave i : Nat) (w : Half) : Memory :=
  Memory.write (Memory.write m (imageBase slave + 2 * i) (hi8 w)) (imageBase slave + (2 * i + 1)) (lo8 w)

/-! ### Index check -/

/-- `SlaveOk(s)` (R280). -/
def slaveOk (cfg : Config) (slave : Byte) : Bool := decide (1 ≤ slave.toNat ∧ slave.toNat ≤ cfg.maxSlaves)

/-- `Index(T, s, addr1, n)` (R281): back to the wire address, then the range check in natural numbers. -/
def storeIndex (cfg : Config) (t : Table) (slave : Byte) (addr1 : Half) (n : Nat) : Except LocalError Nat :=
  let a0 := (addr1 - 1#16).toNat
  let w := windowOf cfg t
  if ¬ slaveOk cfg slave then .error .noSuchRegister
  else if a0 < w.base ∨ w.base + w.count < a0 + n then .error .noSuchRegister
  else .ok (a0 - w.base)

/-! ### The callbacks -/

/-- The group loop of R284: n bits from index i, one byte of the payload for each group of at most 8. -/
def writeBits : Memory → Nat → Nat → Nat → List Byte → Memory
  | m, _, _, _, [] => m
  | m, slave, i, n, b :: bs =>
    if n = 0 then m else writeBits (setBits m slave i (min 8 n) b) slave (i + 8) (n - 8) bs

/-- The word loop of R286. -/
def writeWords : Memory → Nat → Nat → List Half → Memory
  | m, _, _, [] => m
  | m, slave, i, w :: ws => writeWords (setWord m slave i w) slave (i + 1) ws

/-- A table's memory after n points from index i are written (R284 to R287). -/
def tableWrite (t : Table) (m : Memory) (slave i n : Nat) (bytes : List Byte) : Memory :=
  match t with
  | .coils => writeBits m slave i n bytes
  | .disc => writeBits m slave i n bytes
  | .hold => writeWords m slave i ((beHalves bytes).take n)
  | .input => writeWords m slave i ((beHalves bytes).take n)

/-- `StoreWrite(T, s, addr1, n, bytes)` (R284 to R287): all or nothing. -/
def storeWrite (t : Table) (slave : Byte) (addr1 : Half) (n : Nat) (bytes : List Byte) (s : State) : State × LocalError :=
  match storeIndex s.cfg t slave addr1 n with
  | .error e => (s, e)
  | .ok i => (withTable t (tableWrite t (tableOf t s) slave.toNat i n bytes) s, .noError)

/-! ### The accessor -/

/-- The values of n points from index i (R288): bits or words. -/
def tableRead (t : Table) (m : Memory) (slave i n : Nat) : ApiResult :=
  match t with
  | .coils => .bits ((List.range n).map (fun j => bitAt m slave (i + j)))
  | .disc => .bits ((List.range n).map (fun j => bitAt m slave (i + j)))
  | .hold => .words ((List.range n).map (fun j => wordAt m slave (i + j)))
  | .input => .words ((List.range n).map (fun j => wordAt m slave (i + j)))

/-- `StoreRead(T, s, a, n)` (R288): what the call returns. -/
def storeRead (t : Table) (slave : Byte) (a : Half) (n : Nat) (s : State) : ApiResult :=
  match storeIndex s.cfg t slave (a + 1#16) n with
  | .error e => .code e
  | .ok i => tableRead t (tableOf t s) slave.toNat i n

/-! ### Packed images (R289) -/

/-- The byte image of n bits from index i. -/
def packedBits (m : Memory) (slave i n : Nat) : List Byte :=
  (List.range (ceil8 n)).map (fun q => getBits m slave (i + 8 * q) (min 8 (n - 8 * q)))

/-- The byte image of n words from index i. -/
def packedWords (m : Memory) (slave i n : Nat) : List Byte :=
  beBytes ((List.range n).map (fun j => wordAt m slave (i + j)))

end Sys2Proof.Machine
end

