-- ==== Sys2Proof/Machine/Handlers.lean ====
section
/-! DEFINITION. The response handlers of the codec (spec/44_pdu_handlers.md). -/

namespace Sys2Proof.Machine

/-- What a handler leaves: the state, the exception it returns, and the PDU length `L`, local to the Execute step (R262). -/
structure HandlerResult where
  state : State
  exc   : Exc
  len   : Nat
  deriving DecidableEq, Repr

/-- The end of every storing handler: the store error becomes the exception (R251). -/
def fromStore (r : State × LocalError) (L : Nat) : HandlerResult := ⟨r.1, errorToException r.2, L⟩

/-- The address a handler hands to the store: wire address + 1, modulo 65536 (R101). -/
def storeAddr (a : Half) : Half := a + 1#16

/-- The shape of the four read handlers (R250, R252 to R255): nothing on a broadcast; the response checked against the request;
the response payload into the table. -/
def readHandler (t : Table) (nb : Nat) (v : View) (L : Nat) (s : State) : HandlerResult :=
  if s.bcast then ⟨s, .none, L⟩
  else if readResponseOk v L nb s then
    fromStore (storeWrite t (getAddress s) (storeAddr (reqAddr s)) (reqCount s).toNat (pduSlice v s 2 nb) s) L
  else ⟨s, .illegalDataValue, L⟩

/-- R252. -/
def handleReadCoils (v : View) (L : Nat) (s : State) : HandlerResult :=
  readHandler .coils (ceil8 (reqCount s).toNat) v L s

/-- R253. -/
def handleReadDiscreteInputs (v : View) (L : Nat) (s : State) : HandlerResult :=
  readHandler .disc (ceil8 (reqCount s).toNat) v L s

/-- R254. -/
def handleReadHoldingRegister (v : View) (L : Nat) (s : State) : HandlerResult :=
  readHandler .hold (2 * (reqCount s).toNat) v L s

/-- R255. -/
def handleReadInputRegister (v : View) (L : Nat) (s : State) : HandlerResult :=
  readHandler .input (2 * (reqCount s).toNat) v L s

/-- R256: the request's coil value, normalised to one bit. -/
def handleWriteSingleCoil (_v : View) (L : Nat) (s : State) : HandlerResult :=
  if echoOk L s && coilValueOk (reqCount s) then
    fromStore (storeWrite .coils (getAddress s) (storeAddr (reqAddr s)) 1 [coilBit (reqCount s)] s) L
  else ⟨s, .illegalDataValue, L⟩

/-- R257: the request's value. -/
def handleWriteHoldingRegister (_v : View) (L : Nat) (s : State) : HandlerResult :=
  if echoOk L s then
    fromStore (storeWrite .hold (getAddress s) (storeAddr (reqAddr s)) 1 [hi8 (reqCount s), lo8 (reqCount s)] s) L
  else ⟨s, .illegalDataValue, L⟩

/-- R258: the request's bits, if its byte count is `ceil8(n)`. -/
def handleWriteMultipleCoils (_v : View) (L : Nat) (s : State) : HandlerResult :=
  let n := (reqCount s).toNat
  if echoOk L s && decide ((reqBc s).toNat = ceil8 n) then
    fromStore (storeWrite .coils (getAddress s) (storeAddr (reqAddr s)) n (reqData s (ceil8 n)) s) L
  else ⟨s, .illegalDataValue, L⟩

/-- R259: the request's words, if its byte count is `2n`. -/
def handleWriteMultipleHoldingRegister (_v : View) (L : Nat) (s : State) : HandlerResult :=
  let n := (reqCount s).toNat
  if echoOk L s && decide ((reqBc s).toNat = 2 * n) then
    fromStore (storeWrite .hold (getAddress s) (storeAddr (reqAddr s)) n (reqData s (2 * n)) s) L
  else ⟨s, .illegalDataValue, L⟩

/-- The write half of 0x17 (R260): the request's write words into the write window. -/
def readWriteWritePart (s : State) : State × LocalError :=
  storeWrite .hold (getAddress s) (storeAddr (rwWaddr s)) (rwWcount s).toNat (rwWdata s (2 * (rwWcount s).toNat)) s

/-- R260: the write must succeed before the read runs; a broadcast has nothing to read (D25). -/
def handleReadWriteMultipleHoldingRegister (v : View) (L : Nat) (s : State) : HandlerResult :=
  let rn := (reqCount s).toNat
  if (s.bcast || readResponseOk v L (2 * rn) s) && decide ((rwWbc s).toNat = 2 * (rwWcount s).toNat) then
    let w := readWriteWritePart s
    if w.2 ≠ .noError then ⟨w.1, errorToException w.2, L⟩
    else if s.bcast then ⟨w.1, .none, L⟩
    else fromStore (storeWrite .hold (getAddress s) (storeAddr (reqAddr s)) rn (pduSlice v s 2 (2 * rn)) w.1) L
  else ⟨s, .illegalDataValue, L⟩

/-- The used part of the Report Slave ID buffer: `sid_buf[0..sid_len)` (R38). -/
def sidBytes (s : State) : List Byte := (List.range s.sidLen).map (Memory.read s.sidBuf)

/-- R262: the buffer over the PDU after its function code; the new length. -/
def handleReportSlaveId (v : View) (_L : Nat) (s : State) : HandlerResult :=
  ⟨pduWrite v 1 (sidBytes s) s, .none, 1 + s.sidLen⟩

/-- The handler that a handler table entry names (R20, R94). -/
def runHandler (h : HandlerId) (v : View) (L : Nat) (s : State) : HandlerResult :=
  match h with
  | .rc => handleReadCoils v L s
  | .rdi => handleReadDiscreteInputs v L s
  | .rhr => handleReadHoldingRegister v L s
  | .rir => handleReadInputRegister v L s
  | .wsc => handleWriteSingleCoil v L s
  | .wsr => handleWriteHoldingRegister v L s
  | .wmc => handleWriteMultipleCoils v L s
  | .wmr => handleWriteMultipleHoldingRegister v L s
  | .rwmr => handleReadWriteMultipleHoldingRegister v L s
  | .rsid => handleReportSlaveId v L s

end Sys2Proof.Machine
end

