-- ==== Sys2Proof/Machine/Dispatcher.lean ====
section
/-! DEFINITION. The protocol dispatcher (spec/40_dispatcher.md): the handler table, the event handlers and the poll step. -/

namespace Sys2Proof.Machine

/-! ### Handler table -/

/-- `BuildHandlerTable()` (R133): the enabled codes in ascending order, then empty slots. -/
def buildHandlerTable (cfg : Config) : List HandlerSlot :=
  (enabledHandlers cfg).map (fun h => ⟨codeOf h, some h⟩) ++
    List.replicate (cfg.funcHandlersMax - (enabledHandlers cfg).length) HandlerSlot.empty

/-- `Lookup(fc)` (R134): linear scan to the first match or the sentinel. -/
def lookup : List HandlerSlot → Byte → Option HandlerId
  | [], _ => none
  | slot :: rest, fc =>
    if slot.code = 0#8 then none else if slot.code = fc then slot.handler else lookup rest fc

/-! ### Event handlers -/

/-- R141: no action. -/
def handleReady (s : State) : State := s

/-- What a failed `Receive` or a wrong address leads to, and what an accepted frame does (R142). -/
def handleFrameReceived (s : State) : State :=
  match receive s with
  | some (a, len) =>
    if a = getAddress s then post .execute { s with rcvPduLen := BitVec.ofNat 16 len }
    else errorEntry .receiveDataError s
  | none => errorEntry .receiveDataError s

/-- One iteration of the fan-out (R144): the handler for slave j. -/
def fanOutOne (h : HandlerId) (v : View) (L : Nat) (acc : State × Exc) (j : Nat) : State × Exc :=
  let r := runHandler h v L (setAddress (BitVec.ofNat 8 j) acc.1)
  (r.state, r.exc)

/-- `FanOut(h, pdu, L)` (R144): every slave 1..MAX_SLAVES in turn; the last invocation's exception. -/
def fanOut (h : HandlerId) (v : View) (L : Nat) (s : State) : State × Exc :=
  (List.range' 1 s.cfg.maxSlaves).foldl (fanOutOne h v L) (s, .none)

/-- The handler once, or once for every slave of a broadcast (R143). -/
def applyHandler (h : HandlerId) (v : View) (L : Nat) (s : State) : State × Exc :=
  if isBroadcast s then fanOut h v L s
  else
    let r := runHandler h v L s
    (r.state, r.exc)

/-- The end of the Execute step (R143): a non-`None` exception is recorded, `None` releases the token. -/
def concludeExecute (r : State × Exc) : State :=
  if r.2 = .none then tokenRelease r.1 else errorEntry .executeFunctionError r.1

/-- `HandleExecute()` from the function code on (R143), for a PDU view of length L. -/
def executePdu (v : View) (L : Nat) (s : State) : State :=
  let fc := pduByte v s 0
  if exceptionBit fc then errorEntry .executeFunctionError s
  else
    match lookup s.hfn fc with
    | none => concludeExecute (s, .illegalFunction)
    | some h => concludeExecute (applyHandler h v L s)

/-- `HandleExecute()` (R143): the request on a broadcast, else the accepted response (D15). The counter of the free values
advances (log 8). -/
def handleExecute (s : State) : State :=
  let t := if isBroadcast s then executePdu .tx (getSendLength s).toNat s else executePdu .rx s.rcvPduLen.toNat s
  { t with draws := t.draws + 1 }

/-- `HandleFrameSent()` (R145): a rejected `Send` is the fault `SendRejected` (D19), an oversized one is refused (D40). -/
def handleFrameSent (s : State) : State :=
  match send (getAddress s) (getSendLength s).toNat s with
  | .sent t => t
  | .ioError => markSendRejected s
  | .oversize => markRefused s

/-- `HandleError()` (R146). -/
def handleError (s : State) : State := errorReturn s

def handleEvent (ev : Event) (s : State) : State :=
  match ev with
  | .ready => handleReady s
  | .frameReceived => handleFrameReceived s
  | .execute => handleExecute s
  | .frameSent => handleFrameSent s
  | .error => handleError s

/-- `MainFunction()` (R140): nothing outside `Enabled`; else at most one event, the oldest (R74, R330). -/
def mainFunction (s : State) : State :=
  if s.protoState = .enabled then
    match s.evq with
    | [] => s
    | ev :: rest => handleEvent ev { s with evq := rest }
  else s

/-- A response PDU as the accepted response (R62, R142): in the receive buffer from index 1, with its length. -/
def acceptResponse (pdu : List Byte) (s : State) : State :=
  { s with rxbuf := Memory.bufWriteBytes s.rxbuf 1 pdu, rcvPduLen := BitVec.ofNat 16 pdu.length }

/-- A response PDU dispatched: the Execute step that finds it accepted (R143), which only an enabled dispatcher takes (R140). -/
def dispatchResponse (pdu : List Byte) (s : State) : State :=
  if s.protoState = .enabled then handleExecute (acceptResponse pdu s) else s

end Sys2Proof.Machine
end

