-- ==== Sys2Proof/Machine/Lifecycle.lean ====
section
/-! DEFINITION. The meanings of the application's other steps and of the poll step (spec/40_dispatcher.md R130 to R132, R140;
spec/43_pdu_requests.md R230; spec/45_register_store.md R288). -/

namespace Sys2Proof.Machine

/-- `Init` after its operand checks (R130, R190): serial, timer, queue, token, handler table; a failed Port init ends it with the
writes made so far. -/
def initPort (s : State) : State :=
  if ¬ s.cfg.serialInitOk then returnsCode .portError s
  else if ¬ s.cfg.timerInitOk then returnsCode .portError (timerInit s)
  else if ¬ s.cfg.evqInitOk then returnsCode .portError (evqInit (rtuInitValues (timerInit s)))
  else
    returnsCode .noError
      { tokenInit (evqInit (rtuInitValues (timerInit s))) with
        hfn := buildHandlerTable s.cfg
        protoState := .disabled }

/-- `Init(cfg)` (R130). -/
def init (arg : InitArg) (s : State) : State :=
  if s.protoState ≠ .notInitialized then markRefused s
  else
    match arg with
    | .null => returnsCode .invalidArgument s
    | .record .rtu => initPort s
    | .record .ascii => markRefused s
    | .record .tcp => markRefused s

/-- `Enable()` (R131). -/
def enable (s : State) : State :=
  if s.protoState = .disabled then returnsCode .noError { start s with protoState := .enabled }
  else returnsCode .illegalState s

/-- `Disable()` (R132). -/
def disable (s : State) : State :=
  match s.protoState with
  | .notInitialized => returnsCode .illegalState s
  | .enabled => returnsCode .noError { stop s with protoState := .disabled }
  | .disabled => returnsCode .noError s

/-- The running-flag byte (R230). -/
def runningByte (running : Bool) : Byte := if running then 0xFF#8 else 0x00#8

/-- `SetSlaveId(id, running, extra)` (R230). -/
def setSlaveId (id : Byte) (running : Bool) (extra : List Byte) (s : State) : State :=
  if s.cfg.repSlaveIdSize < extra.length + 2 then returnsCode .insufficientResources s
  else
    returnsCode .noError
      { s with
        sidBuf := Memory.writeBytes s.sidBuf 0 (id :: runningByte running :: extra)
        sidLen := extra.length + 2 }

def execAppInit (arg : InitArg) (s : State) : Host.Outcome State Fault Refusal := .next (init arg s)

def execAppEnable (s : State) : Host.Outcome State Fault Refusal := .next (enable s)

def execAppDisable (s : State) : Host.Outcome State Fault Refusal := .next (disable s)

def execAppSetSlaveId (id : Byte) (running : Bool) (extra : List Byte) (s : State) : Host.Outcome State Fault Refusal :=
  .next (setSlaveId id running extra s)

/-- R288: the store is read and nothing else changes but the call's result. -/
def execAppStoreRead (table : Table) (slave : Byte) (addr : Half) (n : Nat) (s : State) :
    Host.Outcome State Fault Refusal :=
  .next (returns (storeRead table slave addr n s) s)

def execPoll (s : State) : Host.Outcome State Fault Refusal := .next (mainFunction s)

end Sys2Proof.Machine
end

