-- ==== Sys2Proof/Machine/Port.lean ====
section
/-! DEFINITION. The meanings of the Port's steps (spec/30_encoding.md R105, spec/60_exceptions.md R320, R333, R334) and of a frame
on the receive line (R90, R92, R106). -/

namespace Sys2Proof.Machine

/-- R170 -/
def execPortRx (b : Byte) (s : State) : Host.Outcome State Fault Refusal := .next (byteReceived b s)

/-- R194 -/
def execPortTxe (s : State) : Host.Outcome State Fault Refusal := .next (transmitterEmpty s)

/-- R333, R198 -/
def execPortTmo (s : State) : Host.Outcome State Fault Refusal := .next (portTimerExpiry s)

/-- The bytes of a frame in wire order (R90). -/
def wireOrder (address : Byte) (pdu : List Byte) (crcLo crcHi : Byte) : List Byte :=
  (address :: pdu) ++ [crcLo, crcHi]

/-- A frame arrives: its bytes in wire order, then the silence that ends it (R92, R106 `RXFRAME`; log 5). -/
def execFrame (address : Byte) (pdu : List Byte) (crcLo crcHi : Byte) (s : State) : Host.Outcome State Fault Refusal :=
  .next (receiveFrame (wireOrder address pdu crcLo crcHi) s)

end Sys2Proof.Machine
end

