-- ==== Sys2Proof/Machine/Requests.lean ====
section
/-! DEFINITION. The request builders (spec/43_pdu_requests.md), as API calls and as request PDUs. -/

namespace Sys2Proof.Machine

/-- A request submitted: what `RequestCommon` writes on success (R220). -/
def submit (slave : Byte) (pdu : List Byte) (s : State) : State :=
  post .frameSent (setSendLength (BitVec.ofNat 16 pdu.length) (fillSendBuffer pdu (setAddress slave (tokenTake s))))

/-- `RequestCommon` (R220) of the builder of h: refused when its code is not enabled (R231); slave and bounds before the token
(D23). -/
def requestCommon (h : HandlerId) (slave : Byte) (okArgs : Bool) (pdu : List Byte) (s : State) : State :=
  if h ∉ s.cfg.enabledFcs then markRefused s
  else if s.cfg.maxSlaves < slave.toNat then returnsCode .invalidArgument s
  else if ¬ okArgs then returnsCode .invalidArgument s
  else if s.token = .held then returnsCode .busy s
  else returnsCode .noError (submit slave pdu s)

/-- A count within 1 and its bound. -/
def countOk (count : Half) (bound : Nat) : Bool := decide (1 ≤ count.toNat ∧ count.toNat ≤ bound)

/-! ### The builders -/

/-- R221 -/
def requestReadCoils (slave : Byte) (addr count : Half) (s : State) : State :=
  requestCommon .rc slave (countOk count maxReadBits) (pduTwoFields .rc addr count) s

/-- R222 -/
def requestReadDiscreteInputs (slave : Byte) (addr count : Half) (s : State) : State :=
  requestCommon .rdi slave (countOk count maxReadBits) (pduTwoFields .rdi addr count) s

/-- R223 -/
def requestReadHoldingRegister (slave : Byte) (addr count : Half) (s : State) : State :=
  requestCommon .rhr slave (countOk count maxReadWords) (pduTwoFields .rhr addr count) s

/-- R224 -/
def requestReadInputRegister (slave : Byte) (addr count : Half) (s : State) : State :=
  requestCommon .rir slave (countOk count maxReadWords) (pduTwoFields .rir addr count) s

/-- R225 -/
def requestWriteSingleCoil (slave : Byte) (addr value : Half) (s : State) : State :=
  requestCommon .wsc slave (decide (value = coilOn ∨ value = coilOff)) (pduTwoFields .wsc addr value) s

/-- R226 -/
def requestWriteHoldingRegister (slave : Byte) (addr value : Half) (s : State) : State :=
  requestCommon .wsr slave true (pduTwoFields .wsr addr value) s

/-- R227 -/
def requestWriteMultipleCoils (slave : Byte) (addr count : Half) (bits : List Byte) (s : State) : State :=
  requestCommon .wmc slave (countOk count maxWriteBits && decide (ceil8 count.toNat ≤ bits.length))
    (pduWithData .wmc addr count (bits.take (ceil8 count.toNat))) s

/-- R228 -/
def requestWriteMultipleHoldingRegister (slave : Byte) (addr count : Half) (values : List Half) (s : State) : State :=
  requestCommon .wmr slave (countOk count maxWriteWords && decide (count.toNat ≤ values.length))
    (pduWithData .wmr addr count (beBytes (values.take count.toNat))) s

/-- R229 -/
def requestReadWriteMultipleHoldingRegister (slave : Byte) (raddr rcount waddr wcount : Half) (values : List Half)
    (s : State) : State :=
  requestCommon .rwmr slave
    (countOk rcount maxReadWords && countOk wcount maxWriteWords && decide (wcount.toNat ≤ values.length))
    (pduReadWrite raddr rcount waddr wcount (beBytes (values.take wcount.toNat))) s

/-! ### The meanings of the API calls -/

def execAppRequestReadCoils (slave : Byte) (addr count : Half) (s : State) : Host.Outcome State Fault Refusal :=
  .next (requestReadCoils slave addr count s)

def execAppRequestReadDiscreteInputs (slave : Byte) (addr count : Half) (s : State) : Host.Outcome State Fault Refusal :=
  .next (requestReadDiscreteInputs slave addr count s)

def execAppRequestReadHoldingRegister (slave : Byte) (addr count : Half) (s : State) : Host.Outcome State Fault Refusal :=
  .next (requestReadHoldingRegister slave addr count s)

def execAppRequestReadInputRegister (slave : Byte) (addr count : Half) (s : State) : Host.Outcome State Fault Refusal :=
  .next (requestReadInputRegister slave addr count s)

def execAppRequestWriteSingleCoil (slave : Byte) (addr value : Half) (s : State) : Host.Outcome State Fault Refusal :=
  .next (requestWriteSingleCoil slave addr value s)

def execAppRequestWriteHoldingRegister (slave : Byte) (addr value : Half) (s : State) :
    Host.Outcome State Fault Refusal :=
  .next (requestWriteHoldingRegister slave addr value s)

def execAppRequestWriteMultipleCoils (slave : Byte) (addr count : Half) (bits : List Byte) (s : State) :
    Host.Outcome State Fault Refusal :=
  .next (requestWriteMultipleCoils slave addr count bits s)

def execAppRequestWriteMultipleHoldingRegister (slave : Byte) (addr count : Half) (values : List Half) (s : State) :
    Host.Outcome State Fault Refusal :=
  .next (requestWriteMultipleHoldingRegister slave addr count values s)

def execAppRequestReadWriteMultipleHoldingRegister (slave : Byte) (raddr rcount waddr wcount : Half) (values : List Half)
    (s : State) : Host.Outcome State Fault Refusal :=
  .next (requestReadWriteMultipleHoldingRegister slave raddr rcount waddr wcount values s)

/-! ### The meanings of the request PDUs

A request PDU names no slave: it is submitted for the slave that the address register holds (DESIGN CHOICE, log 5). One that its builder
would not write is answered as the builder answers arguments outside their bounds (R220): a count or a coil value out of range by the
builder's own check, a byte count or a length that is not the one its count gives by log 5 (DESIGN CHOICE). -/

def execReqRc (addr count : Half) (s : State) : Host.Outcome State Fault Refusal :=
  .next (requestReadCoils (getAddress s) addr count s)

def execReqRdi (addr count : Half) (s : State) : Host.Outcome State Fault Refusal :=
  .next (requestReadDiscreteInputs (getAddress s) addr count s)

def execReqRhr (addr count : Half) (s : State) : Host.Outcome State Fault Refusal :=
  .next (requestReadHoldingRegister (getAddress s) addr count s)

def execReqRir (addr count : Half) (s : State) : Host.Outcome State Fault Refusal :=
  .next (requestReadInputRegister (getAddress s) addr count s)

def execReqWsc (addr value : Half) (s : State) : Host.Outcome State Fault Refusal :=
  .next (requestWriteSingleCoil (getAddress s) addr value s)

def execReqWsr (addr value : Half) (s : State) : Host.Outcome State Fault Refusal :=
  .next (requestWriteHoldingRegister (getAddress s) addr value s)

/-- The bytes after the fields of a request are a byte count of n and n bytes of data (R95, R100). -/
def countedOk (bytes : List Byte) (n : Nat) : Bool := decide (bytes.length = n + 1 ∧ (bytes.getD 0 0#8).toNat = n)

def execReqWmc (addr count : Half) (bytes : List Byte) (s : State) : Host.Outcome State Fault Refusal :=
  .next (requestCommon .wmc (getAddress s) (countOk count maxWriteBits && countedOk bytes (ceil8 count.toNat))
    (pduWithBytes .wmc addr count bytes) s)

def execReqWmr (addr count : Half) (bytes : List Byte) (s : State) : Host.Outcome State Fault Refusal :=
  .next (requestCommon .wmr (getAddress s) (countOk count maxWriteWords && countedOk bytes (2 * count.toNat))
    (pduWithBytes .wmr addr count bytes) s)

def execReqRwmr (raddr rcount waddr wcount : Half) (bytes : List Byte) (s : State) : Host.Outcome State Fault Refusal :=
  .next (requestCommon .rwmr (getAddress s)
    (countOk rcount maxReadWords && countOk wcount maxWriteWords && countedOk bytes (2 * wcount.toNat))
    (pduReadWriteBytes raddr rcount waddr wcount bytes) s)

/-- R95: no builder writes the request of 0x11, so there is no call to submit it; as for every request API that does not exist
the call is refused (R6, R231; DEDUCED, log 5). -/
def execReqRsid (s : State) : Host.Outcome State Fault Refusal := .next (markRefused s)

end Sys2Proof.Machine
end

