-- ==== Sys2Proof/Machine/Responses.lean ====
section
/-! DEFINITION. The meanings of the response PDUs (spec/40_dispatcher.md R143, spec/44_pdu_handlers.md): each is the Execute step
that finds this PDU accepted. The function code selects the handler through the handler table. -/

namespace Sys2Proof.Machine

def execRspRc (data : List Byte) (s : State) : Host.Outcome State Fault Refusal :=
  .next (dispatchResponse (codeOf .rc :: data) s)

def execRspRdi (data : List Byte) (s : State) : Host.Outcome State Fault Refusal :=
  .next (dispatchResponse (codeOf .rdi :: data) s)

def execRspRhr (data : List Byte) (s : State) : Host.Outcome State Fault Refusal :=
  .next (dispatchResponse (codeOf .rhr :: data) s)

def execRspRir (data : List Byte) (s : State) : Host.Outcome State Fault Refusal :=
  .next (dispatchResponse (codeOf .rir :: data) s)

def execRspWsc (data : List Byte) (s : State) : Host.Outcome State Fault Refusal :=
  .next (dispatchResponse (codeOf .wsc :: data) s)

def execRspWsr (data : List Byte) (s : State) : Host.Outcome State Fault Refusal :=
  .next (dispatchResponse (codeOf .wsr :: data) s)

def execRspWmc (data : List Byte) (s : State) : Host.Outcome State Fault Refusal :=
  .next (dispatchResponse (codeOf .wmc :: data) s)

def execRspWmr (data : List Byte) (s : State) : Host.Outcome State Fault Refusal :=
  .next (dispatchResponse (codeOf .wmr :: data) s)

def execRspRsid (data : List Byte) (s : State) : Host.Outcome State Fault Refusal :=
  .next (dispatchResponse (codeOf .rsid :: data) s)

def execRspRwmr (data : List Byte) (s : State) : Host.Outcome State Fault Refusal :=
  .next (dispatchResponse (codeOf .rwmr :: data) s)

/-- A PDU whose code has bit 7 set (R97, R143). -/
def execRspException (fc : Byte) (data : List Byte) (s : State) : Host.Outcome State Fault Refusal :=
  .next (dispatchResponse (fc :: data) s)

/-- A PDU whose code is none of the ten (R103, R143). -/
def execRspUnknown (fc : Byte) (data : List Byte) (s : State) : Host.Outcome State Fault Refusal :=
  .next (dispatchResponse (fc :: data) s)

end Sys2Proof.Machine
end

