-- ==== Sys2Proof/Machine/Dispatch.lean ====
section
/-! DEFINITION. One arm per constructor of Instr. -/

namespace Sys2Proof.Machine

def exec (i : Instr) (s : State) : Host.Outcome State Fault Refusal :=
  match i with
  | .reqRc addr count => Sys2Proof.Machine.execReqRc addr count s
  | .reqRdi addr count => Sys2Proof.Machine.execReqRdi addr count s
  | .reqRhr addr count => Sys2Proof.Machine.execReqRhr addr count s
  | .reqRir addr count => Sys2Proof.Machine.execReqRir addr count s
  | .reqWsc addr value => Sys2Proof.Machine.execReqWsc addr value s
  | .reqWsr addr value => Sys2Proof.Machine.execReqWsr addr value s
  | .reqWmc addr count bytes => Sys2Proof.Machine.execReqWmc addr count bytes s
  | .reqWmr addr count bytes => Sys2Proof.Machine.execReqWmr addr count bytes s
  | .reqRwmr raddr rcount waddr wcount bytes => Sys2Proof.Machine.execReqRwmr raddr rcount waddr wcount bytes s
  | .reqRsid => Sys2Proof.Machine.execReqRsid s
  | .rspRc data => Sys2Proof.Machine.execRspRc data s
  | .rspRdi data => Sys2Proof.Machine.execRspRdi data s
  | .rspRhr data => Sys2Proof.Machine.execRspRhr data s
  | .rspRir data => Sys2Proof.Machine.execRspRir data s
  | .rspWsc data => Sys2Proof.Machine.execRspWsc data s
  | .rspWsr data => Sys2Proof.Machine.execRspWsr data s
  | .rspWmc data => Sys2Proof.Machine.execRspWmc data s
  | .rspWmr data => Sys2Proof.Machine.execRspWmr data s
  | .rspRsid data => Sys2Proof.Machine.execRspRsid data s
  | .rspRwmr data => Sys2Proof.Machine.execRspRwmr data s
  | .rspException fc data => Sys2Proof.Machine.execRspException fc data s
  | .rspUnknown fc data => Sys2Proof.Machine.execRspUnknown fc data s
  | .frame address pdu crcLo crcHi => Sys2Proof.Machine.execFrame address pdu crcLo crcHi s
  | .appInit arg => Sys2Proof.Machine.execAppInit arg s
  | .appEnable => Sys2Proof.Machine.execAppEnable s
  | .appDisable => Sys2Proof.Machine.execAppDisable s
  | .appSetSlaveId id running extra => Sys2Proof.Machine.execAppSetSlaveId id running extra s
  | .appStoreRead table slave addr n => Sys2Proof.Machine.execAppStoreRead table slave addr n s
  | .poll => Sys2Proof.Machine.execPoll s
  | .portRx b => Sys2Proof.Machine.execPortRx b s
  | .portTxe => Sys2Proof.Machine.execPortTxe s
  | .portTmo => Sys2Proof.Machine.execPortTmo s
  | .appRequestReadCoils slave addr count => Sys2Proof.Machine.execAppRequestReadCoils slave addr count s
  | .appRequestReadDiscreteInputs slave addr count => Sys2Proof.Machine.execAppRequestReadDiscreteInputs slave addr count s
  | .appRequestReadHoldingRegister slave addr count => Sys2Proof.Machine.execAppRequestReadHoldingRegister slave addr count s
  | .appRequestReadInputRegister slave addr count => Sys2Proof.Machine.execAppRequestReadInputRegister slave addr count s
  | .appRequestWriteSingleCoil slave addr value => Sys2Proof.Machine.execAppRequestWriteSingleCoil slave addr value s
  | .appRequestWriteHoldingRegister slave addr value => Sys2Proof.Machine.execAppRequestWriteHoldingRegister slave addr value s
  | .appRequestWriteMultipleCoils slave addr count bits => Sys2Proof.Machine.execAppRequestWriteMultipleCoils slave addr count bits s
  | .appRequestWriteMultipleHoldingRegister slave addr count values => Sys2Proof.Machine.execAppRequestWriteMultipleHoldingRegister slave addr count values s
  | .appRequestReadWriteMultipleHoldingRegister slave raddr rcount waddr wcount values => Sys2Proof.Machine.execAppRequestReadWriteMultipleHoldingRegister slave raddr rcount waddr wcount values s

end Sys2Proof.Machine
end

