-- ==== Sys2Proof/Machine/Step.lean ====
section
/-! DEFINITION. One step: the next encoded step of the program is read and run. The block has no program counter (spec/10_state.md
R40); a program is a sequence of agent steps (R105), and which agent moves next is plain data in State (R1, R75; log 4). -/

namespace Sys2Proof.Machine

/-- The first step of the program is taken off it and executed. With no step left no agent moves and nothing changes; bytes that
encode no step stop the machine (log 1). -/
def step (s : State) : Host.Outcome State Fault Refusal :=
  if s.program = [] then .next s
  else
    match decode s.program with
    | .ok (i, rest) => exec i { s with program := rest }
    | .error e => .fault (.undecodable e)

/-- The state whose next step is the response PDU that a table word stands for (log 7). -/
def State.withFetchWord (s : State) (nbits w : Nat) : State :=
  { s with program := pduItem kindResponse (tableWordBytes nbits w) ++ s.program }

end Sys2Proof.Machine
end

