-- ==== Sys2Proof/Machine/Program.lean ====
section
/-! DEFINITION. Programs as lists of steps and the pseudo-steps of spec/30_encoding.md R106 (expansions, no new behaviour). -/

namespace Sys2Proof.Machine

/-- The bytes of a program. -/
def assemble (steps : List Instr) : List Byte := steps.flatMap encode

/-- `RXFRAME [b0, ..., bn]`. -/
def rxFrameSteps (bytes : List Byte) : List Instr := bytes.map Instr.portRx ++ [.portTmo]

/-- `TXALL` from the state that `Send` leaves: `tx_rem + 1` transmitter-empty steps. -/
def txAllSteps (s : State) : List Instr :=
  if s.txState = .transmitting then List.replicate (s.txRem + 1) .portTxe else []

/-- Runs a list of steps one after another; every meaning of this block answers a next state. -/
def runSteps : List Instr → State → Host.Outcome State Fault Refusal
  | [], s => .next s
  | i :: is, s =>
    match exec i s with
    | .next t => runSteps is t
    | .fault r => .fault r
    | .refused r => .refused r

/-- `DRAIN`: poll steps until the queue is empty, at most `fuel` of them. -/
def drain : Nat → State → Host.Outcome State Fault Refusal
  | 0, s => .next s
  | fuel + 1, s =>
    if s.evq = [] then .next s
    else
      match exec .poll s with
      | .next t => drain fuel t
      | .fault r => .fault r
      | .refused r => .refused r

end Sys2Proof.Machine
end

