-- ==== Sys2Proof/Safety.lean ====
section
/-! DEFINITION. What a safe run is, in the terms the statements use: the invariants of the state, the Port's contract
(spec/60_exceptions.md R334) and the absence of model verdicts (spec/10_state.md R52). -/

namespace Sys2Proof.Machine

/-- No model fault and no refusal so far (R52). -/
abbrev Clean (s : State) : Prop := s.faults = ⟨false, false⟩ ∧ s.refused = false

/-- Every entry of a frame buffer lies inside its 256 bytes (R60). -/
abbrev insideBuffer (m : Memory) : Prop := ∀ c ∈ m, c.1 < bufSize

/-- Every memory is in canonical form, and the frame buffers hold 256 bytes. -/
abbrev MemoryInv (s : State) : Prop :=
  Memory.wf s.rxbuf ∧ Memory.wf s.txbuf ∧ Memory.wf s.sidBuf ∧
  Memory.wf s.coils ∧ Memory.wf s.disc ∧ Memory.wf s.hold ∧ Memory.wf s.input ∧
  insideBuffer s.rxbuf ∧ insideBuffer s.txbuf

/-- Lengths and cursors stay inside the buffers (R27, R29, R30, R38, R90, R95). -/
abbrev LengthInv (s : State) : Prop :=
  s.rxPos ≤ bufSize ∧ s.txCur + s.txRem ≤ bufSize ∧ s.sndPduLen.toNat ≤ 252 ∧ s.rcvPduLen.toNat ≤ pduMax ∧
  s.sidLen ≤ s.cfg.repSlaveIdSize

/-- The handler table is empty before `Init` and what `Init` built afterwards (R22, R77). -/
abbrev TableInv (s : State) : Prop :=
  s.hfn = if s.protoState = .notInitialized then List.replicate s.cfg.funcHandlersMax HandlerSlot.empty
    else buildHandlerTable s.cfg

/-- Callbacks have an effect exactly while `Enabled`, and the timer is disarmed otherwise (R21, R34, R192). -/
abbrev LifecycleInv (s : State) : Prop :=
  (s.running = true ↔ s.protoState = .enabled) ∧ (s.running = false → s.timer = .off)

/-- The invariant that every step keeps. -/
abbrev Inv (s : State) : Prop :=
  configOk s.cfg ∧ MemoryInv s ∧ LengthInv s ∧ TableInv s ∧ LifecycleInv s ∧
  s.evq.length ≤ s.cfg.evqCap ∧ s.destAddr.toNat ≤ s.cfg.maxSlaves

/-- The Port's contract for a step (R334): while running a byte only in receive mode and a transmitter-empty callback only in transmit
mode, while stopped neither. -/
def PortContract (i : Instr) (s : State) : Prop :=
  (∀ b, i = .portRx b → s.running = true ∧ s.lineMode = .rx) ∧
  (i = .portTxe → s.running = true ∧ s.lineMode = .tx) ∧
  (∀ a pdu lo hi, i = .frame a pdu lo hi → s.running = true ∧ s.lineMode = .rx)

/-- The Port owes a transmitter-empty invocation: from `set_mode(Tx)` until the block sets `Rx`, while running (R334). -/
def TransmitterOwed (s : State) : Prop := s.running = true ∧ s.lineMode = .tx

/-- Every `Send` is made with the send machine idle (R200's second assumption). -/
def SendFromIdle (i : Instr) (s : State) : Prop :=
  i = .poll → s.protoState = .enabled → s.evq.head? = some .frameSent → s.txState = .idle

/-- The purpose the timer is armed for while a transaction waits in `Done` (R196). -/
def waitPurpose (s : State) : TimerPurpose := if s.bcast then .convertDelay else .respondTimeout

/-- R200 items 1 to 3, and that the timer is off while both machines are idle (which item 2 rests on). -/
abbrev FramingInv (s : State) : Prop :=
  s.running = true →
    (s.txState = .done → s.rxState = .idle ∧ s.timer = .armed (waitPurpose s)) ∧
    (s.txState = .transmitting → s.rxState = .idle ∧ s.lineMode = .tx ∧ s.timer = .off) ∧
    (s.rxState ≠ .idle → s.timer = .armed .t35) ∧
    (s.rxState = .idle → s.txState = .idle → s.timer = .off)

/-- The shadow register file (R39). -/
def store (s : State) : Memory × Memory × Memory × Memory := (s.coils, s.disc, s.hold, s.input)

end Sys2Proof.Machine
end

