-- ==== Sys2Proof/Certificates/Slice0/Obligations.lean ====
section
/-! DEFINITION. The statements for the provers, with the predicates they share. A statement about a step says what exec answers and
gives the whole next state: either as a record or through `t = { s with … }`, which says that nothing else changes. -/

namespace Sys2Proof.Claims

open Sys2Proof.Machine

/-! ### Shared predicates -/

/-- The queue after `post(ev)` on a queue q (R330). -/
def queued (cfg : Config) (q : List Event) (ev : Event) : List Event := if q.length < cfg.evqCap then q ++ [ev] else q

/-- The fault marks after a `post` on a queue q (R330). -/
def marked (cfg : Config) (q : List Event) (f : FaultMarks) : FaultMarks :=
  if q.length < cfg.evqCap then f else { f with eventQueueOverflow := true }

/-- The Error entry (R314) on a state whose queue is q: the cause, the `Error` event, nothing else. -/
def failed (v : ErrorEvent) (q : List Event) (s : State) : State :=
  { s with errEvent := some v, evq := queued s.cfg q .error, faults := marked s.cfg q s.faults }

/-- An API call that returns a code and changes nothing else. -/
def answered (e : LocalError) (s : State) : State := { s with results := s.results ++ [.code e] }

/-- The slave is configured and `[a, a+n)` lies inside the table's window (R280, R281), in natural numbers. -/
def InWindow (cfg : Config) (t : Table) (slave : Byte) (a : Half) (n : Nat) : Prop :=
  1 ≤ slave.toNat ∧ slave.toNat ≤ cfg.maxSlaves ∧
  (windowOf cfg t).base ≤ a.toNat ∧ a.toNat + n ≤ (windowOf cfg t).base + (windowOf cfg t).count

/-- The table index of a wire address (R101). -/
def indexOf (cfg : Config) (t : Table) (a : Half) : Nat := a.toNat - (windowOf cfg t).base

/-- From m to m', exactly bits idx .. idx+n-1 of one slave's table change, to the bits of the payload, LSB first (R68, R284). A
memory's images are 131072 bytes each, so the bits below 1048576 of every slave are the whole memory. -/
def BitsWritten (m m' : Memory) (slave idx n : Nat) (bytes : List Byte) : Prop :=
  ∀ sl i, i < 1048576 →
    bitAt m' sl i =
      if sl = slave ∧ idx ≤ i ∧ i < idx + n then (bytes.getD ((i - idx) / 8) 0#8).getLsbD ((i - idx) % 8) else bitAt m sl i

/-- From m to m', exactly words idx .. idx+n-1 of one slave's table change, to the big-endian words of the payload (R67, R286). -/
def WordsWritten (m m' : Memory) (slave idx n : Nat) (bytes : List Byte) : Prop :=
  ∀ sl i, i < 65536 →
    wordAt m' sl i =
      if sl = slave ∧ idx ≤ i ∧ i < idx + n then be16 (bytes.getD (2 * (i - idx)) 0#8) (bytes.getD (2 * (i - idx) + 1) 0#8)
      else wordAt m sl i

/-- `BitsWritten` for every configured slave at once (R144). -/
def BitsWrittenToAll (m m' : Memory) (maxSlaves idx n : Nat) (bytes : List Byte) : Prop :=
  ∀ sl i, i < 1048576 →
    bitAt m' sl i =
      if (1 ≤ sl ∧ sl ≤ maxSlaves) ∧ idx ≤ i ∧ i < idx + n then (bytes.getD ((i - idx) / 8) 0#8).getLsbD ((i - idx) % 8)
      else bitAt m sl i

/-- `WordsWritten` for every configured slave at once (R144). -/
def WordsWrittenToAll (m m' : Memory) (maxSlaves idx n : Nat) (bytes : List Byte) : Prop :=
  ∀ sl i, i < 65536 →
    wordAt m' sl i =
      if (1 ≤ sl ∧ sl ≤ maxSlaves) ∧ idx ≤ i ∧ i < idx + n then
        be16 (bytes.getD (2 * (i - idx)) 0#8) (bytes.getD (2 * (i - idx) + 1) 0#8)
      else wordAt m sl i

/-- A request was submitted for a slave (R220): token, address, PDU in `txbuf[1..1+L)` and nowhere else, length, `FrameSent`. -/
def Submitted (slave : Byte) (pdu : List Byte) (s t : State) : Prop :=
  t.token = .held ∧ t.destAddr = slave ∧ t.sndPduLen.toNat = pdu.length ∧
  (∀ k (h : k < pdu.length), Memory.read t.txbuf (1 + k) = pdu[k]) ∧
  (∀ i, i = 0 ∨ pdu.length < i → Memory.read t.txbuf i = Memory.read s.txbuf i) ∧
  t = { s with
    token := t.token, destAddr := t.destAddr, sndPduLen := t.sndPduLen, txbuf := t.txbuf
    evq := queued s.cfg s.evq .frameSent, faults := marked s.cfg s.evq s.faults
    results := s.results ++ [.code .noError] }

/-- What the builder of h answers (R220, R231): refused when its code is not enabled, then the slave and the arguments, then the
token, then the submission. -/
def BuilderAnswers (h : HandlerId) (slave : Byte) (argsOk : Prop) (pdu : List Byte) (i : Instr) (s : State) : Prop :=
  (h ∉ s.cfg.enabledFcs → exec i s = .next { s with refused := true }) ∧
  (h ∈ s.cfg.enabledFcs → s.cfg.maxSlaves < slave.toNat ∨ ¬ argsOk → exec i s = .next (answered .invalidArgument s)) ∧
  (h ∈ s.cfg.enabledFcs → slave.toNat ≤ s.cfg.maxSlaves → argsOk → s.token = .held →
    exec i s = .next (answered .busy s)) ∧
  (h ∈ s.cfg.enabledFcs → slave.toNat ≤ s.cfg.maxSlaves → argsOk → s.token = .free →
    ∃ t, exec i s = .next t ∧ Submitted slave pdu s t)

def InRange (n : Half) (bound : Nat) : Prop := 1 ≤ n.toNat ∧ n.toNat ≤ bound

/-- The request PDU layouts of R95, with the byte counts of R100. -/
def shortPdu (code : Byte) (a b : Half) : List Byte := [code, hi8 a, lo8 a, hi8 b, lo8 b]

def coilsPdu (addr count : Half) (bits : List Byte) : List Byte :=
  [0x0F#8, hi8 addr, lo8 addr, hi8 count, lo8 count, BitVec.ofNat 8 ((count.toNat + 7) / 8)] ++
    bits.take ((count.toNat + 7) / 8)

def registersPdu (addr count : Half) (values : List Half) : List Byte :=
  [0x10#8, hi8 addr, lo8 addr, hi8 count, lo8 count, BitVec.ofNat 8 (2 * count.toNat)] ++ beBytes (values.take count.toNat)

def readWritePdu (raddr rcount waddr wcount : Half) (values : List Half) : List Byte :=
  [0x17#8, hi8 raddr, lo8 raddr, hi8 rcount, lo8 rcount, hi8 waddr, lo8 waddr, hi8 wcount, lo8 wcount,
    BitVec.ofNat 8 (2 * wcount.toNat)] ++ beBytes (values.take wcount.toNat)

/-- A byte count of n and n bytes of data: what the builders write after the fields of a request (R95, R100). -/
def Counted (bytes : List Byte) (n : Nat) : Prop := bytes.length = n + 1 ∧ (bytes.getD 0 0#8).toNat = n

/-- From s to t a response PDU was put into the receive buffer from index 1, with its length (R62, R24). -/
def HoldsResponse (pdu : List Byte) (s t : State) : Prop :=
  t.rcvPduLen.toNat = pdu.length ∧
  (∀ k (h : k < pdu.length), Memory.read t.rxbuf (1 + k) = pdu[k]) ∧
  (∀ i, i = 0 ∨ pdu.length < i → Memory.read t.rxbuf i = Memory.read s.rxbuf i)

/-- The dispatcher is enabled, no broadcast is being concluded, the parameters pass the checks of R3. -/
def UnicastReady (s : State) : Prop := s.protoState = .enabled ∧ s.bcast = false ∧ configOk s.cfg

/-- The successful end of a response row: the table memory m', the token released, the response in the buffer, nothing else. -/
def Concluded (t : Table) (pdu : List Byte) (m' : Memory) (s u : State) : Prop :=
  HoldsResponse pdu s u ∧ tableOf t u = m' ∧
  u = { withTable t m' s with token := .free, rxbuf := u.rxbuf, rcvPduLen := u.rcvPduLen, draws := s.draws + 1 }

/-- The Execute step of a broadcast is due: the request in the send buffer has code h and its handler is in the table. -/
def BroadcastDue (h : HandlerId) (rest : List Event) (s : State) : Prop :=
  s.protoState = .enabled ∧ s.bcast = true ∧ configOk s.cfg ∧ s.evq = .execute :: rest ∧
  Memory.read s.txbuf 1 = codeOf h ∧ lookup s.hfn (codeOf h) = some h

/-- The successful end of a broadcast's Execute step. -/
def BroadcastConcluded (t : Table) (m' : Memory) (rest : List Event) (s : State) : State :=
  { withTable t m' s with
    token := .free, evq := rest, destAddr := BitVec.ofNat 8 s.cfg.maxSlaves, draws := s.draws + 1 }

/-- The end of a broadcast's Execute step whose request every slave refuses: the Error entry, the token as it was. -/
def BroadcastFailed (rest : List Event) (s : State) : State :=
  { failed .executeFunctionError rest s with destAddr := BitVec.ofNat 8 s.cfg.maxSlaves, draws := s.draws + 1 }

/-- The response rows of the opcode table with the function code and the bytes after it. -/
def ResponseRow (i : Instr) (fc : Byte) (data : List Byte) : Prop :=
  (i = .rspRc data ∧ fc = 0x01#8) ∨ (i = .rspRdi data ∧ fc = 0x02#8) ∨ (i = .rspRhr data ∧ fc = 0x03#8) ∨
  (i = .rspRir data ∧ fc = 0x04#8) ∨ (i = .rspWsc data ∧ fc = 0x05#8) ∨ (i = .rspWsr data ∧ fc = 0x06#8) ∨
  (i = .rspWmc data ∧ fc = 0x0F#8) ∨ (i = .rspWmr data ∧ fc = 0x10#8) ∨ (i = .rspRsid data ∧ fc = 0x11#8) ∨
  (i = .rspRwmr data ∧ fc = 0x17#8) ∨ i = .rspException fc data ∨ i = .rspUnknown fc data

/-- The rows that submit a request: the nine builders, and the request PDUs that are read as their calls (log 5). -/
def isRequest : Instr → Bool
  | .reqRc _ _ | .reqRdi _ _ | .reqRhr _ _ | .reqRir _ _ | .reqWsc _ _ | .reqWsr _ _ | .reqWmc _ _ _ | .reqWmr _ _ _
  | .reqRwmr _ _ _ _ _ => true
  | .appRequestReadCoils _ _ _ | .appRequestReadDiscreteInputs _ _ _ | .appRequestReadHoldingRegister _ _ _
  | .appRequestReadInputRegister _ _ _ | .appRequestWriteSingleCoil _ _ _ | .appRequestWriteHoldingRegister _ _ _
  | .appRequestWriteMultipleCoils _ _ _ _ | .appRequestWriteMultipleHoldingRegister _ _ _ _
  | .appRequestReadWriteMultipleHoldingRegister _ _ _ _ _ _ => true
  | _ => false

def IsInit (i : Instr) : Prop := ∃ a, i = .appInit a

/-- A byte or a frame on the receive line. -/
def IsReceive (i : Instr) : Prop := (∃ b, i = .portRx b) ∨ ∃ a pdu lo hi, i = .frame a pdu lo hi

/-- An Execute step of an enabled dispatcher: POLL on `Execute`, or a response row (log 5). -/
def IsExecute (i : Instr) (s : State) : Prop :=
  s.protoState = .enabled ∧ ((i = .poll ∧ s.evq.head? = some .execute) ∨ ∃ fc data, ResponseRow i fc data)

/-- From s to t the frame of an address and the len bytes of `txbuf[1..]` was built in the send buffer and started (R193). -/
def FrameStarted (len : Nat) (q : List Event) (s t : State) : Prop :=
  (∀ k (h : k < (frameBytes s.destAddr (txSlice s 1 len)).length),
    Memory.read t.txbuf k = (frameBytes s.destAddr (txSlice s 1 len))[k]) ∧
  (∀ i, len + 3 ≤ i → Memory.read t.txbuf i = Memory.read s.txbuf i) ∧
  t = { s with
    evq := q, txbuf := t.txbuf, txCur := 0, txRem := len + 3, txState := .transmitting, lineMode := .tx }

end Sys2Proof.Claims

open Sys2Proof Sys2Proof.Machine Sys2Proof.Claims

/-! ### Encodings -/

/-- Decoding the encoding of a well-formed instruction gives the instruction and the bytes that follow it. The PDUs and frames
inside are the spec's (R90, R95 to R97), the step kinds are the model's (log 1). -/
def Obligations.DecodeReadsBackEncode : Prop :=
  ∀ (i : Instr) (rest : List Byte), i.wellFormed = true → decode (encode i ++ rest) = .ok (i, rest)

/-- What decodes is well-formed and is the encoding of what it decodes to: every step has one encoding (log 1). -/
def Obligations.EncodeReadsBackDecode : Prop :=
  ∀ (bs rest : List Byte) (i : Instr), decode bs = .ok (i, rest) → i.wellFormed = true ∧ encode i ++ rest = bs

/-- A step takes the first step off the program and executes it; an empty program changes nothing; other bytes stop the machine
(R105; the program bytes are the model's, log 1 and log 4). -/
def Obligations.StepRunsDecodedInstruction : Prop :=
  ∀ s : State,
    (∀ i rest, decode s.program = .ok (i, rest) → i.wellFormed = true → step s = exec i { s with program := rest }) ∧
    (s.program = [] → step s = .next s) ∧
    (∀ e, decode s.program = .error e → s.program ≠ [] → step s = .fault (.undecodable e))

/-- Words written out from R90, R94, R95, R96 and R97 decode to the instructions they stand for: request PDUs (with and without data,
and one whose count is out of range), a response, an exception response, a code outside the ten, and the frame of R95's example. -/
def Obligations.SpecWordsDecode : Prop :=
  decodeRequestPdu [0x03#8, 0x00#8, 0x64#8, 0x00#8, 0x02#8] = .ok (.reqRhr 100#16 2#16) ∧
  decodeRequestPdu [0x05#8, 0x00#8, 0xAC#8, 0xFF#8, 0x00#8] = .ok (.reqWsc 0xAC#16 0xFF00#16) ∧
  decodeRequestPdu [0x0F#8, 0x00#8, 0x13#8, 0x00#8, 0x0A#8, 0x02#8, 0xCD#8, 0x01#8] =
    .ok (.reqWmc 0x13#16 10#16 [0x02#8, 0xCD#8, 0x01#8]) ∧
  decodeRequestPdu [0x10#8, 0x00#8, 0x01#8, 0x00#8, 0x00#8, 0x00#8] = .ok (.reqWmr 1#16 0#16 [0x00#8]) ∧
  decodeResponsePdu [0x03#8, 0x04#8, 0x00#8, 0x0A#8, 0x00#8, 0x0B#8] =
    .ok (.rspRhr [0x04#8, 0x00#8, 0x0A#8, 0x00#8, 0x0B#8]) ∧
  decodeResponsePdu [0x83#8, 0x02#8] = .ok (.rspException 0x83#8 [0x02#8]) ∧
  decodeResponsePdu [0x07#8, 0x00#8] = .ok (.rspUnknown 0x07#8 [0x00#8]) ∧
  decodeFrame [0x11#8, 0x03#8, 0x00#8, 0x00#8, 0x00#8, 0x02#8, 0xC6#8, 0x9B#8] =
    .ok (.frame 0x11#8 [0x03#8, 0x00#8, 0x00#8, 0x00#8, 0x02#8] 0xC6#8 0x9B#8) ∧
  wireOrder 0x11#8 [0x03#8, 0x00#8, 0x00#8, 0x00#8, 0x02#8] 0xC6#8 0x9B#8 =
    frameBytes 0x11#8 [0x03#8, 0x00#8, 0x00#8, 0x00#8, 0x02#8]

/-- Which row of the table a response PDU is (R93, R97, R103): bit 7 first, then the ten codes, else unknown. -/
def Obligations.FunctionCodeSelectsRow : Prop :=
  ∀ (fc : Byte) (data : List Byte), data.length ≤ 252 →
    ∃ i, decodeResponsePdu (fc :: data) = .ok i ∧ i.wellFormed = true ∧ ResponseRow i fc data ∧
      (fc.getLsbD 7 = true → i = .rspException fc data) ∧
      (fc.getLsbD 7 = false → (∀ h : HandlerId, codeOf h ≠ fc) → i = .rspUnknown fc data) ∧
      (fc.getLsbD 7 = false → (∃ h : HandlerId, codeOf h = fc) → i ≠ .rspUnknown fc data)

/-- The request fields read back from the send buffer are the arguments, for every request a builder admits (R102). -/
def Obligations.RequestFieldsReadBack : Prop :=
  ∀ (s : State) (slave : Byte) (a n wa wn : Half) (bits : List Byte) (values : List Half),
    s.token = .free →
    (∀ i, i ∈ [Instr.appRequestReadCoils slave a n, .appRequestReadDiscreteInputs slave a n,
          .appRequestReadHoldingRegister slave a n, .appRequestReadInputRegister slave a n,
          .appRequestWriteSingleCoil slave a n, .appRequestWriteHoldingRegister slave a n] →
      ∀ t, exec i s = .next t → t.token = .held → reqAddr t = a ∧ reqCount t = n) ∧
    (∀ t, exec (.appRequestWriteMultipleCoils slave a n bits) s = .next t → t.token = .held →
      reqAddr t = a ∧ reqCount t = n ∧ (reqBc t).toNat = (n.toNat + 7) / 8 ∧
      reqData t ((n.toNat + 7) / 8) = bits.take ((n.toNat + 7) / 8)) ∧
    (∀ t, exec (.appRequestWriteMultipleHoldingRegister slave a n values) s = .next t → t.token = .held →
      reqAddr t = a ∧ reqCount t = n ∧ (reqBc t).toNat = 2 * n.toNat ∧
      reqData t (2 * n.toNat) = beBytes (values.take n.toNat)) ∧
    (∀ t, exec (.appRequestReadWriteMultipleHoldingRegister slave a n wa wn values) s = .next t → t.token = .held →
      reqAddr t = a ∧ reqCount t = n ∧ rwWaddr t = wa ∧ rwWcount t = wn ∧ (rwWbc t).toNat = 2 * wn.toNat ∧
      rwWdata t (2 * wn.toNat) = beBytes (values.take wn.toNat))

/-! ### CRC engine -/

/-- Appending the CRC low byte first and computing it again gives 0 (R303). -/
def Obligations.CrcOverAppendedIsZero : Prop :=
  ∀ b : List Byte, crc16 (b ++ [lo8 (crc16 b), hi8 (crc16 b)]) = 0x0000#16

/-- The table method computes the same value for every input, and its first entries are those of R301. -/
def Obligations.CrcTableMethodAgrees : Prop :=
  (∀ b : List Byte, crc16Table b = crc16 b) ∧
  crcTable 0x00#8 = 0x0000#16 ∧ crcTable 0x01#8 = 0xC0C1#16 ∧ crcTable 0x02#8 = 0xC181#16 ∧
  crcTable 0x80#8 = 0xA001#16 ∧ crcTable 0xFF#8 = 0x4040#16

/-- The reference values of R304 (computed by the spec from R300), with the two bytes each appends, low byte first. -/
def Obligations.CrcReferenceValues : Prop :=
  ∀ r ∈ [(([] : List Byte), 0xFFFF#16, 0xFF#8, 0xFF#8),
      ([0x00#8], 0x40BF#16, 0xBF#8, 0x40#8),
      ([0xFF#8], 0x00FF#16, 0xFF#8, 0x00#8),
      ([0x31#8, 0x32#8, 0x33#8, 0x34#8, 0x35#8, 0x36#8, 0x37#8, 0x38#8, 0x39#8], 0x4B37#16, 0x37#8, 0x4B#8),
      ([0x11#8, 0x03#8, 0x00#8, 0x00#8, 0x00#8, 0x02#8], 0x9BC6#16, 0xC6#8, 0x9B#8),
      ([0x01#8, 0x03#8, 0x00#8, 0x64#8, 0x00#8, 0x02#8], 0xD485#16, 0x85#8, 0xD4#8),
      ([0x01#8, 0x03#8, 0x04#8, 0x00#8, 0x0A#8, 0x00#8, 0x0B#8], 0xF69B#16, 0x9B#8, 0xF6#8),
      ([0x01#8, 0x05#8, 0x00#8, 0xAC#8, 0xFF#8, 0x00#8], 0x1B4C#16, 0x4C#8, 0x1B#8),
      ([0x00#8, 0x05#8, 0x00#8, 0x05#8, 0xFF#8, 0x00#8], 0xEA9D#16, 0x9D#8, 0xEA#8)],
    crc16 r.1 = r.2.1 ∧ crcTail r.1 = [r.2.2.1, r.2.2.2]

/-- Changing one byte of a valid frame makes the residue non-zero (R303's corner case). -/
def Obligations.OneCorruptedByteIsDetected : Prop :=
  ∀ (before after : List Byte) (b b' : Byte), crc16 (before ++ b :: after) = 0x0000#16 → b ≠ b' →
    crc16 (before ++ b' :: after) ≠ 0x0000#16

/-! ### Memory and register store -/

/-- A write keeps the canonical form, is read back, and leaves every other address alone; two canonical memories that read alike
are the same list. -/
def Obligations.CanonicalMemoryIsItsReads : Prop :=
  (∀ (m : Memory) (a : Nat) (v : Byte), Memory.wf m → Memory.wf (Memory.write m a v) ∧
    ∀ b, Memory.read (Memory.write m a v) b = if b = a then v else Memory.read m b) ∧
  (∀ m m' : Memory, Memory.wf m → Memory.wf m' → (∀ a, Memory.read m a = Memory.read m' a) → m = m')

/-- `SetBits` makes table bits off .. off+n-1 the bits 0 .. n-1 of v and changes no other bit of any slave (R282). -/
def Obligations.SetBitsWritesItsBits : Prop :=
  ∀ (m : Memory) (slave off n : Nat) (v : Byte), 1 ≤ n → n ≤ 8 → off + n ≤ 65536 →
    BitsWritten m (setBits m slave off n v) slave off n [v]

/-- `GetBits` gives n table bits, zero above them (R283); the packed images of R289 (which the spec marks as derived) hold the
points of a table in order. -/
def Obligations.PackedReadsGiveThePoints : Prop :=
  (∀ (m : Memory) (slave off n : Nat) (k : Nat), 1 ≤ n → n ≤ 8 →
    (getBits m slave off n).getLsbD k = (decide (k < n) && bitAt m slave (off + k))) ∧
  (∀ (m : Memory) (slave i n : Nat),
    (packedBits m slave i n).length = (n + 7) / 8 ∧
    ∀ q k, q < (n + 7) / 8 → k < 8 →
      ((packedBits m slave i n).getD q 0#8).getLsbD k = (decide (8 * q + k < n) && bitAt m slave (i + 8 * q + k))) ∧
  (∀ (m : Memory) (slave i n : Nat),
    (packedWords m slave i n).length = 2 * n ∧
    ∀ j, j < n →
      (packedWords m slave i n).getD (2 * j) 0#8 = hi8 (wordAt m slave (i + j)) ∧
      (packedWords m slave i n).getD (2 * j + 1) 0#8 = lo8 (wordAt m slave (i + j)))

/-- `StoreWrite` on the two bit tables (R284, R285): outside the window or for a slave that is not configured nothing is written
(R280, R281); inside it exactly the n bits are. That coil i+j becomes bit j mod 8 of bytes[j div 8] is what R284 marks as derived
(from R282). -/
def Obligations.BitStoreWriteEffect : Prop :=
  ∀ (s : State) (t : Table) (slave : Byte) (a : Half) (n : Nat) (bytes : List Byte),
    configOk s.cfg → (t = .coils ∨ t = .disc) → bytes.length = (n + 7) / 8 →
    (¬ InWindow s.cfg t slave a n → storeWrite t slave (a + 1#16) n bytes s = (s, .noSuchRegister)) ∧
    (InWindow s.cfg t slave a n →
      ∃ m, storeWrite t slave (a + 1#16) n bytes s = (withTable t m s, .noError) ∧
        BitsWritten (tableOf t s) m slave.toNat (indexOf s.cfg t a) n bytes)

/-- `StoreWrite` on the two word tables (R286, R287). -/
def Obligations.WordStoreWriteEffect : Prop :=
  ∀ (s : State) (t : Table) (slave : Byte) (a : Half) (n : Nat) (bytes : List Byte),
    configOk s.cfg → (t = .hold ∨ t = .input) → bytes.length = 2 * n →
    (¬ InWindow s.cfg t slave a n → storeWrite t slave (a + 1#16) n bytes s = (s, .noSuchRegister)) ∧
    (InWindow s.cfg t slave a n →
      ∃ m, storeWrite t slave (a + 1#16) n bytes s = (withTable t m s, .noError) ∧
        WordsWritten (tableOf t s) m slave.toNat (indexOf s.cfg t a) n bytes)

/-- `StoreRead` (R288): the n points from the wire address, or `NoSuchRegister`; nothing else changes. -/
def Obligations.StoreReadAnswers : Prop :=
  ∀ (s : State) (t : Table) (slave : Byte) (a : Half) (n : Nat),
    (¬ InWindow s.cfg t slave a n →
      exec (.appStoreRead t slave a n) s = .next (answered .noSuchRegister s)) ∧
    (InWindow s.cfg t slave a n → t = .coils ∨ t = .disc →
      ∃ vs : List Bool, vs.length = n ∧
        (∀ j, j < n → vs.getD j false = bitAt (tableOf t s) slave.toNat (indexOf s.cfg t a + j)) ∧
        exec (.appStoreRead t slave a n) s = .next { s with results := s.results ++ [.bits vs] }) ∧
    (InWindow s.cfg t slave a n → t = .hold ∨ t = .input →
      ∃ vs : List Half, vs.length = n ∧
        (∀ j, j < n → vs.getD j 0#16 = wordAt (tableOf t s) slave.toNat (indexOf s.cfg t a + j)) ∧
        exec (.appStoreRead t slave a n) s = .next { s with results := s.results ++ [.words vs] })

/-! ### Process start and lifecycle -/

/-- The process-start column of 10_state.md section 9, for every launch (R350); a launch whose parameters fail a constraint of R3
is refused, and no other. The model's own in it: the store contents and the last two fields (log 3, log 4, log 8); that the set of
enabled codes is a list in ascending order, so that a list of another order is refused although R3 admits every set (log 14); that
`TRANSPORT` is an operand of `Init` and not checked at the launch (log 13). -/
def Obligations.ProcessStartState : Prop :=
  ∀ (cfg : Config) (c d h r : Memory),
    (¬ configOk cfg ↔ launch cfg c d h r = .refused .configurationRefused) ∧
    (configOk cfg →
      ∃ s, launch cfg c d h r = .next s ∧
        s.protoState = .notInitialized ∧ s.hfn = List.replicate cfg.funcHandlersMax ⟨0#8, none⟩ ∧ s.errEvent = none ∧
        s.rcvPduLen = 0#16 ∧ s.rxState = .init ∧ s.txState = .idle ∧ (∀ i, Memory.read s.rxbuf i = 0#8) ∧ s.rxPos = 0 ∧
        (∀ i, Memory.read s.txbuf i = 0#8) ∧ s.txCur = 0 ∧ s.txRem = 0 ∧ s.sndPduLen = 0#16 ∧ s.destAddr = 0#8 ∧
        s.bcast = false ∧ s.lineMode = .rx ∧ s.running = false ∧ s.timer = .off ∧ s.evq = [] ∧ s.token = .free ∧
        (∀ i, Memory.read s.sidBuf i = 0#8) ∧ s.sidLen = 0 ∧ s.faults = ⟨false, false⟩ ∧ s.refused = false ∧ s.wire = [] ∧
        s.results = [] ∧ s.errorsRead = [] ∧ s.cfg = cfg ∧ store s = (c, d, h, r))

/-- `Init` (R130, R190, R335): each check in its order and what each outcome writes. -/
def Obligations.InitAnswers : Prop :=
  ∀ (s : State) (arg : InitArg),
    (s.protoState ≠ .notInitialized → exec (.appInit arg) s = .next { s with refused := true }) ∧
    (s.protoState = .notInitialized → arg = .null → exec (.appInit arg) s = .next (answered .invalidArgument s)) ∧
    (s.protoState = .notInitialized → arg = .record .ascii ∨ arg = .record .tcp →
      exec (.appInit arg) s = .next { s with refused := true }) ∧
    (s.protoState = .notInitialized → arg = .record .rtu →
      (s.cfg.serialInitOk = false → exec (.appInit arg) s = .next (answered .portError s)) ∧
      (s.cfg.serialInitOk = true → s.cfg.timerInitOk = false →
        exec (.appInit arg) s = .next (answered .portError { s with timer := .off })) ∧
      (s.cfg.serialInitOk = true → s.cfg.timerInitOk = true → s.cfg.evqInitOk = false →
        exec (.appInit arg) s = .next (answered .portError { s with
          rxState := .init, txState := .idle, running := false, timer := .off, lineMode := .rx, evq := [] })) ∧
      (s.cfg.serialInitOk = true → s.cfg.timerInitOk = true → s.cfg.evqInitOk = true →
        exec (.appInit arg) s = .next (answered .noError { s with
          rxState := .init, txState := .idle, running := false, timer := .off, lineMode := .rx, evq := []
          token := .free, hfn := buildHandlerTable s.cfg, protoState := .disabled })))

/-- The table that `Init` builds (R133) and what a lookup in it gives (R134): the handler of every enabled code, none for every
other, none for the sentinel 0. -/
def Obligations.HandlerTableLookup : Prop :=
  ∀ cfg : Config, configOk cfg →
    (buildHandlerTable cfg).length = cfg.funcHandlersMax ∧
    (∀ h, h ∈ cfg.enabledFcs → lookup (buildHandlerTable cfg) (codeOf h) = some h) ∧
    (∀ fc : Byte, (∀ h, h ∈ cfg.enabledFcs → codeOf h ≠ fc) → lookup (buildHandlerTable cfg) fc = none) ∧
    (∀ table : List HandlerSlot, lookup table 0x00#8 = none)

/-- `Enable` (R131, R191); `Disable` (R132, R192), idempotent, which neither releases the token nor flushes the queue. -/
def Obligations.EnableAndDisableAnswer : Prop :=
  ∀ s : State,
    (s.protoState ≠ .disabled → exec .appEnable s = .next (answered .illegalState s)) ∧
    (s.protoState = .disabled →
      exec .appEnable s = .next (answered .noError { s with
        rxState := .init, txState := .idle, lineMode := .rx, running := true, timer := .armed .t35
        protoState := .enabled })) ∧
    (s.protoState = .notInitialized → exec .appDisable s = .next (answered .illegalState s)) ∧
    (s.protoState = .disabled → exec .appDisable s = .next (answered .noError s)) ∧
    (s.protoState = .enabled →
      exec .appDisable s =
        .next (answered .noError { s with running := false, timer := .off, protoState := .disabled }))

/-- `SetSlaveId` (R230). -/
def Obligations.SetSlaveIdAnswers : Prop :=
  ∀ (s : State) (id : Byte) (running : Bool) (extra : List Byte),
    (s.cfg.repSlaveIdSize < extra.length + 2 →
      exec (.appSetSlaveId id running extra) s = .next (answered .insufficientResources s)) ∧
    (extra.length + 2 ≤ s.cfg.repSlaveIdSize →
      ∃ t, exec (.appSetSlaveId id running extra) s = .next t ∧
        Memory.read t.sidBuf 0 = id ∧ Memory.read t.sidBuf 1 = (if running then 0xFF#8 else 0x00#8) ∧
        (∀ k (h : k < extra.length), Memory.read t.sidBuf (2 + k) = extra[k]) ∧
        (∀ i, 2 + extra.length ≤ i → Memory.read t.sidBuf i = Memory.read s.sidBuf i) ∧
        t = { s with
          sidBuf := t.sidBuf, sidLen := extra.length + 2, results := s.results ++ [.code .noError] })

/-! ### Request builders -/

/-- The four read builders (R220 to R224, R231). -/
def Obligations.ReadRequestsBuild : Prop :=
  ∀ (s : State) (slave : Byte) (addr count : Half),
    BuilderAnswers .rc slave (InRange count 0x07D0) (shortPdu 0x01#8 addr count) (.appRequestReadCoils slave addr count) s ∧
    BuilderAnswers .rdi slave (InRange count 0x07D0) (shortPdu 0x02#8 addr count)
      (.appRequestReadDiscreteInputs slave addr count) s ∧
    BuilderAnswers .rhr slave (InRange count 0x007D) (shortPdu 0x03#8 addr count)
      (.appRequestReadHoldingRegister slave addr count) s ∧
    BuilderAnswers .rir slave (InRange count 0x007D) (shortPdu 0x04#8 addr count)
      (.appRequestReadInputRegister slave addr count) s

/-- The two single-write builders (R225, R226). -/
def Obligations.SingleWriteRequestsBuild : Prop :=
  ∀ (s : State) (slave : Byte) (addr value : Half),
    BuilderAnswers .wsc slave (value = 0xFF00#16 ∨ value = 0x0000#16) (shortPdu 0x05#8 addr value)
      (.appRequestWriteSingleCoil slave addr value) s ∧
    BuilderAnswers .wsr slave True (shortPdu 0x06#8 addr value) (.appRequestWriteHoldingRegister slave addr value) s

/-- The two multiple-write builders (R227, R228). -/
def Obligations.MultipleWriteRequestsBuild : Prop :=
  ∀ (s : State) (slave : Byte) (addr count : Half) (bits : List Byte) (values : List Half),
    BuilderAnswers .wmc slave (InRange count 0x07B0 ∧ (count.toNat + 7) / 8 ≤ bits.length) (coilsPdu addr count bits)
      (.appRequestWriteMultipleCoils slave addr count bits) s ∧
    BuilderAnswers .wmr slave (InRange count 0x0078 ∧ count.toNat ≤ values.length) (registersPdu addr count values)
      (.appRequestWriteMultipleHoldingRegister slave addr count values) s

/-- The read/write builder (R229). -/
def Obligations.ReadWriteRequestBuilds : Prop :=
  ∀ (s : State) (slave : Byte) (raddr rcount waddr wcount : Half) (values : List Half),
    BuilderAnswers .rwmr slave (InRange rcount 0x007D ∧ InRange wcount 0x0078 ∧ wcount.toNat ≤ values.length)
      (readWritePdu raddr rcount waddr wcount values)
      (.appRequestReadWriteMultipleHoldingRegister slave raddr rcount waddr wcount values) s

/-- The request PDU rows, for every value of their fields: each is submitted as it stands when it is one that its builder writes, and
else answered as the builder answers arguments outside their bounds, for the slave that the address register holds (the model's
choices, log 5). The request of 0x11, which no builder writes (R95), is refused (log 5). -/
def Obligations.RequestPdusSubmit : Prop :=
  ∀ (s : State) (a n wa wn : Half) (bytes : List Byte),
    BuilderAnswers .rc s.destAddr (InRange n 0x07D0) (shortPdu 0x01#8 a n) (.reqRc a n) s ∧
    BuilderAnswers .rdi s.destAddr (InRange n 0x07D0) (shortPdu 0x02#8 a n) (.reqRdi a n) s ∧
    BuilderAnswers .rhr s.destAddr (InRange n 0x007D) (shortPdu 0x03#8 a n) (.reqRhr a n) s ∧
    BuilderAnswers .rir s.destAddr (InRange n 0x007D) (shortPdu 0x04#8 a n) (.reqRir a n) s ∧
    BuilderAnswers .wsc s.destAddr (n = 0xFF00#16 ∨ n = 0x0000#16) (shortPdu 0x05#8 a n) (.reqWsc a n) s ∧
    BuilderAnswers .wsr s.destAddr True (shortPdu 0x06#8 a n) (.reqWsr a n) s ∧
    BuilderAnswers .wmc s.destAddr (InRange n 0x07B0 ∧ Counted bytes ((n.toNat + 7) / 8))
      ([0x0F#8, hi8 a, lo8 a, hi8 n, lo8 n] ++ bytes) (.reqWmc a n bytes) s ∧
    BuilderAnswers .wmr s.destAddr (InRange n 0x0078 ∧ Counted bytes (2 * n.toNat))
      ([0x10#8, hi8 a, lo8 a, hi8 n, lo8 n] ++ bytes) (.reqWmr a n bytes) s ∧
    BuilderAnswers .rwmr s.destAddr (InRange n 0x007D ∧ InRange wn 0x0078 ∧ Counted bytes (2 * wn.toNat))
      ([0x17#8, hi8 a, lo8 a, hi8 n, lo8 n, hi8 wa, lo8 wa, hi8 wn, lo8 wn] ++ bytes) (.reqRwmr a n wa wn bytes) s ∧
    exec .reqRsid s = .next { s with refused := true }

/-! ### Framing layer -/

/-- `PORT rx b` in every receive state (R170 to R174). -/
def Obligations.ByteReceivedMoves : Prop :=
  ∀ (s : State) (b : Byte),
    (s.running = false → exec (.portRx b) s = .next s) ∧
    (s.running = true → s.rxState = .init ∨ s.rxState = .error →
      exec (.portRx b) s = .next { s with timer := .armed .t35 }) ∧
    (s.running = true → s.rxState = .idle →
      ∃ t, exec (.portRx b) s = .next t ∧
        (∀ i, Memory.read t.rxbuf i = if i = 0 then b else Memory.read s.rxbuf i) ∧
        t = { s with
          txState := if s.txState = .done then .idle else s.txState
          rxbuf := t.rxbuf, rxPos := 1, rxState := .receiving, timer := .armed .t35 }) ∧
    (s.running = true → s.rxState = .receiving → s.rxPos < 256 →
      ∃ t, exec (.portRx b) s = .next t ∧
        (∀ i, Memory.read t.rxbuf i = if i = s.rxPos then b else Memory.read s.rxbuf i) ∧
        t = { s with rxbuf := t.rxbuf, rxPos := s.rxPos + 1, timer := .armed .t35 }) ∧
    (s.running = true → s.rxState = .receiving → 256 ≤ s.rxPos →
      exec (.portRx b) s = .next { s with rxState := .error, timer := .armed .t35 })

/-- `PORT txe` in every send state (R194 to R197). -/
def Obligations.TransmitterEmptyMoves : Prop :=
  ∀ s : State,
    (s.running = false ∨ s.txState ≠ .transmitting → exec .portTxe s = .next s) ∧
    (s.running = true → s.txState = .transmitting → s.txRem ≠ 0 → s.txCur < 256 →
      exec .portTxe s = .next { s with
        wire := s.wire ++ [Memory.read s.txbuf s.txCur], txCur := s.txCur + 1, txRem := s.txRem - 1 }) ∧
    (s.running = true → s.txState = .transmitting → s.txRem = 0 →
      exec .portTxe s = .next { s with
        bcast := decide (Memory.read s.txbuf 0 = 0x00#8), lineMode := .rx, txState := .done
        timer := .armed (if Memory.read s.txbuf 0 = 0x00#8 then .convertDelay else .respondTimeout) })

/-- A transmission completes when the owed transmitter-empty invocations come (R334; R106 `TXALL`). With n bytes left the Port owes
n + 1 of them, the line in transmit mode before each; they send the n bytes in order and end in receive mode. From the poll step that
starts a frame of the first len bytes of the PDU, len + 4 of them put that frame on the wire. -/
def Obligations.TransmissionCompletes : Prop :=
  ∀ s : State, s.running = true →
    (s.txState = .transmitting → s.lineMode = .tx → s.txCur + s.txRem ≤ 256 →
      (∀ n, n ≤ s.txRem →
        ∃ u, runSteps (List.replicate n .portTxe) s = .next u ∧ TransmitterOwed u ∧ PortContract .portTxe u) ∧
      ∃ t, runSteps (List.replicate (s.txRem + 1) .portTxe) s = .next t ∧ ¬ TransmitterOwed t ∧
        t = { s with
          wire := s.wire ++ txSlice s s.txCur s.txRem, txCur := s.txCur + s.txRem, txRem := 0
          bcast := decide (Memory.read s.txbuf 0 = 0x00#8), lineMode := .rx, txState := .done
          timer := .armed (if Memory.read s.txbuf 0 = 0x00#8 then .convertDelay else .respondTimeout) }) ∧
    (∀ len rest, s.protoState = .enabled → s.evq = .frameSent :: rest → s.rxState = .idle → len = s.sndPduLen.toNat →
      len ≤ 253 →
      ∃ u t, exec .poll s = .next u ∧ TransmitterOwed u ∧ runSteps (List.replicate (len + 4) .portTxe) u = .next t ∧
        t.wire = s.wire ++ frameBytes s.destAddr (txSlice s 1 len) ∧ t.txState = .done ∧ ¬ TransmitterOwed t)

/-- `PORT tmo` with the timer armed, in every pair of states (R198, R199, R333): the receive part, then the send part. -/
def Obligations.TimerExpiryMoves : Prop :=
  ∀ (s : State) (p : TimerPurpose),
    (s.timer = .armed p → s.running = false → exec .portTmo s = .next { s with timer := .off }) ∧
    (s.timer = .armed p → s.running = true →
      ∃ mid t : State, exec .portTmo s = .next t ∧
        (s.rxState = .init → mid = { s with
          timer := .off, rxState := .idle, evq := queued s.cfg s.evq .ready, faults := marked s.cfg s.evq s.faults }) ∧
        (s.rxState = .receiving → mid = { s with
          timer := .off, rxState := .idle, evq := queued s.cfg s.evq .frameReceived
          faults := marked s.cfg s.evq s.faults }) ∧
        (s.rxState = .error → mid = failed .receiveDataError s.evq { s with timer := .off, rxState := .idle }) ∧
        (s.rxState = .idle → mid = { s with timer := .off }) ∧
        (mid.txState = .done → mid.bcast = false →
          t = failed .respondTimeout mid.evq { mid with txState := .idle }) ∧
        (mid.txState = .done → mid.bcast = true → t = { mid with
          txState := .idle, evq := queued mid.cfg mid.evq .execute, faults := marked mid.cfg mid.evq mid.faults }) ∧
        (mid.txState ≠ .done → t = mid))

/-- A frame on the line is its bytes and the expiry that follows them, one step after another (R106 `RXFRAME`; log 5). -/
def Obligations.FrameIsItsSteps : Prop :=
  ∀ (s : State) (a lo hi : Byte) (pdu : List Byte),
    exec (.frame a pdu lo hi) s = runSteps (rxFrameSteps ((a :: pdu) ++ [lo, hi])) s

/-- A frame of at most 256 bytes that starts while the receive machine is idle is assembled whole and `FrameReceived` is posted
(R92, R172, R173, R198). That the frame row is this arrival is the model's reading (log 5). -/
def Obligations.FrameArrivesWhole : Prop :=
  ∀ (s : State) (a lo hi : Byte) (pdu : List Byte), 1 ≤ pdu.length → pdu.length ≤ 253 → s.running = true →
    s.rxState = .idle → s.txState ≠ .transmitting →
    ∃ t, exec (.frame a pdu lo hi) s = .next t ∧
      (∀ k (h : k < ((a :: pdu) ++ [lo, hi]).length), Memory.read t.rxbuf k = ((a :: pdu) ++ [lo, hi])[k]) ∧
      (∀ i, pdu.length + 3 ≤ i → Memory.read t.rxbuf i = Memory.read s.rxbuf i) ∧
      t = { s with
        rxbuf := t.rxbuf, rxPos := pdu.length + 3, rxState := .idle, txState := .idle, timer := .off
        evq := queued s.cfg s.evq .frameReceived, faults := marked s.cfg s.evq s.faults }

/-! ### Poll steps -/

/-- `POLL` outside `Enabled`, on an empty queue and on `Ready` (R140, R141). -/
def Obligations.PollWithNothingToDo : Prop :=
  ∀ s : State,
    (s.protoState ≠ .enabled ∨ s.evq = [] → exec .poll s = .next s) ∧
    (∀ rest, s.protoState = .enabled → s.evq = .ready :: rest → exec .poll s = .next { s with evq := rest })

/-- `POLL` on `FrameReceived` (R142, R175). -/
def Obligations.PollFrameReceived : Prop :=
  ∀ (s : State) (rest : List Event), s.protoState = .enabled → s.evq = .frameReceived :: rest → s.rxPos ≤ 256 →
    (4 ≤ s.rxPos ∧ crc16 (rxSlice s 0 s.rxPos) = 0x0000#16 ∧ Memory.read s.rxbuf 0 = s.destAddr →
      exec .poll s = .next { s with
        rcvPduLen := BitVec.ofNat 16 (s.rxPos - 3), evq := queued s.cfg rest .execute
        faults := marked s.cfg rest s.faults }) ∧
    (¬ (4 ≤ s.rxPos ∧ crc16 (rxSlice s 0 s.rxPos) = 0x0000#16 ∧ Memory.read s.rxbuf 0 = s.destAddr) →
      exec .poll s = .next (failed .receiveDataError rest s))

/-- `POLL` on `FrameSent` (R145, R193, R302): the frame is built and started when the receive machine is idle; otherwise the fault
`SendRejected`, with the token as it was; a PDU over 253 bytes is refused. -/
def Obligations.PollFrameSent : Prop :=
  ∀ (s : State) (rest : List Event), s.protoState = .enabled → s.evq = .frameSent :: rest →
    (253 < s.sndPduLen.toNat → exec .poll s = .next { s with evq := rest, refused := true }) ∧
    (s.sndPduLen.toNat ≤ 253 → s.rxState ≠ .idle →
      exec .poll s = .next { s with evq := rest, faults := { s.faults with sendRejected := true } }) ∧
    (s.sndPduLen.toNat ≤ 253 → s.rxState = .idle →
      ∃ t, exec .poll s = .next t ∧ FrameStarted s.sndPduLen.toNat rest s t)

/-- `POLL` on `Error` (R146, R315): the pending value is read, the token released, `err_event` kept. -/
def Obligations.PollError : Prop :=
  ∀ (s : State) (rest : List Event), s.protoState = .enabled → s.evq = .error :: rest →
    exec .poll s = .next { s with evq := rest, errorsRead := s.errorsRead ++ [s.errEvent], token := .free }

/-- `POLL` on `Execute` (R143): the request on a broadcast, else the accepted response; an exception response and a code with no
handler are recorded and nothing else happens; the handler's exception is recorded, or the token released. The counter of the
free values advances (log 8). -/
def Obligations.PollExecuteDispatches : Prop :=
  ∀ (s : State) (rest : List Event), s.protoState = .enabled → s.evq = .execute :: rest →
    ∀ (v : View) (L : Nat),
      (s.bcast = true → v = .tx ∧ L = s.sndPduLen.toNat) → (s.bcast = false → v = .rx ∧ L = s.rcvPduLen.toNat) →
      ((pduByte v s 0).getLsbD 7 = true ∨ lookup s.hfn (pduByte v s 0) = none →
        exec .poll s = .next { failed .executeFunctionError rest s with draws := s.draws + 1 }) ∧
      (∀ h, (pduByte v s 0).getLsbD 7 = false → lookup s.hfn (pduByte v s 0) = some h →
        ∀ (u : State) (e : Exc),
          (s.bcast = true → (u, e) = fanOut h v L { s with evq := rest }) →
          (s.bcast = false →
            u = (runHandler h v L { s with evq := rest }).state ∧ e = (runHandler h v L { s with evq := rest }).exc) →
          exec .poll s = .next
            (if e = .none then { u with token := .free, draws := s.draws + 1 }
             else { failed .executeFunctionError rest u with draws := s.draws + 1 }))

/-- The Execute step of a broadcast write applies the request to every configured slave, and the address register ends at
`MAX_SLAVES` (R144 with R256 to R260): Write Single Coil and Register, Write Multiple Coils and Registers, and the write of
Read/Write Multiple Registers. A request that the handlers refuse (a window outside the table, a wrong coil value, a wrong byte count)
changes no table: the last invocation's exception is recorded and the token kept. -/
def Obligations.BroadcastWritesEverySlave : Prop :=
  ∀ (s : State) (rest : List Event),
    (BroadcastDue .wsc rest s → reqCount s = 0xFF00#16 ∨ reqCount s = 0x0000#16 → InWindow s.cfg .coils 1#8 (reqAddr s) 1 →
      ∃ m, exec .poll s = .next (BroadcastConcluded .coils m rest s) ∧
        BitsWrittenToAll s.coils m s.cfg.maxSlaves (indexOf s.cfg .coils (reqAddr s)) 1
          [if reqCount s = 0xFF00#16 then 1#8 else 0#8]) ∧
    (BroadcastDue .wsc rest s →
      ¬ ((reqCount s = 0xFF00#16 ∨ reqCount s = 0x0000#16) ∧ InWindow s.cfg .coils 1#8 (reqAddr s) 1) →
      exec .poll s = .next (BroadcastFailed rest s)) ∧
    (BroadcastDue .wsr rest s → InWindow s.cfg .hold 1#8 (reqAddr s) 1 →
      ∃ m, exec .poll s = .next (BroadcastConcluded .hold m rest s) ∧
        WordsWrittenToAll s.hold m s.cfg.maxSlaves (indexOf s.cfg .hold (reqAddr s)) 1
          [hi8 (reqCount s), lo8 (reqCount s)]) ∧
    (BroadcastDue .wsr rest s → ¬ InWindow s.cfg .hold 1#8 (reqAddr s) 1 → exec .poll s = .next (BroadcastFailed rest s)) ∧
    (BroadcastDue .wmc rest s → (reqBc s).toNat = ((reqCount s).toNat + 7) / 8 →
      InWindow s.cfg .coils 1#8 (reqAddr s) (reqCount s).toNat →
      ∃ m, exec .poll s = .next (BroadcastConcluded .coils m rest s) ∧
        BitsWrittenToAll s.coils m s.cfg.maxSlaves (indexOf s.cfg .coils (reqAddr s)) (reqCount s).toNat
          (reqData s (((reqCount s).toNat + 7) / 8))) ∧
    (BroadcastDue .wmc rest s →
      ¬ ((reqBc s).toNat = ((reqCount s).toNat + 7) / 8 ∧ InWindow s.cfg .coils 1#8 (reqAddr s) (reqCount s).toNat) →
      exec .poll s = .next (BroadcastFailed rest s)) ∧
    (BroadcastDue .wmr rest s → (reqBc s).toNat = 2 * (reqCount s).toNat →
      InWindow s.cfg .hold 1#8 (reqAddr s) (reqCount s).toNat →
      ∃ m, exec .poll s = .next (BroadcastConcluded .hold m rest s) ∧
        WordsWrittenToAll s.hold m s.cfg.maxSlaves (indexOf s.cfg .hold (reqAddr s)) (reqCount s).toNat
          (reqData s (2 * (reqCount s).toNat))) ∧
    (BroadcastDue .wmr rest s →
      ¬ ((reqBc s).toNat = 2 * (reqCount s).toNat ∧ InWindow s.cfg .hold 1#8 (reqAddr s) (reqCount s).toNat) →
      exec .poll s = .next (BroadcastFailed rest s)) ∧
    (BroadcastDue .rwmr rest s → (rwWbc s).toNat = 2 * (rwWcount s).toNat →
      InWindow s.cfg .hold 1#8 (rwWaddr s) (rwWcount s).toNat →
      ∃ m, exec .poll s = .next (BroadcastConcluded .hold m rest s) ∧
        WordsWrittenToAll s.hold m s.cfg.maxSlaves (indexOf s.cfg .hold (rwWaddr s)) (rwWcount s).toNat
          (rwWdata s (2 * (rwWcount s).toNat))) ∧
    (BroadcastDue .rwmr rest s →
      ¬ ((rwWbc s).toNat = 2 * (rwWcount s).toNat ∧ InWindow s.cfg .hold 1#8 (rwWaddr s) (rwWcount s).toNat) →
      exec .poll s = .next (BroadcastFailed rest s))

/-- The Execute step of a broadcast read touches no table and releases the token (R250, R144). -/
def Obligations.BroadcastReadsTouchNoTable : Prop :=
  ∀ (s : State) (rest : List Event) (h : HandlerId), h = .rc ∨ h = .rdi ∨ h = .rhr ∨ h = .rir →
    BroadcastDue h rest s →
    exec .poll s = .next { s with
      token := .free, evq := rest, destAddr := BitVec.ofNat 8 s.cfg.maxSlaves, draws := s.draws + 1 }

/-! ### Response handlers -/

/-- The read handlers of the bit tables (R252, R253, R250). -/
def Obligations.BitReadHandlers : Prop :=
  ∀ (h : HandlerId) (t : Table) (v : View) (L : Nat) (s : State),
    (h = .rc ∧ t = .coils) ∨ (h = .rdi ∧ t = .disc) → configOk s.cfg →
    (s.bcast = true → runHandler h v L s = ⟨s, .none, L⟩) ∧
    (s.bcast = false → ∀ nb, nb = ((reqCount s).toNat + 7) / 8 →
      (¬ (2 ≤ L ∧ (pduByte v s 1).toNat = nb ∧ 2 + nb ≤ L) → runHandler h v L s = ⟨s, .illegalDataValue, L⟩) ∧
      (2 ≤ L ∧ (pduByte v s 1).toNat = nb ∧ 2 + nb ≤ L →
        (¬ InWindow s.cfg t s.destAddr (reqAddr s) (reqCount s).toNat →
          runHandler h v L s = ⟨s, .illegalDataAddress, L⟩) ∧
        (InWindow s.cfg t s.destAddr (reqAddr s) (reqCount s).toNat →
          ∃ m, runHandler h v L s = ⟨withTable t m s, .none, L⟩ ∧
            BitsWritten (tableOf t s) m s.destAddr.toNat (indexOf s.cfg t (reqAddr s)) (reqCount s).toNat
              (pduSlice v s 2 nb))))

/-- The read handlers of the word tables (R254, R255, R250). -/
def Obligations.WordReadHandlers : Prop :=
  ∀ (h : HandlerId) (t : Table) (v : View) (L : Nat) (s : State),
    (h = .rhr ∧ t = .hold) ∨ (h = .rir ∧ t = .input) → configOk s.cfg →
    (s.bcast = true → runHandler h v L s = ⟨s, .none, L⟩) ∧
    (s.bcast = false → ∀ nb, nb = 2 * (reqCount s).toNat →
      (¬ (2 ≤ L ∧ (pduByte v s 1).toNat = nb ∧ 2 + nb ≤ L) → runHandler h v L s = ⟨s, .illegalDataValue, L⟩) ∧
      (2 ≤ L ∧ (pduByte v s 1).toNat = nb ∧ 2 + nb ≤ L →
        (¬ InWindow s.cfg t s.destAddr (reqAddr s) (reqCount s).toNat →
          runHandler h v L s = ⟨s, .illegalDataAddress, L⟩) ∧
        (InWindow s.cfg t s.destAddr (reqAddr s) (reqCount s).toNat →
          ∃ m, runHandler h v L s = ⟨withTable t m s, .none, L⟩ ∧
            WordsWritten (tableOf t s) m s.destAddr.toNat (indexOf s.cfg t (reqAddr s)) (reqCount s).toNat
              (pduSlice v s 2 nb))))

/-- The single-write handlers (R256, R257): the request's value, whatever the response echoes. -/
def Obligations.SingleWriteHandlers : Prop :=
  ∀ (v : View) (L : Nat) (s : State), configOk s.cfg →
    (s.bcast = false → L ≠ 5 →
      runHandler .wsc v L s = ⟨s, .illegalDataValue, L⟩ ∧ runHandler .wsr v L s = ⟨s, .illegalDataValue, L⟩) ∧
    (reqCount s ≠ 0xFF00#16 → reqCount s ≠ 0x0000#16 → runHandler .wsc v L s = ⟨s, .illegalDataValue, L⟩) ∧
    (s.bcast = true ∨ L = 5 →
      (reqCount s = 0xFF00#16 ∨ reqCount s = 0x0000#16 →
        (¬ InWindow s.cfg .coils s.destAddr (reqAddr s) 1 → runHandler .wsc v L s = ⟨s, .illegalDataAddress, L⟩) ∧
        (InWindow s.cfg .coils s.destAddr (reqAddr s) 1 →
          ∃ m, runHandler .wsc v L s = ⟨{ s with coils := m }, .none, L⟩ ∧
            BitsWritten s.coils m s.destAddr.toNat (indexOf s.cfg .coils (reqAddr s)) 1
              [if reqCount s = 0xFF00#16 then 1#8 else 0#8])) ∧
      (¬ InWindow s.cfg .hold s.destAddr (reqAddr s) 1 → runHandler .wsr v L s = ⟨s, .illegalDataAddress, L⟩) ∧
      (InWindow s.cfg .hold s.destAddr (reqAddr s) 1 →
        ∃ m, runHandler .wsr v L s = ⟨{ s with hold := m }, .none, L⟩ ∧
          WordsWritten s.hold m s.destAddr.toNat (indexOf s.cfg .hold (reqAddr s)) 1
            [hi8 (reqCount s), lo8 (reqCount s)]))

/-- The multiple-write handlers (R258, R259): the request's payload, when its byte count is the one its count gives. -/
def Obligations.MultipleWriteHandlers : Prop :=
  ∀ (v : View) (L : Nat) (s : State), configOk s.cfg → ∀ n, n = (reqCount s).toNat →
    ((s.bcast = false ∧ L ≠ 5) ∨ (reqBc s).toNat ≠ (n + 7) / 8 → runHandler .wmc v L s = ⟨s, .illegalDataValue, L⟩) ∧
    ((s.bcast = false ∧ L ≠ 5) ∨ (reqBc s).toNat ≠ 2 * n → runHandler .wmr v L s = ⟨s, .illegalDataValue, L⟩) ∧
    (s.bcast = true ∨ L = 5 → (reqBc s).toNat = (n + 7) / 8 →
      (¬ InWindow s.cfg .coils s.destAddr (reqAddr s) n → runHandler .wmc v L s = ⟨s, .illegalDataAddress, L⟩) ∧
      (InWindow s.cfg .coils s.destAddr (reqAddr s) n →
        ∃ m, runHandler .wmc v L s = ⟨{ s with coils := m }, .none, L⟩ ∧
          BitsWritten s.coils m s.destAddr.toNat (indexOf s.cfg .coils (reqAddr s)) n (reqData s ((n + 7) / 8)))) ∧
    (s.bcast = true ∨ L = 5 → (reqBc s).toNat = 2 * n →
      (¬ InWindow s.cfg .hold s.destAddr (reqAddr s) n → runHandler .wmr v L s = ⟨s, .illegalDataAddress, L⟩) ∧
      (InWindow s.cfg .hold s.destAddr (reqAddr s) n →
        ∃ m, runHandler .wmr v L s = ⟨{ s with hold := m }, .none, L⟩ ∧
          WordsWritten s.hold m s.destAddr.toNat (indexOf s.cfg .hold (reqAddr s)) n (reqData s (2 * n))))

/-- The read/write handler (R260): the checks, then the write, then the read; a failed write stops it, a failed read keeps the
write, a broadcast has no read. -/
def Obligations.ReadWriteHandler : Prop :=
  ∀ (v : View) (L : Nat) (s : State), configOk s.cfg → ∀ rn wn, rn = (reqCount s).toNat → wn = (rwWcount s).toNat →
    ((s.bcast = false ∧ ¬ (2 ≤ L ∧ (pduByte v s 1).toNat = 2 * rn ∧ 2 + 2 * rn ≤ L)) ∨ (rwWbc s).toNat ≠ 2 * wn →
      runHandler .rwmr v L s = ⟨s, .illegalDataValue, L⟩) ∧
    (s.bcast = true ∨ (2 ≤ L ∧ (pduByte v s 1).toNat = 2 * rn ∧ 2 + 2 * rn ≤ L) → (rwWbc s).toNat = 2 * wn →
      (¬ InWindow s.cfg .hold s.destAddr (rwWaddr s) wn → runHandler .rwmr v L s = ⟨s, .illegalDataAddress, L⟩) ∧
      (InWindow s.cfg .hold s.destAddr (rwWaddr s) wn →
        ∃ m, WordsWritten s.hold m s.destAddr.toNat (indexOf s.cfg .hold (rwWaddr s)) wn (rwWdata s (2 * wn)) ∧
          (s.bcast = true → runHandler .rwmr v L s = ⟨{ s with hold := m }, .none, L⟩) ∧
          (s.bcast = false → ¬ InWindow s.cfg .hold s.destAddr (reqAddr s) rn →
            runHandler .rwmr v L s = ⟨{ s with hold := m }, .illegalDataAddress, L⟩) ∧
          (s.bcast = false → InWindow s.cfg .hold s.destAddr (reqAddr s) rn →
            ∃ m', runHandler .rwmr v L s = ⟨{ s with hold := m' }, .none, L⟩ ∧
              WordsWritten m m' s.destAddr.toNat (indexOf s.cfg .hold (reqAddr s)) rn (pduSlice v s 2 (2 * rn)))))

/-- The Report Slave ID handler (R262) on a received PDU: the buffer over the PDU after its code, the new length, `None`. -/
def Obligations.ReportSlaveIdHandler : Prop :=
  ∀ (L : Nat) (s : State), s.sidLen ≤ 252 →
    ∃ m, runHandler .rsid .rx L s = ⟨{ s with rxbuf := m }, .none, 1 + s.sidLen⟩ ∧
      (∀ k, k < s.sidLen → Memory.read m (2 + k) = Memory.read s.sidBuf k) ∧
      (∀ i, i < 2 ∨ 2 + s.sidLen ≤ i → Memory.read m i = Memory.read s.rxbuf i)

/-- `ErrorToException` (R251). That `NoError` becomes `None` is what R251 marks as derived (from the handlers' result). -/
def Obligations.StoreErrorsBecomeExceptions : Prop :=
  errorToException .noError = .none ∧ errorToException .noSuchRegister = .illegalDataAddress ∧
  errorToException .timeout = .slaveBusy ∧
  ∀ e, e ≠ .noError → e ≠ .noSuchRegister → e ≠ .timeout → errorToException e = .slaveDeviceFailure

/-- What the handlers of R252 to R260 leave alone (R261, an inference of the spec's own): everything but the store of the slave
`dest_addr`, and all of it when they return an exception, but for the write that Read/Write Multiple keeps. -/
def Obligations.HandlersWriteOnlyTheirSlave : Prop :=
  ∀ (h : HandlerId) (v : View) (L : Nat) (s : State), h ≠ .rsid → configOk s.cfg →
    ∀ u, u = (runHandler h v L s).state →
      u = { s with coils := u.coils, disc := u.disc, hold := u.hold, input := u.input } ∧
      (∀ sl, sl ≠ s.destAddr.toNat →
        (∀ i, i < 1048576 → bitAt u.coils sl i = bitAt s.coils sl i ∧ bitAt u.disc sl i = bitAt s.disc sl i) ∧
        (∀ i, i < 65536 → wordAt u.hold sl i = wordAt s.hold sl i ∧ wordAt u.input sl i = wordAt s.input sl i)) ∧
      (h ≠ .rwmr → (runHandler h v L s).exc ≠ .none → store u = store s)

/-! ### Response rows -/

/-- A response row is the Execute step that finds its PDU accepted, which only an enabled dispatcher takes (R140, R143; the
reading of the rows is the model's, log 5). -/
def Obligations.ResponseRowsAreExecuteSteps : Prop :=
  ∀ (i : Instr) (fc : Byte) (data : List Byte) (s : State), ResponseRow i fc data → data.length ≤ 252 →
    (s.protoState ≠ .enabled → exec i s = .next s) ∧
    (s.protoState = .enabled →
      ∃ u, HoldsResponse (fc :: data) s u ∧ u = { s with rxbuf := u.rxbuf, rcvPduLen := u.rcvPduLen } ∧
        exec i s = exec .poll { u with evq := .execute :: s.evq })

/-- The four read responses in unicast: the payload goes to the table of the addressed slave, the token is released. -/
def Obligations.ReadResponsesComplete : Prop :=
  ∀ (s : State) (bc : Byte) (payload : List Byte), UnicastReady s → payload.length ≤ 251 →
    (lookup s.hfn 0x01#8 = some .rc → bc.toNat = ((reqCount s).toNat + 7) / 8 →
      ((reqCount s).toNat + 7) / 8 ≤ payload.length → InWindow s.cfg .coils s.destAddr (reqAddr s) (reqCount s).toNat →
      ∃ u m, exec (.rspRc (bc :: payload)) s = .next u ∧ Concluded .coils (0x01#8 :: bc :: payload) m s u ∧
        BitsWritten s.coils m s.destAddr.toNat (indexOf s.cfg .coils (reqAddr s)) (reqCount s).toNat payload) ∧
    (lookup s.hfn 0x02#8 = some .rdi → bc.toNat = ((reqCount s).toNat + 7) / 8 →
      ((reqCount s).toNat + 7) / 8 ≤ payload.length → InWindow s.cfg .disc s.destAddr (reqAddr s) (reqCount s).toNat →
      ∃ u m, exec (.rspRdi (bc :: payload)) s = .next u ∧ Concluded .disc (0x02#8 :: bc :: payload) m s u ∧
        BitsWritten s.disc m s.destAddr.toNat (indexOf s.cfg .disc (reqAddr s)) (reqCount s).toNat payload) ∧
    (lookup s.hfn 0x03#8 = some .rhr → bc.toNat = 2 * (reqCount s).toNat → 2 * (reqCount s).toNat ≤ payload.length →
      InWindow s.cfg .hold s.destAddr (reqAddr s) (reqCount s).toNat →
      ∃ u m, exec (.rspRhr (bc :: payload)) s = .next u ∧ Concluded .hold (0x03#8 :: bc :: payload) m s u ∧
        WordsWritten s.hold m s.destAddr.toNat (indexOf s.cfg .hold (reqAddr s)) (reqCount s).toNat payload) ∧
    (lookup s.hfn 0x04#8 = some .rir → bc.toNat = 2 * (reqCount s).toNat → 2 * (reqCount s).toNat ≤ payload.length →
      InWindow s.cfg .input s.destAddr (reqAddr s) (reqCount s).toNat →
      ∃ u m, exec (.rspRir (bc :: payload)) s = .next u ∧ Concluded .input (0x04#8 :: bc :: payload) m s u ∧
        WordsWritten s.input m s.destAddr.toNat (indexOf s.cfg .input (reqAddr s)) (reqCount s).toNat payload)

/-- The four write responses in unicast: the request's payload goes to the table of the addressed slave, the token is released. -/
def Obligations.WriteResponsesComplete : Prop :=
  ∀ (s : State) (data : List Byte), UnicastReady s → data.length = 4 →
    (lookup s.hfn 0x05#8 = some .wsc → reqCount s = 0xFF00#16 ∨ reqCount s = 0x0000#16 →
      InWindow s.cfg .coils s.destAddr (reqAddr s) 1 →
      ∃ u m, exec (.rspWsc data) s = .next u ∧ Concluded .coils (0x05#8 :: data) m s u ∧
        BitsWritten s.coils m s.destAddr.toNat (indexOf s.cfg .coils (reqAddr s)) 1
          [if reqCount s = 0xFF00#16 then 1#8 else 0#8]) ∧
    (lookup s.hfn 0x06#8 = some .wsr → InWindow s.cfg .hold s.destAddr (reqAddr s) 1 →
      ∃ u m, exec (.rspWsr data) s = .next u ∧ Concluded .hold (0x06#8 :: data) m s u ∧
        WordsWritten s.hold m s.destAddr.toNat (indexOf s.cfg .hold (reqAddr s)) 1 [hi8 (reqCount s), lo8 (reqCount s)]) ∧
    (lookup s.hfn 0x0F#8 = some .wmc → (reqBc s).toNat = ((reqCount s).toNat + 7) / 8 →
      InWindow s.cfg .coils s.destAddr (reqAddr s) (reqCount s).toNat →
      ∃ u m, exec (.rspWmc data) s = .next u ∧ Concluded .coils (0x0F#8 :: data) m s u ∧
        BitsWritten s.coils m s.destAddr.toNat (indexOf s.cfg .coils (reqAddr s)) (reqCount s).toNat
          (reqData s (((reqCount s).toNat + 7) / 8))) ∧
    (lookup s.hfn 0x10#8 = some .wmr → (reqBc s).toNat = 2 * (reqCount s).toNat →
      InWindow s.cfg .hold s.destAddr (reqAddr s) (reqCount s).toNat →
      ∃ u m, exec (.rspWmr data) s = .next u ∧ Concluded .hold (0x10#8 :: data) m s u ∧
        WordsWritten s.hold m s.destAddr.toNat (indexOf s.cfg .hold (reqAddr s)) (reqCount s).toNat
          (reqData s (2 * (reqCount s).toNat)))

/-- The read/write response in unicast: the write words, then the read words over them; the token is released. -/
def Obligations.ReadWriteResponseCompletes : Prop :=
  ∀ (s : State) (bc : Byte) (payload : List Byte), UnicastReady s → payload.length ≤ 251 →
    lookup s.hfn 0x17#8 = some .rwmr → bc.toNat = 2 * (reqCount s).toNat → 2 * (reqCount s).toNat ≤ payload.length →
    (rwWbc s).toNat = 2 * (rwWcount s).toNat → InWindow s.cfg .hold s.destAddr (rwWaddr s) (rwWcount s).toNat →
    InWindow s.cfg .hold s.destAddr (reqAddr s) (reqCount s).toNat →
    ∃ u m m', exec (.rspRwmr (bc :: payload)) s = .next u ∧ Concluded .hold (0x17#8 :: bc :: payload) m' s u ∧
      WordsWritten s.hold m s.destAddr.toNat (indexOf s.cfg .hold (rwWaddr s)) (rwWcount s).toNat
        (rwWdata s (2 * (rwWcount s).toNat)) ∧
      WordsWritten m m' s.destAddr.toNat (indexOf s.cfg .hold (reqAddr s)) (reqCount s).toNat payload

/-- The Report Slave ID response in unicast: the PDU in the receive buffer with the slave-ID buffer over its bytes after the code,
every other byte of the receive buffer as it was, the token released, the store untouched. -/
def Obligations.ReportSlaveIdResponseCompletes : Prop :=
  ∀ (s : State) (data : List Byte), UnicastReady s → data.length ≤ 252 → s.sidLen ≤ 252 →
    lookup s.hfn 0x11#8 = some .rsid →
    ∃ u, exec (.rspRsid data) s = .next u ∧ u.rcvPduLen.toNat = data.length + 1 ∧
      Memory.read u.rxbuf 1 = 0x11#8 ∧
      (∀ k, k < s.sidLen → Memory.read u.rxbuf (2 + k) = Memory.read s.sidBuf k) ∧
      (∀ k (h : k < data.length), s.sidLen ≤ k → Memory.read u.rxbuf (2 + k) = data[k]) ∧
      (∀ i, i = 0 ∨ (2 + s.sidLen ≤ i ∧ 2 + data.length ≤ i) → Memory.read u.rxbuf i = Memory.read s.rxbuf i) ∧
      u = { s with token := .free, rxbuf := u.rxbuf, rcvPduLen := u.rcvPduLen, draws := s.draws + 1 }

/-- An exception response, and a response whose code is not in the table, are recorded and posted; no handler runs (R143). The rows
of the ten codes are among them when their code is not enabled. -/
def Obligations.RejectedResponsesAreRecorded : Prop :=
  ∀ (i : Instr) (s : State) (fc : Byte) (data : List Byte), UnicastReady s → data.length ≤ 252 → ResponseRow i fc data →
    fc.getLsbD 7 = true ∨ lookup s.hfn fc = none →
    ∃ u, exec i s = .next u ∧ HoldsResponse (fc :: data) s u ∧
      u = { failed .executeFunctionError s.evq s with
        rxbuf := u.rxbuf, rcvPduLen := u.rcvPduLen, draws := s.draws + 1 }

/-! ### Invariants and whole-machine rules -/

/-- Every step keeps the invariant: canonical memories, lengths and cursors inside the buffers, the handler table as `Init` built
it, callbacks effective exactly while `Enabled`, the queue within its capacity, the address register within `MAX_SLAVES`. -/
def Obligations.StepKeepsInvariant : Prop :=
  ∀ s t : State, Inv s → step s = .next t → Inv t

/-- The reset state meets the invariant, and so does every launch with canonical tables. -/
def Obligations.StartMeetsInvariant : Prop :=
  Inv State.reset ∧
  ∀ (cfg : Config) (c d h r : Memory) (s : State), Memory.wf c → Memory.wf d → Memory.wf h → Memory.wf r →
    launch cfg c d h r = .next s → Inv s

/-- R200 items 1 to 3 (inferences of the spec's own), kept by every step of an agent when the Port keeps its contract while running
(R334) and every `Send` is made with the send machine idle. The premise that callbacks have an effect exactly while `Enabled` is part of `Inv` (StepKeepsInvariant). -/
def Obligations.FramingInvariantKept : Prop :=
  ∀ (i : Instr) (s t : State), LifecycleInv s → FramingInv s → (s.running = true → PortContract i s) → SendFromIdle i s → exec i s = .next t →
    FramingInv t

/-- R200 item 4 (an inference of the spec's own): under items 1 to 3 one expiry posts at most one event, and none occurs while
transmitting. With the timer off no expiry occurs and the step changes nothing (the model's reading, log 6). -/
def Obligations.OneExpiryPostsOneEvent : Prop :=
  (∀ s t : State, FramingInv s → s.running = true → exec .portTmo s = .next t →
    t.evq.length ≤ s.evq.length + 1 ∧ (s.txState = .transmitting → t = s)) ∧
  (∀ s : State, s.timer = .off → exec .portTmo s = .next s)

/-- The register store changes only in an Execute step of an enabled dispatcher (R78, R370). -/
def Obligations.OnlyExecuteChangesTheStore : Prop :=
  ∀ (i : Instr) (s t : State), exec i s = .next t → store t ≠ store s → IsExecute i s

/-- Who writes the control state of R40 and the state beside it. The protocol state: `Init`, `Enable`, `Disable` (R21). The receive and
the send machine: their callbacks and the lifecycle calls, and the send machine also the poll step that sends (R25, R26). The timer
(R35). The token (R37, R76, R331): only a request takes it; only `Init`, the Error step and an Execute step release it. The queue
(R36). The line mode (R33), which leaves transmit mode only at the end of a transmission and by the lifecycle calls. The handler table:
only `Init` (R22, R77). The running latch (R34), the broadcast flag (R32), the slave-ID buffer (R38). The parameters: nobody (R3). -/
def Obligations.ControlStateWriters : Prop :=
  ∀ (i : Instr) (s t : State), exec i s = .next t →
    (t.protoState ≠ s.protoState → IsInit i ∨ i = .appEnable ∨ i = .appDisable) ∧
    (t.rxState ≠ s.rxState → IsInit i ∨ i = .appEnable ∨ IsReceive i ∨ i = .portTmo) ∧
    (t.txState ≠ s.txState → IsInit i ∨ i = .appEnable ∨ IsReceive i ∨ i = .portTmo ∨ i = .portTxe ∨
      (i = .poll ∧ s.protoState = .enabled ∧ s.evq.head? = some .frameSent)) ∧
    (t.timer ≠ s.timer →
      IsInit i ∨ i = .appEnable ∨ i = .appDisable ∨ IsReceive i ∨ i = .portTmo ∨ i = .portTxe) ∧
    (s.token = .free → t.token = .held → isRequest i = true) ∧
    (s.token = .held → t.token = .free →
      IsInit i ∨ IsExecute i s ∨ (i = .poll ∧ s.protoState = .enabled ∧ s.evq.head? = some .error)) ∧
    (t.evq ≠ s.evq → IsInit i ∨ isRequest i = true ∨ i = .portTmo ∨ (∃ a pdu lo hi, i = .frame a pdu lo hi) ∨
      (s.protoState = .enabled ∧ (i = .poll ∨ ∃ fc data, ResponseRow i fc data))) ∧
    (s.lineMode = .rx → t.lineMode = .tx → i = .poll ∧ s.protoState = .enabled ∧ s.evq.head? = some .frameSent) ∧
    (s.lineMode = .tx → t.lineMode = .rx → IsInit i ∨ i = .appEnable ∨
      (i = .portTxe ∧ s.running = true ∧ s.txState = .transmitting ∧ s.txRem = 0)) ∧
    (t.hfn ≠ s.hfn → IsInit i) ∧
    (t.running ≠ s.running → IsInit i ∨ i = .appEnable ∨ i = .appDisable) ∧
    (t.bcast ≠ s.bcast → i = .portTxe) ∧
    (t.sidBuf ≠ s.sidBuf ∨ t.sidLen ≠ s.sidLen → ∃ id r x, i = .appSetSlaveId id r x) ∧
    t.cfg = s.cfg

/-- The sticky marks are never cleared (R52), the wire only grows and only by a transmitter-empty callback (R53), and no recorded
result or error is lost (R54). -/
def Obligations.MarksAndObservationsGrow : Prop :=
  ∀ (i : Instr) (s t : State), exec i s = .next t →
    (s.faults.sendRejected = true → t.faults.sendRejected = true) ∧
    (s.faults.eventQueueOverflow = true → t.faults.eventQueueOverflow = true) ∧
    (s.refused = true → t.refused = true) ∧
    (∃ more, t.wire = s.wire ++ more ∧ (i ≠ .portTxe → more = [])) ∧
    (∃ more, t.results = s.results ++ more) ∧ (∃ more, t.errorsRead = s.errorsRead ++ more)
end

