-- ==== Sys2Proof/Laws/Bits.lean ====
section
/-! SUPPORT. Laws of the byte-order helpers. -/

namespace Sys2Proof.Laws

open Sys2Proof.Machine

@[simp] theorem hi8_be16 (a b : Byte) : hi8 (be16 a b) = a := by
  ext i hi
  simp only [hi8, be16, BitVec.getElem_setWidth, BitVec.getLsbD_ushiftRight, BitVec.getLsbD_or, BitVec.getLsbD_shiftLeft,
    BitVec.getLsbD_setWidth]
  simp
  have h1 : 8 + i < 16 := by omega
  have h2 : i < 16 := by omega
  simp [h1, h2, BitVec.getLsbD_eq_getElem hi]

@[simp] theorem lo8_be16 (a b : Byte) : lo8 (be16 a b) = b := by
  ext i hi
  simp only [lo8, be16, BitVec.getElem_setWidth, BitVec.getLsbD_or, BitVec.getLsbD_shiftLeft, BitVec.getLsbD_setWidth]
  have : i < 16 := by omega
  simp [this, hi]

@[simp] theorem be16_hi8_lo8 (w : Half) : be16 (hi8 w) (lo8 w) = w := by
  ext i hi
  simp only [be16, hi8, lo8, BitVec.getElem_or, BitVec.getElem_shiftLeft, BitVec.getElem_setWidth, BitVec.getLsbD_setWidth,
    BitVec.getLsbD_ushiftRight]
  by_cases h : i < 8
  · simp [h, BitVec.getLsbD_eq_getElem hi]
  · have h1 : i - 8 < 8 := by omega
    have h2 : 8 + (i - 8) = i := by omega
    simp [h, h1, h2, BitVec.getLsbD_eq_getElem hi]

@[simp] theorem beBytes_length (ws : List Half) : (beBytes ws).length = 2 * ws.length := by
  induction ws with
  | nil => rfl
  | cons w ws ih => simp [beBytes, ih]; omega

@[simp] theorem beHalves_beBytes (ws : List Half) : beHalves (beBytes ws) = ws := by
  induction ws with
  | nil => rfl
  | cons w ws ih => simp [beBytes, beHalves, ih]

/-- An even number of bytes is the bytes of the words read from them. -/
theorem beBytes_beHalves : ∀ (n : Nat) (bs : List Byte), bs.length = 2 * n → beBytes (beHalves bs) = bs
  | 0, [], _ => rfl
  | n + 1, a :: b :: rest, h => by
    simp only [beHalves, beBytes, hi8_be16, lo8_be16]
    rw [beBytes_beHalves n rest (by simp at h; omega)]
  | n + 1, [_], h => by simp at h; omega
  | n + 1, [], h => by simp at h
  | 0, _ :: _, h => by simp at h

theorem beHalves_length : ∀ (n : Nat) (bs : List Byte), bs.length = 2 * n → (beHalves bs).length = n
  | 0, [], _ => rfl
  | n + 1, a :: b :: rest, h => by
    simp only [beHalves, List.length_cons]
    rw [beHalves_length n rest (by simp at h; omega)]
  | n + 1, [_], h => by simp at h; omega
  | n + 1, [], h => by simp at h
  | 0, _ :: _, h => by simp at h

end Sys2Proof.Laws
end

