-- ==== Sys2Proof/Laws/Decode.lean ====
section
/-! SUPPORT. Laws of the operand readers of the decoder: each reads back what the encoder wrote, and each that answers names the
bytes it read. -/

namespace Sys2Proof.Laws

open Sys2Proof.Machine

/-! ### Reading back what was written -/

@[simp] theorem withByte_cons (b : Byte) (rest : List Byte) (k : Byte → List Byte → Decoded) :
    withByte (b :: rest) k = k b rest := rfl

@[simp] theorem withHalf_halfBytes (w : Half) (rest : List Byte) (k : Half → List Byte → Decoded) :
    withHalf (halfBytes w ++ rest) k = k w rest := by
  simp [withHalf, halfBytes]

theorem withBytes_append (bs rest : List Byte) (k : List Byte → List Byte → Decoded) :
    withBytes bs.length (bs ++ rest) k = k bs rest := by
  simp [withBytes]

theorem withSeq_seqBytes (bs rest : List Byte) (k : List Byte → List Byte → Decoded) (h : bs.length < 65536) :
    withSeq (seqBytes bs ++ rest) k = k bs rest := by
  have e : (BitVec.ofNat 16 bs.length).toNat = bs.length := by simp; omega
  simp only [withSeq, seqBytes, List.append_assoc, withHalf_halfBytes, e, withBytes_append]

theorem withWords_wordsBytes (ws : List Half) (rest : List Byte) (k : List Half → List Byte → Decoded)
    (h : ws.length < 65536) : withWords (wordsBytes ws ++ rest) k = k ws rest := by
  have e : (BitVec.ofNat 16 ws.length).toNat = ws.length := by simp; omega
  simp only [withWords, wordsBytes, List.append_assoc, withHalf_halfBytes, e]
  rw [← beBytes_length, withBytes_append, beHalves_beBytes]

theorem withDecoded_append (item rest : List Byte) (dec : List Byte → Except DecodeError Instr) (i : Instr)
    (hd : dec item = .ok i) : withDecoded item.length (item ++ rest) dec = .ok (i, rest) := by
  simp only [withDecoded, withBytes_append, hd]

theorem withPdu_append (pdu rest : List Byte) (dec : List Byte → Except DecodeError Instr) (i : Instr)
    (h : pdu.length ≤ 255) (hd : dec pdu = .ok i) :
    withPdu (BitVec.ofNat 8 pdu.length :: (pdu ++ rest)) dec = .ok (i, rest) := by
  have e : (BitVec.ofNat 8 pdu.length).toNat = pdu.length := by simp; omega
  simp only [withPdu, withByte_cons, e, withDecoded_append _ _ _ _ hd]

theorem decodeFrame_append (address : Byte) (pdu : List Byte) (lo hi : Byte) (h : 1 ≤ pdu.length) (h' : pdu.length ≤ pduMax) :
    decodeFrame (address :: (pdu ++ [lo, hi])) = .ok (.frame address pdu lo hi) := by
  have h2 : pdu.length < 254 := Nat.lt_succ_of_le h'
  simp [decodeFrame, frameMin, frameMax, h, h2]

theorem withSlaveTwo_append (s : Byte) (a b : Half) (rest : List Byte) (k : Byte → Half → Half → List Byte → Decoded) :
    withSlaveTwo (s :: (halfBytes a ++ (halfBytes b ++ rest))) k = k s a b rest := by
  simp [withSlaveTwo]

@[simp] theorem initOfByte_initByte (a : InitArg) : initOfByte (initByte a) = some a := by
  cases a with
  | null => rfl
  | record t => cases t <;> rfl

@[simp] theorem tableOfByte_tableByte (t : Table) : tableOfByte (tableByte t) = some t := by
  cases t <;> rfl

@[simp] theorem flagOfByte_flagByte (f : Bool) : flagOfByte (flagByte f) = some f := by
  cases f <;> rfl

/-! ### What an answer says about the bytes -/

theorem withByte_ok {bs : List Byte} {k : Byte → List Byte → Decoded} {x : Instr × List Byte} (h : withByte bs k = .ok x) :
    ∃ b rest, bs = b :: rest ∧ k b rest = .ok x := by
  match bs, h with
  | b :: rest, h => exact ⟨b, rest, rfl, h⟩
  | [], h => cases h

theorem withHalf_ok {bs : List Byte} {k : Half → List Byte → Decoded} {x : Instr × List Byte} (h : withHalf bs k = .ok x) :
    ∃ w rest, bs = halfBytes w ++ rest ∧ k w rest = .ok x := by
  match bs, h with
  | a :: b :: rest, h => exact ⟨be16 a b, rest, by simp [halfBytes], h⟩
  | [_], h => cases h
  | [], h => cases h

theorem withBytes_ok {n : Nat} {bs : List Byte} {k : List Byte → List Byte → Decoded} {x : Instr × List Byte}
    (h : withBytes n bs k = .ok x) : ∃ a rest, bs = a ++ rest ∧ a.length = n ∧ k a rest = .ok x := by
  simp only [withBytes] at h
  split at h
  · rename_i hn
    exact ⟨bs.take n, bs.drop n, (List.take_append_drop n bs).symm, by simp [hn], h⟩
  · cases h

theorem withSeq_ok {bs : List Byte} {k : List Byte → List Byte → Decoded} {x : Instr × List Byte}
    (h : withSeq bs k = .ok x) : ∃ a rest, bs = seqBytes a ++ rest ∧ a.length < 65536 ∧ k a rest = .ok x := by
  obtain ⟨w, r, rfl, h1⟩ := withHalf_ok h
  obtain ⟨a, rest, rfl, hl, h2⟩ := withBytes_ok h1
  refine ⟨a, rest, ?_, by omega, h2⟩
  simp [seqBytes, hl]

theorem withWords_ok {bs : List Byte} {k : List Half → List Byte → Decoded} {x : Instr × List Byte}
    (h : withWords bs k = .ok x) : ∃ ws rest, bs = wordsBytes ws ++ rest ∧ ws.length < 65536 ∧ k ws rest = .ok x := by
  obtain ⟨w, r, rfl, h1⟩ := withHalf_ok h
  obtain ⟨a, rest, rfl, hl, h2⟩ := withBytes_ok h1
  have hn := beHalves_length _ _ hl
  refine ⟨beHalves a, rest, ?_, by omega, h2⟩
  simp [wordsBytes, hn, beBytes_beHalves _ _ hl]

theorem withDecoded_ok {n : Nat} {bs : List Byte} {dec : List Byte → Except DecodeError Instr} {i : Instr} {rest : List Byte}
    (h : withDecoded n bs dec = .ok (i, rest)) : ∃ item, bs = item ++ rest ∧ item.length = n ∧ dec item = .ok i := by
  obtain ⟨item, rest', rfl, hl, h2⟩ := withBytes_ok h
  split at h2
  · rename_i j hd
    cases h2
    exact ⟨item, rfl, hl, hd⟩
  · cases h2

theorem withPdu_ok {bs : List Byte} {dec : List Byte → Except DecodeError Instr} {i : Instr} {rest : List Byte}
    (h : withPdu bs dec = .ok (i, rest)) :
    ∃ pdu, bs = BitVec.ofNat 8 pdu.length :: (pdu ++ rest) ∧ pdu.length ≤ 255 ∧ dec pdu = .ok i := by
  obtain ⟨n, r, rfl, h1⟩ := withByte_ok h
  obtain ⟨pdu, rfl, hl, hd⟩ := withDecoded_ok h1
  exact ⟨pdu, by simp [hl], by omega, hd⟩

theorem decodeFrame_ok {bytes : List Byte} {i : Instr} (h : decodeFrame bytes = .ok i) :
    ∃ address pdu lo hi, bytes = address :: (pdu ++ [lo, hi]) ∧ 1 ≤ pdu.length ∧ pdu.length ≤ pduMax ∧
      i = .frame address pdu lo hi := by
  match bytes, h with
  | address :: rest, h =>
    simp only [decodeFrame] at h
    split at h
    · cases h
    · rename_i hl
      simp only [frameMin, frameMax, List.length_cons, not_not] at hl
      split at h
      · rename_i lo hi hd
        cases h
        refine ⟨address, rest.take (rest.length - 2), lo, hi, ?_, ?_, ?_, rfl⟩
        · rw [← hd, List.take_append_drop]
        · simp; omega
        · simp [pduMax]; omega
      · cases h
  | [], h => cases h

theorem withSlaveTwo_ok {bs : List Byte} {k : Byte → Half → Half → List Byte → Decoded} {x : Instr × List Byte}
    (h : withSlaveTwo bs k = .ok x) :
    ∃ s a b rest, bs = s :: (halfBytes a ++ (halfBytes b ++ rest)) ∧ k s a b rest = .ok x := by
  obtain ⟨s, r, rfl, h1⟩ := withByte_ok h
  obtain ⟨a, r, rfl, h2⟩ := withHalf_ok h1
  obtain ⟨b, r, rfl, h3⟩ := withHalf_ok h2
  exact ⟨s, a, b, r, rfl, h3⟩

theorem withNamed_ok {α : Type} {o : Option α} {k : α → Decoded} {x : Instr × List Byte} (h : withNamed o k = .ok x) :
    ∃ v, o = some v ∧ k v = .ok x := by
  match o, h with
  | some v, h => exact ⟨v, rfl, h⟩
  | none, h => cases h

theorem initOfByte_some {b : Byte} {a : InitArg} (h : initOfByte b = some a) : b = initByte a := by
  simp only [initOfByte] at h
  repeat (first | (split at h; · cases h; assumption) | cases h)

theorem tableOfByte_some {b : Byte} {t : Table} (h : tableOfByte b = some t) : b = tableByte t := by
  simp only [tableOfByte] at h
  repeat (first | (split at h; · cases h; assumption) | cases h)

theorem flagOfByte_some {b : Byte} {f : Bool} (h : flagOfByte b = some f) : b = flagByte f := by
  simp only [flagOfByte] at h
  repeat (first | (split at h; · cases h; assumption) | cases h)

/-! ### PDU layouts -/

theorem twoFields_ok {body : List Byte} {k : Half → Half → Except DecodeError Instr} {i : Instr}
    (h : twoFields body k = .ok i) : ∃ a b, body = [hi8 a, lo8 a, hi8 b, lo8 b] ∧ k a b = .ok i := by
  match body, h with
  | [a1, a0, b1, b0], h => exact ⟨be16 a1 a0, be16 b1 b0, by simp, h⟩
  | [], h => cases h
  | [_], h => cases h
  | [_, _], h => cases h
  | [_, _, _], h => cases h
  | _ :: _ :: _ :: _ :: _ :: _, h => cases h

theorem fieldsThenBytes_ok {body : List Byte} {k : Half → Half → List Byte → Except DecodeError Instr} {i : Instr}
    (h : fieldsThenBytes body k = .ok i) :
    ∃ a c bytes, body = [hi8 a, lo8 a, hi8 c, lo8 c] ++ bytes ∧ k a c bytes = .ok i := by
  match body, h with
  | a1 :: a0 :: c1 :: c0 :: bytes, h => exact ⟨be16 a1 a0, be16 c1 c0, bytes, by simp, h⟩
  | [], h => cases h
  | [_], h => cases h
  | [_, _], h => cases h
  | [_, _, _], h => cases h

theorem readWriteFields_ok {body : List Byte} {k : Half → Half → Half → Half → List Byte → Except DecodeError Instr}
    {i : Instr} (h : readWriteFields body k = .ok i) :
    ∃ r n w m bytes, body = [hi8 r, lo8 r, hi8 n, lo8 n, hi8 w, lo8 w, hi8 m, lo8 m] ++ bytes ∧ k r n w m bytes = .ok i := by
  match body, h with
  | r1 :: r0 :: n1 :: n0 :: w1 :: w0 :: m1 :: m0 :: bytes, h =>
    exact ⟨be16 r1 r0, be16 n1 n0, be16 w1 w0, be16 m1 m0, bytes, by simp, h⟩
  | [], h => cases h
  | [_], h => cases h
  | [_, _], h => cases h
  | [_, _, _], h => cases h
  | [_, _, _, _], h => cases h
  | [_, _, _, _, _], h => cases h
  | [_, _, _, _, _, _], h => cases h
  | [_, _, _, _, _, _, _], h => cases h

/-- The codes are the codes of the handlers and no others. -/
theorem knownCode_iff (fc : Byte) : knownCode fc = true ↔ ∃ h, codeOf h = fc := by
  simp only [knownCode, List.any_eq_true, decide_eq_true_eq]
  constructor
  · rintro ⟨h, -, e⟩; exact ⟨h, e⟩
  · rintro ⟨h, e⟩; exact ⟨h, by cases h <;> simp [allHandlers], e⟩

end Sys2Proof.Laws
end

