-- ==== Sys2Proof/Laws/State.lean ====
section
/-! SUPPORT. What each named operation leaves in each field of State: one lemma per field and operation. -/

namespace Sys2Proof.Laws

open Sys2Proof.Machine

@[simp] theorem markSendRejected_cfg (s : State) : (markSendRejected s).cfg = s.cfg := rfl
@[simp] theorem markSendRejected_protoState (s : State) : (markSendRejected s).protoState = s.protoState := rfl
@[simp] theorem markSendRejected_hfn (s : State) : (markSendRejected s).hfn = s.hfn := rfl
@[simp] theorem markSendRejected_errEvent (s : State) : (markSendRejected s).errEvent = s.errEvent := rfl
@[simp] theorem markSendRejected_rcvPduLen (s : State) : (markSendRejected s).rcvPduLen = s.rcvPduLen := rfl
@[simp] theorem markSendRejected_rxState (s : State) : (markSendRejected s).rxState = s.rxState := rfl
@[simp] theorem markSendRejected_txState (s : State) : (markSendRejected s).txState = s.txState := rfl
@[simp] theorem markSendRejected_rxbuf (s : State) : (markSendRejected s).rxbuf = s.rxbuf := rfl
@[simp] theorem markSendRejected_rxPos (s : State) : (markSendRejected s).rxPos = s.rxPos := rfl
@[simp] theorem markSendRejected_txbuf (s : State) : (markSendRejected s).txbuf = s.txbuf := rfl
@[simp] theorem markSendRejected_txCur (s : State) : (markSendRejected s).txCur = s.txCur := rfl
@[simp] theorem markSendRejected_txRem (s : State) : (markSendRejected s).txRem = s.txRem := rfl
@[simp] theorem markSendRejected_sndPduLen (s : State) : (markSendRejected s).sndPduLen = s.sndPduLen := rfl
@[simp] theorem markSendRejected_destAddr (s : State) : (markSendRejected s).destAddr = s.destAddr := rfl
@[simp] theorem markSendRejected_bcast (s : State) : (markSendRejected s).bcast = s.bcast := rfl
@[simp] theorem markSendRejected_lineMode (s : State) : (markSendRejected s).lineMode = s.lineMode := rfl
@[simp] theorem markSendRejected_running (s : State) : (markSendRejected s).running = s.running := rfl
@[simp] theorem markSendRejected_timer (s : State) : (markSendRejected s).timer = s.timer := rfl
@[simp] theorem markSendRejected_evq (s : State) : (markSendRejected s).evq = s.evq := rfl
@[simp] theorem markSendRejected_token (s : State) : (markSendRejected s).token = s.token := rfl
@[simp] theorem markSendRejected_sidBuf (s : State) : (markSendRejected s).sidBuf = s.sidBuf := rfl
@[simp] theorem markSendRejected_sidLen (s : State) : (markSendRejected s).sidLen = s.sidLen := rfl
@[simp] theorem markSendRejected_coils (s : State) : (markSendRejected s).coils = s.coils := rfl
@[simp] theorem markSendRejected_disc (s : State) : (markSendRejected s).disc = s.disc := rfl
@[simp] theorem markSendRejected_hold (s : State) : (markSendRejected s).hold = s.hold := rfl
@[simp] theorem markSendRejected_input (s : State) : (markSendRejected s).input = s.input := rfl
@[simp] theorem markSendRejected_faults (s : State) : (markSendRejected s).faults = { s.faults with sendRejected := true } := rfl
@[simp] theorem markSendRejected_refused (s : State) : (markSendRejected s).refused = s.refused := rfl
@[simp] theorem markSendRejected_wire (s : State) : (markSendRejected s).wire = s.wire := rfl
@[simp] theorem markSendRejected_results (s : State) : (markSendRejected s).results = s.results := rfl
@[simp] theorem markSendRejected_errorsRead (s : State) : (markSendRejected s).errorsRead = s.errorsRead := rfl
@[simp] theorem markSendRejected_program (s : State) : (markSendRejected s).program = s.program := rfl
@[simp] theorem markSendRejected_draws (s : State) : (markSendRejected s).draws = s.draws := rfl

@[simp] theorem markRefused_cfg (s : State) : (markRefused s).cfg = s.cfg := rfl
@[simp] theorem markRefused_protoState (s : State) : (markRefused s).protoState = s.protoState := rfl
@[simp] theorem markRefused_hfn (s : State) : (markRefused s).hfn = s.hfn := rfl
@[simp] theorem markRefused_errEvent (s : State) : (markRefused s).errEvent = s.errEvent := rfl
@[simp] theorem markRefused_rcvPduLen (s : State) : (markRefused s).rcvPduLen = s.rcvPduLen := rfl
@[simp] theorem markRefused_rxState (s : State) : (markRefused s).rxState = s.rxState := rfl
@[simp] theorem markRefused_txState (s : State) : (markRefused s).txState = s.txState := rfl
@[simp] theorem markRefused_rxbuf (s : State) : (markRefused s).rxbuf = s.rxbuf := rfl
@[simp] theorem markRefused_rxPos (s : State) : (markRefused s).rxPos = s.rxPos := rfl
@[simp] theorem markRefused_txbuf (s : State) : (markRefused s).txbuf = s.txbuf := rfl
@[simp] theorem markRefused_txCur (s : State) : (markRefused s).txCur = s.txCur := rfl
@[simp] theorem markRefused_txRem (s : State) : (markRefused s).txRem = s.txRem := rfl
@[simp] theorem markRefused_sndPduLen (s : State) : (markRefused s).sndPduLen = s.sndPduLen := rfl
@[simp] theorem markRefused_destAddr (s : State) : (markRefused s).destAddr = s.destAddr := rfl
@[simp] theorem markRefused_bcast (s : State) : (markRefused s).bcast = s.bcast := rfl
@[simp] theorem markRefused_lineMode (s : State) : (markRefused s).lineMode = s.lineMode := rfl
@[simp] theorem markRefused_running (s : State) : (markRefused s).running = s.running := rfl
@[simp] theorem markRefused_timer (s : State) : (markRefused s).timer = s.timer := rfl
@[simp] theorem markRefused_evq (s : State) : (markRefused s).evq = s.evq := rfl
@[simp] theorem markRefused_token (s : State) : (markRefused s).token = s.token := rfl
@[simp] theorem markRefused_sidBuf (s : State) : (markRefused s).sidBuf = s.sidBuf := rfl
@[simp] theorem markRefused_sidLen (s : State) : (markRefused s).sidLen = s.sidLen := rfl
@[simp] theorem markRefused_coils (s : State) : (markRefused s).coils = s.coils := rfl
@[simp] theorem markRefused_disc (s : State) : (markRefused s).disc = s.disc := rfl
@[simp] theorem markRefused_hold (s : State) : (markRefused s).hold = s.hold := rfl
@[simp] theorem markRefused_input (s : State) : (markRefused s).input = s.input := rfl
@[simp] theorem markRefused_faults (s : State) : (markRefused s).faults = s.faults := rfl
@[simp] theorem markRefused_refused (s : State) : (markRefused s).refused = true := rfl
@[simp] theorem markRefused_wire (s : State) : (markRefused s).wire = s.wire := rfl
@[simp] theorem markRefused_results (s : State) : (markRefused s).results = s.results := rfl
@[simp] theorem markRefused_errorsRead (s : State) : (markRefused s).errorsRead = s.errorsRead := rfl
@[simp] theorem markRefused_program (s : State) : (markRefused s).program = s.program := rfl
@[simp] theorem markRefused_draws (s : State) : (markRefused s).draws = s.draws := rfl

@[simp] theorem returns_cfg (r : ApiResult) (s : State) : (returns r s).cfg = s.cfg := rfl
@[simp] theorem returns_protoState (r : ApiResult) (s : State) : (returns r s).protoState = s.protoState := rfl
@[simp] theorem returns_hfn (r : ApiResult) (s : State) : (returns r s).hfn = s.hfn := rfl
@[simp] theorem returns_errEvent (r : ApiResult) (s : State) : (returns r s).errEvent = s.errEvent := rfl
@[simp] theorem returns_rcvPduLen (r : ApiResult) (s : State) : (returns r s).rcvPduLen = s.rcvPduLen := rfl
@[simp] theorem returns_rxState (r : ApiResult) (s : State) : (returns r s).rxState = s.rxState := rfl
@[simp] theorem returns_txState (r : ApiResult) (s : State) : (returns r s).txState = s.txState := rfl
@[simp] theorem returns_rxbuf (r : ApiResult) (s : State) : (returns r s).rxbuf = s.rxbuf := rfl
@[simp] theorem returns_rxPos (r : ApiResult) (s : State) : (returns r s).rxPos = s.rxPos := rfl
@[simp] theorem returns_txbuf (r : ApiResult) (s : State) : (returns r s).txbuf = s.txbuf := rfl
@[simp] theorem returns_txCur (r : ApiResult) (s : State) : (returns r s).txCur = s.txCur := rfl
@[simp] theorem returns_txRem (r : ApiResult) (s : State) : (returns r s).txRem = s.txRem := rfl
@[simp] theorem returns_sndPduLen (r : ApiResult) (s : State) : (returns r s).sndPduLen = s.sndPduLen := rfl
@[simp] theorem returns_destAddr (r : ApiResult) (s : State) : (returns r s).destAddr = s.destAddr := rfl
@[simp] theorem returns_bcast (r : ApiResult) (s : State) : (returns r s).bcast = s.bcast := rfl
@[simp] theorem returns_lineMode (r : ApiResult) (s : State) : (returns r s).lineMode = s.lineMode := rfl
@[simp] theorem returns_running (r : ApiResult) (s : State) : (returns r s).running = s.running := rfl
@[simp] theorem returns_timer (r : ApiResult) (s : State) : (returns r s).timer = s.timer := rfl
@[simp] theorem returns_evq (r : ApiResult) (s : State) : (returns r s).evq = s.evq := rfl
@[simp] theorem returns_token (r : ApiResult) (s : State) : (returns r s).token = s.token := rfl
@[simp] theorem returns_sidBuf (r : ApiResult) (s : State) : (returns r s).sidBuf = s.sidBuf := rfl
@[simp] theorem returns_sidLen (r : ApiResult) (s : State) : (returns r s).sidLen = s.sidLen := rfl
@[simp] theorem returns_coils (r : ApiResult) (s : State) : (returns r s).coils = s.coils := rfl
@[simp] theorem returns_disc (r : ApiResult) (s : State) : (returns r s).disc = s.disc := rfl
@[simp] theorem returns_hold (r : ApiResult) (s : State) : (returns r s).hold = s.hold := rfl
@[simp] theorem returns_input (r : ApiResult) (s : State) : (returns r s).input = s.input := rfl
@[simp] theorem returns_faults (r : ApiResult) (s : State) : (returns r s).faults = s.faults := rfl
@[simp] theorem returns_refused (r : ApiResult) (s : State) : (returns r s).refused = s.refused := rfl
@[simp] theorem returns_wire (r : ApiResult) (s : State) : (returns r s).wire = s.wire := rfl
@[simp] theorem returns_results (r : ApiResult) (s : State) : (returns r s).results = s.results ++ [r] := rfl
@[simp] theorem returns_errorsRead (r : ApiResult) (s : State) : (returns r s).errorsRead = s.errorsRead := rfl
@[simp] theorem returns_program (r : ApiResult) (s : State) : (returns r s).program = s.program := rfl
@[simp] theorem returns_draws (r : ApiResult) (s : State) : (returns r s).draws = s.draws := rfl

@[simp] theorem returnsCode_cfg (e : LocalError) (s : State) : (returnsCode e s).cfg = s.cfg := rfl
@[simp] theorem returnsCode_protoState (e : LocalError) (s : State) : (returnsCode e s).protoState = s.protoState := rfl
@[simp] theorem returnsCode_hfn (e : LocalError) (s : State) : (returnsCode e s).hfn = s.hfn := rfl
@[simp] theorem returnsCode_errEvent (e : LocalError) (s : State) : (returnsCode e s).errEvent = s.errEvent := rfl
@[simp] theorem returnsCode_rcvPduLen (e : LocalError) (s : State) : (returnsCode e s).rcvPduLen = s.rcvPduLen := rfl
@[simp] theorem returnsCode_rxState (e : LocalError) (s : State) : (returnsCode e s).rxState = s.rxState := rfl
@[simp] theorem returnsCode_txState (e : LocalError) (s : State) : (returnsCode e s).txState = s.txState := rfl
@[simp] theorem returnsCode_rxbuf (e : LocalError) (s : State) : (returnsCode e s).rxbuf = s.rxbuf := rfl
@[simp] theorem returnsCode_rxPos (e : LocalError) (s : State) : (returnsCode e s).rxPos = s.rxPos := rfl
@[simp] theorem returnsCode_txbuf (e : LocalError) (s : State) : (returnsCode e s).txbuf = s.txbuf := rfl
@[simp] theorem returnsCode_txCur (e : LocalError) (s : State) : (returnsCode e s).txCur = s.txCur := rfl
@[simp] theorem returnsCode_txRem (e : LocalError) (s : State) : (returnsCode e s).txRem = s.txRem := rfl
@[simp] theorem returnsCode_sndPduLen (e : LocalError) (s : State) : (returnsCode e s).sndPduLen = s.sndPduLen := rfl
@[simp] theorem returnsCode_destAddr (e : LocalError) (s : State) : (returnsCode e s).destAddr = s.destAddr := rfl
@[simp] theorem returnsCode_bcast (e : LocalError) (s : State) : (returnsCode e s).bcast = s.bcast := rfl
@[simp] theorem returnsCode_lineMode (e : LocalError) (s : State) : (returnsCode e s).lineMode = s.lineMode := rfl
@[simp] theorem returnsCode_running (e : LocalError) (s : State) : (returnsCode e s).running = s.running := rfl
@[simp] theorem returnsCode_timer (e : LocalError) (s : State) : (returnsCode e s).timer = s.timer := rfl
@[simp] theorem returnsCode_evq (e : LocalError) (s : State) : (returnsCode e s).evq = s.evq := rfl
@[simp] theorem returnsCode_token (e : LocalError) (s : State) : (returnsCode e s).token = s.token := rfl
@[simp] theorem returnsCode_sidBuf (e : LocalError) (s : State) : (returnsCode e s).sidBuf = s.sidBuf := rfl
@[simp] theorem returnsCode_sidLen (e : LocalError) (s : State) : (returnsCode e s).sidLen = s.sidLen := rfl
@[simp] theorem returnsCode_coils (e : LocalError) (s : State) : (returnsCode e s).coils = s.coils := rfl
@[simp] theorem returnsCode_disc (e : LocalError) (s : State) : (returnsCode e s).disc = s.disc := rfl
@[simp] theorem returnsCode_hold (e : LocalError) (s : State) : (returnsCode e s).hold = s.hold := rfl
@[simp] theorem returnsCode_input (e : LocalError) (s : State) : (returnsCode e s).input = s.input := rfl
@[simp] theorem returnsCode_faults (e : LocalError) (s : State) : (returnsCode e s).faults = s.faults := rfl
@[simp] theorem returnsCode_refused (e : LocalError) (s : State) : (returnsCode e s).refused = s.refused := rfl
@[simp] theorem returnsCode_wire (e : LocalError) (s : State) : (returnsCode e s).wire = s.wire := rfl
@[simp] theorem returnsCode_results (e : LocalError) (s : State) : (returnsCode e s).results = s.results ++ [.code e] := rfl
@[simp] theorem returnsCode_errorsRead (e : LocalError) (s : State) : (returnsCode e s).errorsRead = s.errorsRead := rfl
@[simp] theorem returnsCode_program (e : LocalError) (s : State) : (returnsCode e s).program = s.program := rfl
@[simp] theorem returnsCode_draws (e : LocalError) (s : State) : (returnsCode e s).draws = s.draws := rfl

@[simp] theorem post_cfg (ev : Event) (s : State) : (post ev s).cfg = s.cfg := rfl
@[simp] theorem post_protoState (ev : Event) (s : State) : (post ev s).protoState = s.protoState := rfl
@[simp] theorem post_hfn (ev : Event) (s : State) : (post ev s).hfn = s.hfn := rfl
@[simp] theorem post_errEvent (ev : Event) (s : State) : (post ev s).errEvent = s.errEvent := rfl
@[simp] theorem post_rcvPduLen (ev : Event) (s : State) : (post ev s).rcvPduLen = s.rcvPduLen := rfl
@[simp] theorem post_rxState (ev : Event) (s : State) : (post ev s).rxState = s.rxState := rfl
@[simp] theorem post_txState (ev : Event) (s : State) : (post ev s).txState = s.txState := rfl
@[simp] theorem post_rxbuf (ev : Event) (s : State) : (post ev s).rxbuf = s.rxbuf := rfl
@[simp] theorem post_rxPos (ev : Event) (s : State) : (post ev s).rxPos = s.rxPos := rfl
@[simp] theorem post_txbuf (ev : Event) (s : State) : (post ev s).txbuf = s.txbuf := rfl
@[simp] theorem post_txCur (ev : Event) (s : State) : (post ev s).txCur = s.txCur := rfl
@[simp] theorem post_txRem (ev : Event) (s : State) : (post ev s).txRem = s.txRem := rfl
@[simp] theorem post_sndPduLen (ev : Event) (s : State) : (post ev s).sndPduLen = s.sndPduLen := rfl
@[simp] theorem post_destAddr (ev : Event) (s : State) : (post ev s).destAddr = s.destAddr := rfl
@[simp] theorem post_bcast (ev : Event) (s : State) : (post ev s).bcast = s.bcast := rfl
@[simp] theorem post_lineMode (ev : Event) (s : State) : (post ev s).lineMode = s.lineMode := rfl
@[simp] theorem post_running (ev : Event) (s : State) : (post ev s).running = s.running := rfl
@[simp] theorem post_timer (ev : Event) (s : State) : (post ev s).timer = s.timer := rfl
@[simp] theorem post_evq (ev : Event) (s : State) : (post ev s).evq = if s.evq.length < s.cfg.evqCap then s.evq ++ [ev] else s.evq := rfl
@[simp] theorem post_token (ev : Event) (s : State) : (post ev s).token = s.token := rfl
@[simp] theorem post_sidBuf (ev : Event) (s : State) : (post ev s).sidBuf = s.sidBuf := rfl
@[simp] theorem post_sidLen (ev : Event) (s : State) : (post ev s).sidLen = s.sidLen := rfl
@[simp] theorem post_coils (ev : Event) (s : State) : (post ev s).coils = s.coils := rfl
@[simp] theorem post_disc (ev : Event) (s : State) : (post ev s).disc = s.disc := rfl
@[simp] theorem post_hold (ev : Event) (s : State) : (post ev s).hold = s.hold := rfl
@[simp] theorem post_input (ev : Event) (s : State) : (post ev s).input = s.input := rfl
@[simp] theorem post_faults (ev : Event) (s : State) : (post ev s).faults = if s.evq.length < s.cfg.evqCap then s.faults else { s.faults with eventQueueOverflow := true } := rfl
@[simp] theorem post_refused (ev : Event) (s : State) : (post ev s).refused = s.refused := rfl
@[simp] theorem post_wire (ev : Event) (s : State) : (post ev s).wire = s.wire := rfl
@[simp] theorem post_results (ev : Event) (s : State) : (post ev s).results = s.results := rfl
@[simp] theorem post_errorsRead (ev : Event) (s : State) : (post ev s).errorsRead = s.errorsRead := rfl
@[simp] theorem post_program (ev : Event) (s : State) : (post ev s).program = s.program := rfl
@[simp] theorem post_draws (ev : Event) (s : State) : (post ev s).draws = s.draws := rfl

@[simp] theorem evqInit_cfg (s : State) : (evqInit s).cfg = s.cfg := rfl
@[simp] theorem evqInit_protoState (s : State) : (evqInit s).protoState = s.protoState := rfl
@[simp] theorem evqInit_hfn (s : State) : (evqInit s).hfn = s.hfn := rfl
@[simp] theorem evqInit_errEvent (s : State) : (evqInit s).errEvent = s.errEvent := rfl
@[simp] theorem evqInit_rcvPduLen (s : State) : (evqInit s).rcvPduLen = s.rcvPduLen := rfl
@[simp] theorem evqInit_rxState (s : State) : (evqInit s).rxState = s.rxState := rfl
@[simp] theorem evqInit_txState (s : State) : (evqInit s).txState = s.txState := rfl
@[simp] theorem evqInit_rxbuf (s : State) : (evqInit s).rxbuf = s.rxbuf := rfl
@[simp] theorem evqInit_rxPos (s : State) : (evqInit s).rxPos = s.rxPos := rfl
@[simp] theorem evqInit_txbuf (s : State) : (evqInit s).txbuf = s.txbuf := rfl
@[simp] theorem evqInit_txCur (s : State) : (evqInit s).txCur = s.txCur := rfl
@[simp] theorem evqInit_txRem (s : State) : (evqInit s).txRem = s.txRem := rfl
@[simp] theorem evqInit_sndPduLen (s : State) : (evqInit s).sndPduLen = s.sndPduLen := rfl
@[simp] theorem evqInit_destAddr (s : State) : (evqInit s).destAddr = s.destAddr := rfl
@[simp] theorem evqInit_bcast (s : State) : (evqInit s).bcast = s.bcast := rfl
@[simp] theorem evqInit_lineMode (s : State) : (evqInit s).lineMode = s.lineMode := rfl
@[simp] theorem evqInit_running (s : State) : (evqInit s).running = s.running := rfl
@[simp] theorem evqInit_timer (s : State) : (evqInit s).timer = s.timer := rfl
@[simp] theorem evqInit_evq (s : State) : (evqInit s).evq = [] := rfl
@[simp] theorem evqInit_token (s : State) : (evqInit s).token = s.token := rfl
@[simp] theorem evqInit_sidBuf (s : State) : (evqInit s).sidBuf = s.sidBuf := rfl
@[simp] theorem evqInit_sidLen (s : State) : (evqInit s).sidLen = s.sidLen := rfl
@[simp] theorem evqInit_coils (s : State) : (evqInit s).coils = s.coils := rfl
@[simp] theorem evqInit_disc (s : State) : (evqInit s).disc = s.disc := rfl
@[simp] theorem evqInit_hold (s : State) : (evqInit s).hold = s.hold := rfl
@[simp] theorem evqInit_input (s : State) : (evqInit s).input = s.input := rfl
@[simp] theorem evqInit_faults (s : State) : (evqInit s).faults = s.faults := rfl
@[simp] theorem evqInit_refused (s : State) : (evqInit s).refused = s.refused := rfl
@[simp] theorem evqInit_wire (s : State) : (evqInit s).wire = s.wire := rfl
@[simp] theorem evqInit_results (s : State) : (evqInit s).results = s.results := rfl
@[simp] theorem evqInit_errorsRead (s : State) : (evqInit s).errorsRead = s.errorsRead := rfl
@[simp] theorem evqInit_program (s : State) : (evqInit s).program = s.program := rfl
@[simp] theorem evqInit_draws (s : State) : (evqInit s).draws = s.draws := rfl

@[simp] theorem tokenInit_cfg (s : State) : (tokenInit s).cfg = s.cfg := rfl
@[simp] theorem tokenInit_protoState (s : State) : (tokenInit s).protoState = s.protoState := rfl
@[simp] theorem tokenInit_hfn (s : State) : (tokenInit s).hfn = s.hfn := rfl
@[simp] theorem tokenInit_errEvent (s : State) : (tokenInit s).errEvent = s.errEvent := rfl
@[simp] theorem tokenInit_rcvPduLen (s : State) : (tokenInit s).rcvPduLen = s.rcvPduLen := rfl
@[simp] theorem tokenInit_rxState (s : State) : (tokenInit s).rxState = s.rxState := rfl
@[simp] theorem tokenInit_txState (s : State) : (tokenInit s).txState = s.txState := rfl
@[simp] theorem tokenInit_rxbuf (s : State) : (tokenInit s).rxbuf = s.rxbuf := rfl
@[simp] theorem tokenInit_rxPos (s : State) : (tokenInit s).rxPos = s.rxPos := rfl
@[simp] theorem tokenInit_txbuf (s : State) : (tokenInit s).txbuf = s.txbuf := rfl
@[simp] theorem tokenInit_txCur (s : State) : (tokenInit s).txCur = s.txCur := rfl
@[simp] theorem tokenInit_txRem (s : State) : (tokenInit s).txRem = s.txRem := rfl
@[simp] theorem tokenInit_sndPduLen (s : State) : (tokenInit s).sndPduLen = s.sndPduLen := rfl
@[simp] theorem tokenInit_destAddr (s : State) : (tokenInit s).destAddr = s.destAddr := rfl
@[simp] theorem tokenInit_bcast (s : State) : (tokenInit s).bcast = s.bcast := rfl
@[simp] theorem tokenInit_lineMode (s : State) : (tokenInit s).lineMode = s.lineMode := rfl
@[simp] theorem tokenInit_running (s : State) : (tokenInit s).running = s.running := rfl
@[simp] theorem tokenInit_timer (s : State) : (tokenInit s).timer = s.timer := rfl
@[simp] theorem tokenInit_evq (s : State) : (tokenInit s).evq = s.evq := rfl
@[simp] theorem tokenInit_token (s : State) : (tokenInit s).token = .free := rfl
@[simp] theorem tokenInit_sidBuf (s : State) : (tokenInit s).sidBuf = s.sidBuf := rfl
@[simp] theorem tokenInit_sidLen (s : State) : (tokenInit s).sidLen = s.sidLen := rfl
@[simp] theorem tokenInit_coils (s : State) : (tokenInit s).coils = s.coils := rfl
@[simp] theorem tokenInit_disc (s : State) : (tokenInit s).disc = s.disc := rfl
@[simp] theorem tokenInit_hold (s : State) : (tokenInit s).hold = s.hold := rfl
@[simp] theorem tokenInit_input (s : State) : (tokenInit s).input = s.input := rfl
@[simp] theorem tokenInit_faults (s : State) : (tokenInit s).faults = s.faults := rfl
@[simp] theorem tokenInit_refused (s : State) : (tokenInit s).refused = s.refused := rfl
@[simp] theorem tokenInit_wire (s : State) : (tokenInit s).wire = s.wire := rfl
@[simp] theorem tokenInit_results (s : State) : (tokenInit s).results = s.results := rfl
@[simp] theorem tokenInit_errorsRead (s : State) : (tokenInit s).errorsRead = s.errorsRead := rfl
@[simp] theorem tokenInit_program (s : State) : (tokenInit s).program = s.program := rfl
@[simp] theorem tokenInit_draws (s : State) : (tokenInit s).draws = s.draws := rfl

@[simp] theorem tokenTake_cfg (s : State) : (tokenTake s).cfg = s.cfg := rfl
@[simp] theorem tokenTake_protoState (s : State) : (tokenTake s).protoState = s.protoState := rfl
@[simp] theorem tokenTake_hfn (s : State) : (tokenTake s).hfn = s.hfn := rfl
@[simp] theorem tokenTake_errEvent (s : State) : (tokenTake s).errEvent = s.errEvent := rfl
@[simp] theorem tokenTake_rcvPduLen (s : State) : (tokenTake s).rcvPduLen = s.rcvPduLen := rfl
@[simp] theorem tokenTake_rxState (s : State) : (tokenTake s).rxState = s.rxState := rfl
@[simp] theorem tokenTake_txState (s : State) : (tokenTake s).txState = s.txState := rfl
@[simp] theorem tokenTake_rxbuf (s : State) : (tokenTake s).rxbuf = s.rxbuf := rfl
@[simp] theorem tokenTake_rxPos (s : State) : (tokenTake s).rxPos = s.rxPos := rfl
@[simp] theorem tokenTake_txbuf (s : State) : (tokenTake s).txbuf = s.txbuf := rfl
@[simp] theorem tokenTake_txCur (s : State) : (tokenTake s).txCur = s.txCur := rfl
@[simp] theorem tokenTake_txRem (s : State) : (tokenTake s).txRem = s.txRem := rfl
@[simp] theorem tokenTake_sndPduLen (s : State) : (tokenTake s).sndPduLen = s.sndPduLen := rfl
@[simp] theorem tokenTake_destAddr (s : State) : (tokenTake s).destAddr = s.destAddr := rfl
@[simp] theorem tokenTake_bcast (s : State) : (tokenTake s).bcast = s.bcast := rfl
@[simp] theorem tokenTake_lineMode (s : State) : (tokenTake s).lineMode = s.lineMode := rfl
@[simp] theorem tokenTake_running (s : State) : (tokenTake s).running = s.running := rfl
@[simp] theorem tokenTake_timer (s : State) : (tokenTake s).timer = s.timer := rfl
@[simp] theorem tokenTake_evq (s : State) : (tokenTake s).evq = s.evq := rfl
@[simp] theorem tokenTake_token (s : State) : (tokenTake s).token = .held := rfl
@[simp] theorem tokenTake_sidBuf (s : State) : (tokenTake s).sidBuf = s.sidBuf := rfl
@[simp] theorem tokenTake_sidLen (s : State) : (tokenTake s).sidLen = s.sidLen := rfl
@[simp] theorem tokenTake_coils (s : State) : (tokenTake s).coils = s.coils := rfl
@[simp] theorem tokenTake_disc (s : State) : (tokenTake s).disc = s.disc := rfl
@[simp] theorem tokenTake_hold (s : State) : (tokenTake s).hold = s.hold := rfl
@[simp] theorem tokenTake_input (s : State) : (tokenTake s).input = s.input := rfl
@[simp] theorem tokenTake_faults (s : State) : (tokenTake s).faults = s.faults := rfl
@[simp] theorem tokenTake_refused (s : State) : (tokenTake s).refused = s.refused := rfl
@[simp] theorem tokenTake_wire (s : State) : (tokenTake s).wire = s.wire := rfl
@[simp] theorem tokenTake_results (s : State) : (tokenTake s).results = s.results := rfl
@[simp] theorem tokenTake_errorsRead (s : State) : (tokenTake s).errorsRead = s.errorsRead := rfl
@[simp] theorem tokenTake_program (s : State) : (tokenTake s).program = s.program := rfl
@[simp] theorem tokenTake_draws (s : State) : (tokenTake s).draws = s.draws := rfl

@[simp] theorem tokenRelease_cfg (s : State) : (tokenRelease s).cfg = s.cfg := rfl
@[simp] theorem tokenRelease_protoState (s : State) : (tokenRelease s).protoState = s.protoState := rfl
@[simp] theorem tokenRelease_hfn (s : State) : (tokenRelease s).hfn = s.hfn := rfl
@[simp] theorem tokenRelease_errEvent (s : State) : (tokenRelease s).errEvent = s.errEvent := rfl
@[simp] theorem tokenRelease_rcvPduLen (s : State) : (tokenRelease s).rcvPduLen = s.rcvPduLen := rfl
@[simp] theorem tokenRelease_rxState (s : State) : (tokenRelease s).rxState = s.rxState := rfl
@[simp] theorem tokenRelease_txState (s : State) : (tokenRelease s).txState = s.txState := rfl
@[simp] theorem tokenRelease_rxbuf (s : State) : (tokenRelease s).rxbuf = s.rxbuf := rfl
@[simp] theorem tokenRelease_rxPos (s : State) : (tokenRelease s).rxPos = s.rxPos := rfl
@[simp] theorem tokenRelease_txbuf (s : State) : (tokenRelease s).txbuf = s.txbuf := rfl
@[simp] theorem tokenRelease_txCur (s : State) : (tokenRelease s).txCur = s.txCur := rfl
@[simp] theorem tokenRelease_txRem (s : State) : (tokenRelease s).txRem = s.txRem := rfl
@[simp] theorem tokenRelease_sndPduLen (s : State) : (tokenRelease s).sndPduLen = s.sndPduLen := rfl
@[simp] theorem tokenRelease_destAddr (s : State) : (tokenRelease s).destAddr = s.destAddr := rfl
@[simp] theorem tokenRelease_bcast (s : State) : (tokenRelease s).bcast = s.bcast := rfl
@[simp] theorem tokenRelease_lineMode (s : State) : (tokenRelease s).lineMode = s.lineMode := rfl
@[simp] theorem tokenRelease_running (s : State) : (tokenRelease s).running = s.running := rfl
@[simp] theorem tokenRelease_timer (s : State) : (tokenRelease s).timer = s.timer := rfl
@[simp] theorem tokenRelease_evq (s : State) : (tokenRelease s).evq = s.evq := rfl
@[simp] theorem tokenRelease_token (s : State) : (tokenRelease s).token = .free := rfl
@[simp] theorem tokenRelease_sidBuf (s : State) : (tokenRelease s).sidBuf = s.sidBuf := rfl
@[simp] theorem tokenRelease_sidLen (s : State) : (tokenRelease s).sidLen = s.sidLen := rfl
@[simp] theorem tokenRelease_coils (s : State) : (tokenRelease s).coils = s.coils := rfl
@[simp] theorem tokenRelease_disc (s : State) : (tokenRelease s).disc = s.disc := rfl
@[simp] theorem tokenRelease_hold (s : State) : (tokenRelease s).hold = s.hold := rfl
@[simp] theorem tokenRelease_input (s : State) : (tokenRelease s).input = s.input := rfl
@[simp] theorem tokenRelease_faults (s : State) : (tokenRelease s).faults = s.faults := rfl
@[simp] theorem tokenRelease_refused (s : State) : (tokenRelease s).refused = s.refused := rfl
@[simp] theorem tokenRelease_wire (s : State) : (tokenRelease s).wire = s.wire := rfl
@[simp] theorem tokenRelease_results (s : State) : (tokenRelease s).results = s.results := rfl
@[simp] theorem tokenRelease_errorsRead (s : State) : (tokenRelease s).errorsRead = s.errorsRead := rfl
@[simp] theorem tokenRelease_program (s : State) : (tokenRelease s).program = s.program := rfl
@[simp] theorem tokenRelease_draws (s : State) : (tokenRelease s).draws = s.draws := rfl

@[simp] theorem setMode_cfg (m : LineMode) (s : State) : (setMode m s).cfg = s.cfg := rfl
@[simp] theorem setMode_protoState (m : LineMode) (s : State) : (setMode m s).protoState = s.protoState := rfl
@[simp] theorem setMode_hfn (m : LineMode) (s : State) : (setMode m s).hfn = s.hfn := rfl
@[simp] theorem setMode_errEvent (m : LineMode) (s : State) : (setMode m s).errEvent = s.errEvent := rfl
@[simp] theorem setMode_rcvPduLen (m : LineMode) (s : State) : (setMode m s).rcvPduLen = s.rcvPduLen := rfl
@[simp] theorem setMode_rxState (m : LineMode) (s : State) : (setMode m s).rxState = s.rxState := rfl
@[simp] theorem setMode_txState (m : LineMode) (s : State) : (setMode m s).txState = s.txState := rfl
@[simp] theorem setMode_rxbuf (m : LineMode) (s : State) : (setMode m s).rxbuf = s.rxbuf := rfl
@[simp] theorem setMode_rxPos (m : LineMode) (s : State) : (setMode m s).rxPos = s.rxPos := rfl
@[simp] theorem setMode_txbuf (m : LineMode) (s : State) : (setMode m s).txbuf = s.txbuf := rfl
@[simp] theorem setMode_txCur (m : LineMode) (s : State) : (setMode m s).txCur = s.txCur := rfl
@[simp] theorem setMode_txRem (m : LineMode) (s : State) : (setMode m s).txRem = s.txRem := rfl
@[simp] theorem setMode_sndPduLen (m : LineMode) (s : State) : (setMode m s).sndPduLen = s.sndPduLen := rfl
@[simp] theorem setMode_destAddr (m : LineMode) (s : State) : (setMode m s).destAddr = s.destAddr := rfl
@[simp] theorem setMode_bcast (m : LineMode) (s : State) : (setMode m s).bcast = s.bcast := rfl
@[simp] theorem setMode_lineMode (m : LineMode) (s : State) : (setMode m s).lineMode = m := rfl
@[simp] theorem setMode_running (m : LineMode) (s : State) : (setMode m s).running = s.running := rfl
@[simp] theorem setMode_timer (m : LineMode) (s : State) : (setMode m s).timer = s.timer := rfl
@[simp] theorem setMode_evq (m : LineMode) (s : State) : (setMode m s).evq = s.evq := rfl
@[simp] theorem setMode_token (m : LineMode) (s : State) : (setMode m s).token = s.token := rfl
@[simp] theorem setMode_sidBuf (m : LineMode) (s : State) : (setMode m s).sidBuf = s.sidBuf := rfl
@[simp] theorem setMode_sidLen (m : LineMode) (s : State) : (setMode m s).sidLen = s.sidLen := rfl
@[simp] theorem setMode_coils (m : LineMode) (s : State) : (setMode m s).coils = s.coils := rfl
@[simp] theorem setMode_disc (m : LineMode) (s : State) : (setMode m s).disc = s.disc := rfl
@[simp] theorem setMode_hold (m : LineMode) (s : State) : (setMode m s).hold = s.hold := rfl
@[simp] theorem setMode_input (m : LineMode) (s : State) : (setMode m s).input = s.input := rfl
@[simp] theorem setMode_faults (m : LineMode) (s : State) : (setMode m s).faults = s.faults := rfl
@[simp] theorem setMode_refused (m : LineMode) (s : State) : (setMode m s).refused = s.refused := rfl
@[simp] theorem setMode_wire (m : LineMode) (s : State) : (setMode m s).wire = s.wire := rfl
@[simp] theorem setMode_results (m : LineMode) (s : State) : (setMode m s).results = s.results := rfl
@[simp] theorem setMode_errorsRead (m : LineMode) (s : State) : (setMode m s).errorsRead = s.errorsRead := rfl
@[simp] theorem setMode_program (m : LineMode) (s : State) : (setMode m s).program = s.program := rfl
@[simp] theorem setMode_draws (m : LineMode) (s : State) : (setMode m s).draws = s.draws := rfl

@[simp] theorem putByte_cfg (b : Byte) (s : State) : (putByte b s).cfg = s.cfg := rfl
@[simp] theorem putByte_protoState (b : Byte) (s : State) : (putByte b s).protoState = s.protoState := rfl
@[simp] theorem putByte_hfn (b : Byte) (s : State) : (putByte b s).hfn = s.hfn := rfl
@[simp] theorem putByte_errEvent (b : Byte) (s : State) : (putByte b s).errEvent = s.errEvent := rfl
@[simp] theorem putByte_rcvPduLen (b : Byte) (s : State) : (putByte b s).rcvPduLen = s.rcvPduLen := rfl
@[simp] theorem putByte_rxState (b : Byte) (s : State) : (putByte b s).rxState = s.rxState := rfl
@[simp] theorem putByte_txState (b : Byte) (s : State) : (putByte b s).txState = s.txState := rfl
@[simp] theorem putByte_rxbuf (b : Byte) (s : State) : (putByte b s).rxbuf = s.rxbuf := rfl
@[simp] theorem putByte_rxPos (b : Byte) (s : State) : (putByte b s).rxPos = s.rxPos := rfl
@[simp] theorem putByte_txbuf (b : Byte) (s : State) : (putByte b s).txbuf = s.txbuf := rfl
@[simp] theorem putByte_txCur (b : Byte) (s : State) : (putByte b s).txCur = s.txCur := rfl
@[simp] theorem putByte_txRem (b : Byte) (s : State) : (putByte b s).txRem = s.txRem := rfl
@[simp] theorem putByte_sndPduLen (b : Byte) (s : State) : (putByte b s).sndPduLen = s.sndPduLen := rfl
@[simp] theorem putByte_destAddr (b : Byte) (s : State) : (putByte b s).destAddr = s.destAddr := rfl
@[simp] theorem putByte_bcast (b : Byte) (s : State) : (putByte b s).bcast = s.bcast := rfl
@[simp] theorem putByte_lineMode (b : Byte) (s : State) : (putByte b s).lineMode = s.lineMode := rfl
@[simp] theorem putByte_running (b : Byte) (s : State) : (putByte b s).running = s.running := rfl
@[simp] theorem putByte_timer (b : Byte) (s : State) : (putByte b s).timer = s.timer := rfl
@[simp] theorem putByte_evq (b : Byte) (s : State) : (putByte b s).evq = s.evq := rfl
@[simp] theorem putByte_token (b : Byte) (s : State) : (putByte b s).token = s.token := rfl
@[simp] theorem putByte_sidBuf (b : Byte) (s : State) : (putByte b s).sidBuf = s.sidBuf := rfl
@[simp] theorem putByte_sidLen (b : Byte) (s : State) : (putByte b s).sidLen = s.sidLen := rfl
@[simp] theorem putByte_coils (b : Byte) (s : State) : (putByte b s).coils = s.coils := rfl
@[simp] theorem putByte_disc (b : Byte) (s : State) : (putByte b s).disc = s.disc := rfl
@[simp] theorem putByte_hold (b : Byte) (s : State) : (putByte b s).hold = s.hold := rfl
@[simp] theorem putByte_input (b : Byte) (s : State) : (putByte b s).input = s.input := rfl
@[simp] theorem putByte_faults (b : Byte) (s : State) : (putByte b s).faults = s.faults := rfl
@[simp] theorem putByte_refused (b : Byte) (s : State) : (putByte b s).refused = s.refused := rfl
@[simp] theorem putByte_wire (b : Byte) (s : State) : (putByte b s).wire = s.wire ++ [b] := rfl
@[simp] theorem putByte_results (b : Byte) (s : State) : (putByte b s).results = s.results := rfl
@[simp] theorem putByte_errorsRead (b : Byte) (s : State) : (putByte b s).errorsRead = s.errorsRead := rfl
@[simp] theorem putByte_program (b : Byte) (s : State) : (putByte b s).program = s.program := rfl
@[simp] theorem putByte_draws (b : Byte) (s : State) : (putByte b s).draws = s.draws := rfl

@[simp] theorem timerInit_cfg (s : State) : (timerInit s).cfg = s.cfg := rfl
@[simp] theorem timerInit_protoState (s : State) : (timerInit s).protoState = s.protoState := rfl
@[simp] theorem timerInit_hfn (s : State) : (timerInit s).hfn = s.hfn := rfl
@[simp] theorem timerInit_errEvent (s : State) : (timerInit s).errEvent = s.errEvent := rfl
@[simp] theorem timerInit_rcvPduLen (s : State) : (timerInit s).rcvPduLen = s.rcvPduLen := rfl
@[simp] theorem timerInit_rxState (s : State) : (timerInit s).rxState = s.rxState := rfl
@[simp] theorem timerInit_txState (s : State) : (timerInit s).txState = s.txState := rfl
@[simp] theorem timerInit_rxbuf (s : State) : (timerInit s).rxbuf = s.rxbuf := rfl
@[simp] theorem timerInit_rxPos (s : State) : (timerInit s).rxPos = s.rxPos := rfl
@[simp] theorem timerInit_txbuf (s : State) : (timerInit s).txbuf = s.txbuf := rfl
@[simp] theorem timerInit_txCur (s : State) : (timerInit s).txCur = s.txCur := rfl
@[simp] theorem timerInit_txRem (s : State) : (timerInit s).txRem = s.txRem := rfl
@[simp] theorem timerInit_sndPduLen (s : State) : (timerInit s).sndPduLen = s.sndPduLen := rfl
@[simp] theorem timerInit_destAddr (s : State) : (timerInit s).destAddr = s.destAddr := rfl
@[simp] theorem timerInit_bcast (s : State) : (timerInit s).bcast = s.bcast := rfl
@[simp] theorem timerInit_lineMode (s : State) : (timerInit s).lineMode = s.lineMode := rfl
@[simp] theorem timerInit_running (s : State) : (timerInit s).running = s.running := rfl
@[simp] theorem timerInit_timer (s : State) : (timerInit s).timer = .off := rfl
@[simp] theorem timerInit_evq (s : State) : (timerInit s).evq = s.evq := rfl
@[simp] theorem timerInit_token (s : State) : (timerInit s).token = s.token := rfl
@[simp] theorem timerInit_sidBuf (s : State) : (timerInit s).sidBuf = s.sidBuf := rfl
@[simp] theorem timerInit_sidLen (s : State) : (timerInit s).sidLen = s.sidLen := rfl
@[simp] theorem timerInit_coils (s : State) : (timerInit s).coils = s.coils := rfl
@[simp] theorem timerInit_disc (s : State) : (timerInit s).disc = s.disc := rfl
@[simp] theorem timerInit_hold (s : State) : (timerInit s).hold = s.hold := rfl
@[simp] theorem timerInit_input (s : State) : (timerInit s).input = s.input := rfl
@[simp] theorem timerInit_faults (s : State) : (timerInit s).faults = s.faults := rfl
@[simp] theorem timerInit_refused (s : State) : (timerInit s).refused = s.refused := rfl
@[simp] theorem timerInit_wire (s : State) : (timerInit s).wire = s.wire := rfl
@[simp] theorem timerInit_results (s : State) : (timerInit s).results = s.results := rfl
@[simp] theorem timerInit_errorsRead (s : State) : (timerInit s).errorsRead = s.errorsRead := rfl
@[simp] theorem timerInit_program (s : State) : (timerInit s).program = s.program := rfl
@[simp] theorem timerInit_draws (s : State) : (timerInit s).draws = s.draws := rfl

@[simp] theorem timerEnable_cfg (p : TimerPurpose) (s : State) : (timerEnable p s).cfg = s.cfg := rfl
@[simp] theorem timerEnable_protoState (p : TimerPurpose) (s : State) : (timerEnable p s).protoState = s.protoState := rfl
@[simp] theorem timerEnable_hfn (p : TimerPurpose) (s : State) : (timerEnable p s).hfn = s.hfn := rfl
@[simp] theorem timerEnable_errEvent (p : TimerPurpose) (s : State) : (timerEnable p s).errEvent = s.errEvent := rfl
@[simp] theorem timerEnable_rcvPduLen (p : TimerPurpose) (s : State) : (timerEnable p s).rcvPduLen = s.rcvPduLen := rfl
@[simp] theorem timerEnable_rxState (p : TimerPurpose) (s : State) : (timerEnable p s).rxState = s.rxState := rfl
@[simp] theorem timerEnable_txState (p : TimerPurpose) (s : State) : (timerEnable p s).txState = s.txState := rfl
@[simp] theorem timerEnable_rxbuf (p : TimerPurpose) (s : State) : (timerEnable p s).rxbuf = s.rxbuf := rfl
@[simp] theorem timerEnable_rxPos (p : TimerPurpose) (s : State) : (timerEnable p s).rxPos = s.rxPos := rfl
@[simp] theorem timerEnable_txbuf (p : TimerPurpose) (s : State) : (timerEnable p s).txbuf = s.txbuf := rfl
@[simp] theorem timerEnable_txCur (p : TimerPurpose) (s : State) : (timerEnable p s).txCur = s.txCur := rfl
@[simp] theorem timerEnable_txRem (p : TimerPurpose) (s : State) : (timerEnable p s).txRem = s.txRem := rfl
@[simp] theorem timerEnable_sndPduLen (p : TimerPurpose) (s : State) : (timerEnable p s).sndPduLen = s.sndPduLen := rfl
@[simp] theorem timerEnable_destAddr (p : TimerPurpose) (s : State) : (timerEnable p s).destAddr = s.destAddr := rfl
@[simp] theorem timerEnable_bcast (p : TimerPurpose) (s : State) : (timerEnable p s).bcast = s.bcast := rfl
@[simp] theorem timerEnable_lineMode (p : TimerPurpose) (s : State) : (timerEnable p s).lineMode = s.lineMode := rfl
@[simp] theorem timerEnable_running (p : TimerPurpose) (s : State) : (timerEnable p s).running = s.running := rfl
@[simp] theorem timerEnable_timer (p : TimerPurpose) (s : State) : (timerEnable p s).timer = .armed p := rfl
@[simp] theorem timerEnable_evq (p : TimerPurpose) (s : State) : (timerEnable p s).evq = s.evq := rfl
@[simp] theorem timerEnable_token (p : TimerPurpose) (s : State) : (timerEnable p s).token = s.token := rfl
@[simp] theorem timerEnable_sidBuf (p : TimerPurpose) (s : State) : (timerEnable p s).sidBuf = s.sidBuf := rfl
@[simp] theorem timerEnable_sidLen (p : TimerPurpose) (s : State) : (timerEnable p s).sidLen = s.sidLen := rfl
@[simp] theorem timerEnable_coils (p : TimerPurpose) (s : State) : (timerEnable p s).coils = s.coils := rfl
@[simp] theorem timerEnable_disc (p : TimerPurpose) (s : State) : (timerEnable p s).disc = s.disc := rfl
@[simp] theorem timerEnable_hold (p : TimerPurpose) (s : State) : (timerEnable p s).hold = s.hold := rfl
@[simp] theorem timerEnable_input (p : TimerPurpose) (s : State) : (timerEnable p s).input = s.input := rfl
@[simp] theorem timerEnable_faults (p : TimerPurpose) (s : State) : (timerEnable p s).faults = s.faults := rfl
@[simp] theorem timerEnable_refused (p : TimerPurpose) (s : State) : (timerEnable p s).refused = s.refused := rfl
@[simp] theorem timerEnable_wire (p : TimerPurpose) (s : State) : (timerEnable p s).wire = s.wire := rfl
@[simp] theorem timerEnable_results (p : TimerPurpose) (s : State) : (timerEnable p s).results = s.results := rfl
@[simp] theorem timerEnable_errorsRead (p : TimerPurpose) (s : State) : (timerEnable p s).errorsRead = s.errorsRead := rfl
@[simp] theorem timerEnable_program (p : TimerPurpose) (s : State) : (timerEnable p s).program = s.program := rfl
@[simp] theorem timerEnable_draws (p : TimerPurpose) (s : State) : (timerEnable p s).draws = s.draws := rfl

@[simp] theorem timerDisable_cfg (s : State) : (timerDisable s).cfg = s.cfg := rfl
@[simp] theorem timerDisable_protoState (s : State) : (timerDisable s).protoState = s.protoState := rfl
@[simp] theorem timerDisable_hfn (s : State) : (timerDisable s).hfn = s.hfn := rfl
@[simp] theorem timerDisable_errEvent (s : State) : (timerDisable s).errEvent = s.errEvent := rfl
@[simp] theorem timerDisable_rcvPduLen (s : State) : (timerDisable s).rcvPduLen = s.rcvPduLen := rfl
@[simp] theorem timerDisable_rxState (s : State) : (timerDisable s).rxState = s.rxState := rfl
@[simp] theorem timerDisable_txState (s : State) : (timerDisable s).txState = s.txState := rfl
@[simp] theorem timerDisable_rxbuf (s : State) : (timerDisable s).rxbuf = s.rxbuf := rfl
@[simp] theorem timerDisable_rxPos (s : State) : (timerDisable s).rxPos = s.rxPos := rfl
@[simp] theorem timerDisable_txbuf (s : State) : (timerDisable s).txbuf = s.txbuf := rfl
@[simp] theorem timerDisable_txCur (s : State) : (timerDisable s).txCur = s.txCur := rfl
@[simp] theorem timerDisable_txRem (s : State) : (timerDisable s).txRem = s.txRem := rfl
@[simp] theorem timerDisable_sndPduLen (s : State) : (timerDisable s).sndPduLen = s.sndPduLen := rfl
@[simp] theorem timerDisable_destAddr (s : State) : (timerDisable s).destAddr = s.destAddr := rfl
@[simp] theorem timerDisable_bcast (s : State) : (timerDisable s).bcast = s.bcast := rfl
@[simp] theorem timerDisable_lineMode (s : State) : (timerDisable s).lineMode = s.lineMode := rfl
@[simp] theorem timerDisable_running (s : State) : (timerDisable s).running = s.running := rfl
@[simp] theorem timerDisable_timer (s : State) : (timerDisable s).timer = .off := rfl
@[simp] theorem timerDisable_evq (s : State) : (timerDisable s).evq = s.evq := rfl
@[simp] theorem timerDisable_token (s : State) : (timerDisable s).token = s.token := rfl
@[simp] theorem timerDisable_sidBuf (s : State) : (timerDisable s).sidBuf = s.sidBuf := rfl
@[simp] theorem timerDisable_sidLen (s : State) : (timerDisable s).sidLen = s.sidLen := rfl
@[simp] theorem timerDisable_coils (s : State) : (timerDisable s).coils = s.coils := rfl
@[simp] theorem timerDisable_disc (s : State) : (timerDisable s).disc = s.disc := rfl
@[simp] theorem timerDisable_hold (s : State) : (timerDisable s).hold = s.hold := rfl
@[simp] theorem timerDisable_input (s : State) : (timerDisable s).input = s.input := rfl
@[simp] theorem timerDisable_faults (s : State) : (timerDisable s).faults = s.faults := rfl
@[simp] theorem timerDisable_refused (s : State) : (timerDisable s).refused = s.refused := rfl
@[simp] theorem timerDisable_wire (s : State) : (timerDisable s).wire = s.wire := rfl
@[simp] theorem timerDisable_results (s : State) : (timerDisable s).results = s.results := rfl
@[simp] theorem timerDisable_errorsRead (s : State) : (timerDisable s).errorsRead = s.errorsRead := rfl
@[simp] theorem timerDisable_program (s : State) : (timerDisable s).program = s.program := rfl
@[simp] theorem timerDisable_draws (s : State) : (timerDisable s).draws = s.draws := rfl

@[simp] theorem errorEntry_cfg (v : ErrorEvent) (s : State) : (errorEntry v s).cfg = s.cfg := rfl
@[simp] theorem errorEntry_protoState (v : ErrorEvent) (s : State) : (errorEntry v s).protoState = s.protoState := rfl
@[simp] theorem errorEntry_hfn (v : ErrorEvent) (s : State) : (errorEntry v s).hfn = s.hfn := rfl
@[simp] theorem errorEntry_errEvent (v : ErrorEvent) (s : State) : (errorEntry v s).errEvent = some v := rfl
@[simp] theorem errorEntry_rcvPduLen (v : ErrorEvent) (s : State) : (errorEntry v s).rcvPduLen = s.rcvPduLen := rfl
@[simp] theorem errorEntry_rxState (v : ErrorEvent) (s : State) : (errorEntry v s).rxState = s.rxState := rfl
@[simp] theorem errorEntry_txState (v : ErrorEvent) (s : State) : (errorEntry v s).txState = s.txState := rfl
@[simp] theorem errorEntry_rxbuf (v : ErrorEvent) (s : State) : (errorEntry v s).rxbuf = s.rxbuf := rfl
@[simp] theorem errorEntry_rxPos (v : ErrorEvent) (s : State) : (errorEntry v s).rxPos = s.rxPos := rfl
@[simp] theorem errorEntry_txbuf (v : ErrorEvent) (s : State) : (errorEntry v s).txbuf = s.txbuf := rfl
@[simp] theorem errorEntry_txCur (v : ErrorEvent) (s : State) : (errorEntry v s).txCur = s.txCur := rfl
@[simp] theorem errorEntry_txRem (v : ErrorEvent) (s : State) : (errorEntry v s).txRem = s.txRem := rfl
@[simp] theorem errorEntry_sndPduLen (v : ErrorEvent) (s : State) : (errorEntry v s).sndPduLen = s.sndPduLen := rfl
@[simp] theorem errorEntry_destAddr (v : ErrorEvent) (s : State) : (errorEntry v s).destAddr = s.destAddr := rfl
@[simp] theorem errorEntry_bcast (v : ErrorEvent) (s : State) : (errorEntry v s).bcast = s.bcast := rfl
@[simp] theorem errorEntry_lineMode (v : ErrorEvent) (s : State) : (errorEntry v s).lineMode = s.lineMode := rfl
@[simp] theorem errorEntry_running (v : ErrorEvent) (s : State) : (errorEntry v s).running = s.running := rfl
@[simp] theorem errorEntry_timer (v : ErrorEvent) (s : State) : (errorEntry v s).timer = s.timer := rfl
@[simp] theorem errorEntry_evq (v : ErrorEvent) (s : State) : (errorEntry v s).evq = if s.evq.length < s.cfg.evqCap then s.evq ++ [.error] else s.evq := rfl
@[simp] theorem errorEntry_token (v : ErrorEvent) (s : State) : (errorEntry v s).token = s.token := rfl
@[simp] theorem errorEntry_sidBuf (v : ErrorEvent) (s : State) : (errorEntry v s).sidBuf = s.sidBuf := rfl
@[simp] theorem errorEntry_sidLen (v : ErrorEvent) (s : State) : (errorEntry v s).sidLen = s.sidLen := rfl
@[simp] theorem errorEntry_coils (v : ErrorEvent) (s : State) : (errorEntry v s).coils = s.coils := rfl
@[simp] theorem errorEntry_disc (v : ErrorEvent) (s : State) : (errorEntry v s).disc = s.disc := rfl
@[simp] theorem errorEntry_hold (v : ErrorEvent) (s : State) : (errorEntry v s).hold = s.hold := rfl
@[simp] theorem errorEntry_input (v : ErrorEvent) (s : State) : (errorEntry v s).input = s.input := rfl
@[simp] theorem errorEntry_faults (v : ErrorEvent) (s : State) : (errorEntry v s).faults = if s.evq.length < s.cfg.evqCap then s.faults else { s.faults with eventQueueOverflow := true } := rfl
@[simp] theorem errorEntry_refused (v : ErrorEvent) (s : State) : (errorEntry v s).refused = s.refused := rfl
@[simp] theorem errorEntry_wire (v : ErrorEvent) (s : State) : (errorEntry v s).wire = s.wire := rfl
@[simp] theorem errorEntry_results (v : ErrorEvent) (s : State) : (errorEntry v s).results = s.results := rfl
@[simp] theorem errorEntry_errorsRead (v : ErrorEvent) (s : State) : (errorEntry v s).errorsRead = s.errorsRead := rfl
@[simp] theorem errorEntry_program (v : ErrorEvent) (s : State) : (errorEntry v s).program = s.program := rfl
@[simp] theorem errorEntry_draws (v : ErrorEvent) (s : State) : (errorEntry v s).draws = s.draws := rfl

@[simp] theorem errorReturn_cfg (s : State) : (errorReturn s).cfg = s.cfg := rfl
@[simp] theorem errorReturn_protoState (s : State) : (errorReturn s).protoState = s.protoState := rfl
@[simp] theorem errorReturn_hfn (s : State) : (errorReturn s).hfn = s.hfn := rfl
@[simp] theorem errorReturn_errEvent (s : State) : (errorReturn s).errEvent = s.errEvent := rfl
@[simp] theorem errorReturn_rcvPduLen (s : State) : (errorReturn s).rcvPduLen = s.rcvPduLen := rfl
@[simp] theorem errorReturn_rxState (s : State) : (errorReturn s).rxState = s.rxState := rfl
@[simp] theorem errorReturn_txState (s : State) : (errorReturn s).txState = s.txState := rfl
@[simp] theorem errorReturn_rxbuf (s : State) : (errorReturn s).rxbuf = s.rxbuf := rfl
@[simp] theorem errorReturn_rxPos (s : State) : (errorReturn s).rxPos = s.rxPos := rfl
@[simp] theorem errorReturn_txbuf (s : State) : (errorReturn s).txbuf = s.txbuf := rfl
@[simp] theorem errorReturn_txCur (s : State) : (errorReturn s).txCur = s.txCur := rfl
@[simp] theorem errorReturn_txRem (s : State) : (errorReturn s).txRem = s.txRem := rfl
@[simp] theorem errorReturn_sndPduLen (s : State) : (errorReturn s).sndPduLen = s.sndPduLen := rfl
@[simp] theorem errorReturn_destAddr (s : State) : (errorReturn s).destAddr = s.destAddr := rfl
@[simp] theorem errorReturn_bcast (s : State) : (errorReturn s).bcast = s.bcast := rfl
@[simp] theorem errorReturn_lineMode (s : State) : (errorReturn s).lineMode = s.lineMode := rfl
@[simp] theorem errorReturn_running (s : State) : (errorReturn s).running = s.running := rfl
@[simp] theorem errorReturn_timer (s : State) : (errorReturn s).timer = s.timer := rfl
@[simp] theorem errorReturn_evq (s : State) : (errorReturn s).evq = s.evq := rfl
@[simp] theorem errorReturn_token (s : State) : (errorReturn s).token = .free := rfl
@[simp] theorem errorReturn_sidBuf (s : State) : (errorReturn s).sidBuf = s.sidBuf := rfl
@[simp] theorem errorReturn_sidLen (s : State) : (errorReturn s).sidLen = s.sidLen := rfl
@[simp] theorem errorReturn_coils (s : State) : (errorReturn s).coils = s.coils := rfl
@[simp] theorem errorReturn_disc (s : State) : (errorReturn s).disc = s.disc := rfl
@[simp] theorem errorReturn_hold (s : State) : (errorReturn s).hold = s.hold := rfl
@[simp] theorem errorReturn_input (s : State) : (errorReturn s).input = s.input := rfl
@[simp] theorem errorReturn_faults (s : State) : (errorReturn s).faults = s.faults := rfl
@[simp] theorem errorReturn_refused (s : State) : (errorReturn s).refused = s.refused := rfl
@[simp] theorem errorReturn_wire (s : State) : (errorReturn s).wire = s.wire := rfl
@[simp] theorem errorReturn_results (s : State) : (errorReturn s).results = s.results := rfl
@[simp] theorem errorReturn_errorsRead (s : State) : (errorReturn s).errorsRead = s.errorsRead ++ [s.errEvent] := rfl
@[simp] theorem errorReturn_program (s : State) : (errorReturn s).program = s.program := rfl
@[simp] theorem errorReturn_draws (s : State) : (errorReturn s).draws = s.draws := rfl

@[simp] theorem setAddress_cfg (a : Byte) (s : State) : (setAddress a s).cfg = s.cfg := rfl
@[simp] theorem setAddress_protoState (a : Byte) (s : State) : (setAddress a s).protoState = s.protoState := rfl
@[simp] theorem setAddress_hfn (a : Byte) (s : State) : (setAddress a s).hfn = s.hfn := rfl
@[simp] theorem setAddress_errEvent (a : Byte) (s : State) : (setAddress a s).errEvent = s.errEvent := rfl
@[simp] theorem setAddress_rcvPduLen (a : Byte) (s : State) : (setAddress a s).rcvPduLen = s.rcvPduLen := rfl
@[simp] theorem setAddress_rxState (a : Byte) (s : State) : (setAddress a s).rxState = s.rxState := rfl
@[simp] theorem setAddress_txState (a : Byte) (s : State) : (setAddress a s).txState = s.txState := rfl
@[simp] theorem setAddress_rxbuf (a : Byte) (s : State) : (setAddress a s).rxbuf = s.rxbuf := rfl
@[simp] theorem setAddress_rxPos (a : Byte) (s : State) : (setAddress a s).rxPos = s.rxPos := rfl
@[simp] theorem setAddress_txbuf (a : Byte) (s : State) : (setAddress a s).txbuf = s.txbuf := rfl
@[simp] theorem setAddress_txCur (a : Byte) (s : State) : (setAddress a s).txCur = s.txCur := rfl
@[simp] theorem setAddress_txRem (a : Byte) (s : State) : (setAddress a s).txRem = s.txRem := rfl
@[simp] theorem setAddress_sndPduLen (a : Byte) (s : State) : (setAddress a s).sndPduLen = s.sndPduLen := rfl
@[simp] theorem setAddress_destAddr (a : Byte) (s : State) : (setAddress a s).destAddr = a := rfl
@[simp] theorem setAddress_bcast (a : Byte) (s : State) : (setAddress a s).bcast = s.bcast := rfl
@[simp] theorem setAddress_lineMode (a : Byte) (s : State) : (setAddress a s).lineMode = s.lineMode := rfl
@[simp] theorem setAddress_running (a : Byte) (s : State) : (setAddress a s).running = s.running := rfl
@[simp] theorem setAddress_timer (a : Byte) (s : State) : (setAddress a s).timer = s.timer := rfl
@[simp] theorem setAddress_evq (a : Byte) (s : State) : (setAddress a s).evq = s.evq := rfl
@[simp] theorem setAddress_token (a : Byte) (s : State) : (setAddress a s).token = s.token := rfl
@[simp] theorem setAddress_sidBuf (a : Byte) (s : State) : (setAddress a s).sidBuf = s.sidBuf := rfl
@[simp] theorem setAddress_sidLen (a : Byte) (s : State) : (setAddress a s).sidLen = s.sidLen := rfl
@[simp] theorem setAddress_coils (a : Byte) (s : State) : (setAddress a s).coils = s.coils := rfl
@[simp] theorem setAddress_disc (a : Byte) (s : State) : (setAddress a s).disc = s.disc := rfl
@[simp] theorem setAddress_hold (a : Byte) (s : State) : (setAddress a s).hold = s.hold := rfl
@[simp] theorem setAddress_input (a : Byte) (s : State) : (setAddress a s).input = s.input := rfl
@[simp] theorem setAddress_faults (a : Byte) (s : State) : (setAddress a s).faults = s.faults := rfl
@[simp] theorem setAddress_refused (a : Byte) (s : State) : (setAddress a s).refused = s.refused := rfl
@[simp] theorem setAddress_wire (a : Byte) (s : State) : (setAddress a s).wire = s.wire := rfl
@[simp] theorem setAddress_results (a : Byte) (s : State) : (setAddress a s).results = s.results := rfl
@[simp] theorem setAddress_errorsRead (a : Byte) (s : State) : (setAddress a s).errorsRead = s.errorsRead := rfl
@[simp] theorem setAddress_program (a : Byte) (s : State) : (setAddress a s).program = s.program := rfl
@[simp] theorem setAddress_draws (a : Byte) (s : State) : (setAddress a s).draws = s.draws := rfl

@[simp] theorem setSendLength_cfg (n : Half) (s : State) : (setSendLength n s).cfg = s.cfg := rfl
@[simp] theorem setSendLength_protoState (n : Half) (s : State) : (setSendLength n s).protoState = s.protoState := rfl
@[simp] theorem setSendLength_hfn (n : Half) (s : State) : (setSendLength n s).hfn = s.hfn := rfl
@[simp] theorem setSendLength_errEvent (n : Half) (s : State) : (setSendLength n s).errEvent = s.errEvent := rfl
@[simp] theorem setSendLength_rcvPduLen (n : Half) (s : State) : (setSendLength n s).rcvPduLen = s.rcvPduLen := rfl
@[simp] theorem setSendLength_rxState (n : Half) (s : State) : (setSendLength n s).rxState = s.rxState := rfl
@[simp] theorem setSendLength_txState (n : Half) (s : State) : (setSendLength n s).txState = s.txState := rfl
@[simp] theorem setSendLength_rxbuf (n : Half) (s : State) : (setSendLength n s).rxbuf = s.rxbuf := rfl
@[simp] theorem setSendLength_rxPos (n : Half) (s : State) : (setSendLength n s).rxPos = s.rxPos := rfl
@[simp] theorem setSendLength_txbuf (n : Half) (s : State) : (setSendLength n s).txbuf = s.txbuf := rfl
@[simp] theorem setSendLength_txCur (n : Half) (s : State) : (setSendLength n s).txCur = s.txCur := rfl
@[simp] theorem setSendLength_txRem (n : Half) (s : State) : (setSendLength n s).txRem = s.txRem := rfl
@[simp] theorem setSendLength_sndPduLen (n : Half) (s : State) : (setSendLength n s).sndPduLen = n := rfl
@[simp] theorem setSendLength_destAddr (n : Half) (s : State) : (setSendLength n s).destAddr = s.destAddr := rfl
@[simp] theorem setSendLength_bcast (n : Half) (s : State) : (setSendLength n s).bcast = s.bcast := rfl
@[simp] theorem setSendLength_lineMode (n : Half) (s : State) : (setSendLength n s).lineMode = s.lineMode := rfl
@[simp] theorem setSendLength_running (n : Half) (s : State) : (setSendLength n s).running = s.running := rfl
@[simp] theorem setSendLength_timer (n : Half) (s : State) : (setSendLength n s).timer = s.timer := rfl
@[simp] theorem setSendLength_evq (n : Half) (s : State) : (setSendLength n s).evq = s.evq := rfl
@[simp] theorem setSendLength_token (n : Half) (s : State) : (setSendLength n s).token = s.token := rfl
@[simp] theorem setSendLength_sidBuf (n : Half) (s : State) : (setSendLength n s).sidBuf = s.sidBuf := rfl
@[simp] theorem setSendLength_sidLen (n : Half) (s : State) : (setSendLength n s).sidLen = s.sidLen := rfl
@[simp] theorem setSendLength_coils (n : Half) (s : State) : (setSendLength n s).coils = s.coils := rfl
@[simp] theorem setSendLength_disc (n : Half) (s : State) : (setSendLength n s).disc = s.disc := rfl
@[simp] theorem setSendLength_hold (n : Half) (s : State) : (setSendLength n s).hold = s.hold := rfl
@[simp] theorem setSendLength_input (n : Half) (s : State) : (setSendLength n s).input = s.input := rfl
@[simp] theorem setSendLength_faults (n : Half) (s : State) : (setSendLength n s).faults = s.faults := rfl
@[simp] theorem setSendLength_refused (n : Half) (s : State) : (setSendLength n s).refused = s.refused := rfl
@[simp] theorem setSendLength_wire (n : Half) (s : State) : (setSendLength n s).wire = s.wire := rfl
@[simp] theorem setSendLength_results (n : Half) (s : State) : (setSendLength n s).results = s.results := rfl
@[simp] theorem setSendLength_errorsRead (n : Half) (s : State) : (setSendLength n s).errorsRead = s.errorsRead := rfl
@[simp] theorem setSendLength_program (n : Half) (s : State) : (setSendLength n s).program = s.program := rfl
@[simp] theorem setSendLength_draws (n : Half) (s : State) : (setSendLength n s).draws = s.draws := rfl

@[simp] theorem fillSendBuffer_cfg (pdu : List Byte) (s : State) : (fillSendBuffer pdu s).cfg = s.cfg := rfl
@[simp] theorem fillSendBuffer_protoState (pdu : List Byte) (s : State) : (fillSendBuffer pdu s).protoState = s.protoState := rfl
@[simp] theorem fillSendBuffer_hfn (pdu : List Byte) (s : State) : (fillSendBuffer pdu s).hfn = s.hfn := rfl
@[simp] theorem fillSendBuffer_errEvent (pdu : List Byte) (s : State) : (fillSendBuffer pdu s).errEvent = s.errEvent := rfl
@[simp] theorem fillSendBuffer_rcvPduLen (pdu : List Byte) (s : State) : (fillSendBuffer pdu s).rcvPduLen = s.rcvPduLen := rfl
@[simp] theorem fillSendBuffer_rxState (pdu : List Byte) (s : State) : (fillSendBuffer pdu s).rxState = s.rxState := rfl
@[simp] theorem fillSendBuffer_txState (pdu : List Byte) (s : State) : (fillSendBuffer pdu s).txState = s.txState := rfl
@[simp] theorem fillSendBuffer_rxbuf (pdu : List Byte) (s : State) : (fillSendBuffer pdu s).rxbuf = s.rxbuf := rfl
@[simp] theorem fillSendBuffer_rxPos (pdu : List Byte) (s : State) : (fillSendBuffer pdu s).rxPos = s.rxPos := rfl
@[simp] theorem fillSendBuffer_txbuf (pdu : List Byte) (s : State) : (fillSendBuffer pdu s).txbuf = Memory.bufWriteBytes s.txbuf 1 pdu := rfl
@[simp] theorem fillSendBuffer_txCur (pdu : List Byte) (s : State) : (fillSendBuffer pdu s).txCur = s.txCur := rfl
@[simp] theorem fillSendBuffer_txRem (pdu : List Byte) (s : State) : (fillSendBuffer pdu s).txRem = s.txRem := rfl
@[simp] theorem fillSendBuffer_sndPduLen (pdu : List Byte) (s : State) : (fillSendBuffer pdu s).sndPduLen = s.sndPduLen := rfl
@[simp] theorem fillSendBuffer_destAddr (pdu : List Byte) (s : State) : (fillSendBuffer pdu s).destAddr = s.destAddr := rfl
@[simp] theorem fillSendBuffer_bcast (pdu : List Byte) (s : State) : (fillSendBuffer pdu s).bcast = s.bcast := rfl
@[simp] theorem fillSendBuffer_lineMode (pdu : List Byte) (s : State) : (fillSendBuffer pdu s).lineMode = s.lineMode := rfl
@[simp] theorem fillSendBuffer_running (pdu : List Byte) (s : State) : (fillSendBuffer pdu s).running = s.running := rfl
@[simp] theorem fillSendBuffer_timer (pdu : List Byte) (s : State) : (fillSendBuffer pdu s).timer = s.timer := rfl
@[simp] theorem fillSendBuffer_evq (pdu : List Byte) (s : State) : (fillSendBuffer pdu s).evq = s.evq := rfl
@[simp] theorem fillSendBuffer_token (pdu : List Byte) (s : State) : (fillSendBuffer pdu s).token = s.token := rfl
@[simp] theorem fillSendBuffer_sidBuf (pdu : List Byte) (s : State) : (fillSendBuffer pdu s).sidBuf = s.sidBuf := rfl
@[simp] theorem fillSendBuffer_sidLen (pdu : List Byte) (s : State) : (fillSendBuffer pdu s).sidLen = s.sidLen := rfl
@[simp] theorem fillSendBuffer_coils (pdu : List Byte) (s : State) : (fillSendBuffer pdu s).coils = s.coils := rfl
@[simp] theorem fillSendBuffer_disc (pdu : List Byte) (s : State) : (fillSendBuffer pdu s).disc = s.disc := rfl
@[simp] theorem fillSendBuffer_hold (pdu : List Byte) (s : State) : (fillSendBuffer pdu s).hold = s.hold := rfl
@[simp] theorem fillSendBuffer_input (pdu : List Byte) (s : State) : (fillSendBuffer pdu s).input = s.input := rfl
@[simp] theorem fillSendBuffer_faults (pdu : List Byte) (s : State) : (fillSendBuffer pdu s).faults = s.faults := rfl
@[simp] theorem fillSendBuffer_refused (pdu : List Byte) (s : State) : (fillSendBuffer pdu s).refused = s.refused := rfl
@[simp] theorem fillSendBuffer_wire (pdu : List Byte) (s : State) : (fillSendBuffer pdu s).wire = s.wire := rfl
@[simp] theorem fillSendBuffer_results (pdu : List Byte) (s : State) : (fillSendBuffer pdu s).results = s.results := rfl
@[simp] theorem fillSendBuffer_errorsRead (pdu : List Byte) (s : State) : (fillSendBuffer pdu s).errorsRead = s.errorsRead := rfl
@[simp] theorem fillSendBuffer_program (pdu : List Byte) (s : State) : (fillSendBuffer pdu s).program = s.program := rfl
@[simp] theorem fillSendBuffer_draws (pdu : List Byte) (s : State) : (fillSendBuffer pdu s).draws = s.draws := rfl

end Sys2Proof.Laws
end

