-- ==== Sys2Proof/Laws/Memory.lean ====
section
/-! SUPPORT. Laws of byte memory: what a read gives after a write, and that every operation keeps the canonical form. -/

namespace Sys2Proof.Laws

open Sys2Proof.Machine

/-! ### Reading -/

theorem read_eq_unlisted {m : Memory} {a : Nat} (h : ∀ c ∈ m, c.1 ≠ a) : Memory.read m a = unlistedByte := by
  induction m with
  | nil => rfl
  | cons c m ih =>
    obtain ⟨k, b⟩ := c
    have hk : k ≠ a := h (k, b) (by simp)
    simp only [Memory.read, hk, if_false]
    exact ih (fun c hc => h c (by simp [hc]))

theorem read_filter_ne (m : Memory) (a b : Nat) (h : b ≠ a) :
    Memory.read (m.filter (fun c => decide (c.1 ≠ a))) b = Memory.read m b := by
  induction m with
  | nil => rfl
  | cons c m ih =>
    obtain ⟨k, v⟩ := c
    by_cases hk : k = a
    · subst hk
      have : k ≠ b := fun e => h e.symm
      simp_all [List.filter, Memory.read]
    · simp_all [List.filter, Memory.read]

theorem read_place_same (m : Memory) (a : Nat) (v : Byte) (h : ∀ c ∈ m, c.1 ≠ a) :
    Memory.read (Memory.place m a v) a = v := by
  induction m with
  | nil => simp [Memory.place, Memory.read]
  | cons c m ih =>
    obtain ⟨k, b⟩ := c
    have hk : k ≠ a := h (k, b) (by simp)
    by_cases ha : a < k
    · simp [Memory.place, Memory.read, ha]
    · simp only [Memory.place, ha, if_false, Memory.read, hk]
      exact ih (fun c hc => h c (by simp [hc]))

theorem read_place_other (m : Memory) (a b : Nat) (v : Byte) (h : b ≠ a) :
    Memory.read (Memory.place m a v) b = Memory.read m b := by
  induction m with
  | nil => simp [Memory.place, Memory.read, Ne.symm h]
  | cons c m ih =>
    obtain ⟨k, w⟩ := c
    by_cases ha : a < k
    · simp [Memory.place, Memory.read, ha, Ne.symm h]
    · simp [Memory.place, ha, Memory.read, ih]

theorem filter_ne_absent (m : Memory) (a : Nat) : ∀ c ∈ m.filter (fun c => decide (c.1 ≠ a)), c.1 ≠ a := by
  intro c hc
  simpa using (List.mem_filter.mp hc).2

/-- A read after a write to the same address gives the byte written. -/
@[simp] theorem read_write_same (m : Memory) (a : Nat) (v : Byte) : Memory.read (Memory.write m a v) a = v := by
  by_cases hv : v = unlistedByte
  · simp only [Memory.write, hv, if_true]
    exact read_eq_unlisted (filter_ne_absent m a)
  · simp only [Memory.write, hv, if_false]
    exact read_place_same _ a v (filter_ne_absent m a)

/-- A write leaves every other address alone. -/
theorem read_write_other (m : Memory) (a b : Nat) (v : Byte) (h : b ≠ a) :
    Memory.read (Memory.write m a v) b = Memory.read m b := by
  by_cases hv : v = unlistedByte
  · simp only [Memory.write, hv, if_true]
    exact read_filter_ne m a b h
  · simp only [Memory.write, hv, if_false]
    rw [read_place_other _ a b v h, read_filter_ne m a b h]

theorem read_write (m : Memory) (a b : Nat) (v : Byte) :
    Memory.read (Memory.write m a v) b = if b = a then v else Memory.read m b := by
  by_cases h : b = a
  · simp [h]
  · simp [h, read_write_other m a b v h]

theorem read_writeBytes (m : Memory) (a b : Nat) (bs : List Byte) :
    Memory.read (Memory.writeBytes m a bs) b =
      if h : a ≤ b ∧ b < a + bs.length then bs[b - a]'(by omega) else Memory.read m b := by
  induction bs generalizing m a with
  | nil =>
    have : ¬ (a ≤ b ∧ b < a + ([] : List Byte).length) := by simp
    rw [dif_neg this, Memory.writeBytes]
  | cons c bs ih =>
    rw [Memory.writeBytes, ih, read_write]
    by_cases h1 : a + 1 ≤ b ∧ b < a + 1 + bs.length
    · have h2 : a ≤ b ∧ b < a + (c :: bs).length := by simp; omega
      have h3 : b - a = (b - (a + 1)) + 1 := by omega
      rw [dif_pos h1, dif_pos h2]
      simp only [h3, List.getElem_cons_succ]
    · rw [dif_neg h1]
      by_cases hb : b = a
      · subst hb
        simp
      · have h2 : ¬ (a ≤ b ∧ b < a + (c :: bs).length) := by simp; omega
        rw [dif_neg h2, if_neg hb]

/-! ### The canonical form -/

theorem wf_nil : Memory.wf [] := ⟨List.Pairwise.nil, fun _ h => absurd h (List.not_mem_nil)⟩

theorem mem_place {m : Memory} {a : Nat} {v : Byte} {c : Host.Cell} (h : c ∈ Memory.place m a v) :
    c = (a, v) ∨ c ∈ m := by
  induction m with
  | nil => simpa [Memory.place] using h
  | cons d m ih =>
    obtain ⟨k, b⟩ := d
    by_cases ha : a < k
    · simpa [Memory.place, ha] using h
    · simp only [Memory.place, ha, if_false, List.mem_cons] at h ⊢
      rcases h with h | h
      · exact .inr (.inl h)
      · exact (ih h).imp id .inr

theorem pairwise_place {m : Memory} {a : Nat} {v : Byte} (hp : m.Pairwise (fun c d => c.1 < d.1))
    (hne : ∀ c ∈ m, c.1 ≠ a) : (Memory.place m a v).Pairwise (fun c d => c.1 < d.1) := by
  induction m with
  | nil => simp [Memory.place]
  | cons d m ih =>
    obtain ⟨k, b⟩ := d
    rw [List.pairwise_cons] at hp
    have hk : k ≠ a := hne (k, b) (by simp)
    by_cases ha : a < k
    · simp only [Memory.place, ha, if_true, List.pairwise_cons, List.mem_cons]
      refine ⟨?_, hp⟩
      rintro c (rfl | hc)
      · exact ha
      · exact lt_trans ha (hp.1 c hc)
    · simp only [Memory.place, ha, if_false, List.pairwise_cons]
      refine ⟨?_, ih hp.2 (fun c hc => hne c (by simp [hc]))⟩
      intro c hc
      rcases mem_place hc with rfl | hc
      · show k < a
        omega
      · exact hp.1 c hc

theorem mem_write {m : Memory} {a : Nat} {v : Byte} {c : Host.Cell} (h : c ∈ Memory.write m a v) :
    c = (a, v) ∨ c ∈ m := by
  simp only [Memory.write] at h
  split at h
  · exact .inr (List.mem_filter.mp h).1
  · exact (mem_place h).imp id (fun h => (List.mem_filter.mp h).1)

/-- A write keeps the canonical form. -/
theorem wf_write {m : Memory} (h : Memory.wf m) (a : Nat) (v : Byte) : Memory.wf (Memory.write m a v) := by
  have hp : (m.filter (fun c => decide (c.1 ≠ a))).Pairwise (fun c d => c.1 < d.1) := h.1.sublist List.filter_sublist
  refine ⟨?_, ?_⟩
  · simp only [Memory.write]
    split
    · exact hp
    · exact pairwise_place hp (filter_ne_absent m a)
  · intro c hc
    simp only [Memory.write] at hc
    split at hc
    · exact h.2 c (List.mem_filter.mp hc).1
    · rename_i hv
      rcases mem_place hc with rfl | hc
      · exact hv
      · exact h.2 c (List.mem_filter.mp hc).1

theorem wf_writeBytes {m : Memory} (h : Memory.wf m) (a : Nat) (bs : List Byte) : Memory.wf (Memory.writeBytes m a bs) := by
  induction bs generalizing m a with
  | nil => exact h
  | cons b bs ih => exact ih (wf_write h a b) (a + 1)

/-- In canonical form, a read below the first listed address gives the unlisted byte. -/
theorem read_below {m : Memory} {k : Nat} {b : Byte} (h : Memory.wf ((k, b) :: m)) (a : Nat) (ha : a ≤ k) :
    Memory.read m a = unlistedByte := by
  apply read_eq_unlisted
  intro c hc
  have := (List.pairwise_cons.mp h.1).1 c hc
  simp only at this
  omega

theorem wf_tail {m : Memory} {c : Host.Cell} (h : Memory.wf (c :: m)) : Memory.wf m :=
  ⟨(List.pairwise_cons.mp h.1).2, fun d hd => h.2 d (by simp [hd])⟩

/-! ### Frame buffers -/

theorem read_bufWrite (m : Memory) (i j : Nat) (v : Byte) :
    Memory.read (Memory.bufWrite m i v) j = if j = i ∧ i < bufSize then v else Memory.read m j := by
  by_cases h : i < bufSize
  · simp [Memory.bufWrite, h, read_write]
  · simp [Memory.bufWrite, h]

theorem read_bufWriteBytes (m : Memory) (a b : Nat) (bs : List Byte) :
    Memory.read (Memory.bufWriteBytes m a bs) b =
      if h : a ≤ b ∧ b < a + bs.length ∧ b < bufSize then bs[b - a]'(by omega) else Memory.read m b := by
  induction bs generalizing m a with
  | nil =>
    have : ¬ (a ≤ b ∧ b < a + ([] : List Byte).length ∧ b < bufSize) := by simp; omega
    rw [dif_neg this, Memory.bufWriteBytes]
  | cons c bs ih =>
    rw [Memory.bufWriteBytes, ih, read_bufWrite]
    by_cases h1 : a + 1 ≤ b ∧ b < a + 1 + bs.length ∧ b < bufSize
    · have h2 : a ≤ b ∧ b < a + (c :: bs).length ∧ b < bufSize := by simp; omega
      have h3 : b - a = (b - (a + 1)) + 1 := by omega
      rw [dif_pos h1, dif_pos h2]
      simp only [h3, List.getElem_cons_succ]
    · rw [dif_neg h1]
      by_cases hb : b = a
      · subst hb
        by_cases hs : b < bufSize <;> simp [hs]
      · have h2 : ¬ (a ≤ b ∧ b < a + (c :: bs).length ∧ b < bufSize) := by simp; omega
        rw [dif_neg h2, if_neg (fun h => hb h.1)]

theorem wf_bufWrite {m : Memory} (h : Memory.wf m) (i : Nat) (v : Byte) : Memory.wf (Memory.bufWrite m i v) := by
  unfold Memory.bufWrite
  split
  · exact wf_write h i v
  · exact h

theorem wf_bufWriteBytes {m : Memory} (h : Memory.wf m) (i : Nat) (bs : List Byte) :
    Memory.wf (Memory.bufWriteBytes m i bs) := by
  induction bs generalizing m i with
  | nil => exact h
  | cons b bs ih => exact ih (wf_bufWrite h i b) (i + 1)

theorem inside_bufWrite {m : Memory} (h : ∀ c ∈ m, c.1 < bufSize) (i : Nat) (v : Byte) :
    ∀ c ∈ Memory.bufWrite m i v, c.1 < bufSize := by
  unfold Memory.bufWrite
  split
  · rename_i hi
    intro c hc
    rcases mem_write hc with rfl | hc
    · exact hi
    · exact h c hc
  · exact h

theorem inside_bufWriteBytes {m : Memory} (h : ∀ c ∈ m, c.1 < bufSize) (i : Nat) (bs : List Byte) :
    ∀ c ∈ Memory.bufWriteBytes m i bs, c.1 < bufSize := by
  induction bs generalizing m i with
  | nil => exact h
  | cons b bs ih => exact ih (inside_bufWrite h i b) (i + 1)

end Sys2Proof.Laws
end

