-- ==== Sys2Proof/Laws/Store.lean ====
section
/-! SUPPORT. Laws of the register store: what the bit and word primitives do to each point of a table, and that every store
operation keeps the canonical form and touches one table alone. -/

namespace Sys2Proof.Laws

open Sys2Proof.Machine

/-! ### Byte order and masks, bit by bit -/

theorem be16_getLsbD (a b : Byte) (j : Nat) :
    (be16 a b).getLsbD j = if j < 8 then b.getLsbD j else decide (j < 16) && a.getLsbD (j - 8) := by
  simp only [be16, BitVec.getLsbD_or, BitVec.getLsbD_shiftLeft, BitVec.getLsbD_setWidth]
  by_cases h : j < 8
  · have : j < 16 := by omega
    simp [h, this]
  · by_cases h2 : j < 16
    · have : j - 8 < 16 := by omega
      simp [h, h2, this]
      exact fun hb => absurd (BitVec.lt_of_getLsbD hb) h
    · simp [h, h2]

theorem lo8_getLsbD (w : Half) (j : Nat) : (lo8 w).getLsbD j = (decide (j < 8) && w.getLsbD j) := by
  simp [lo8]

theorem hi8_getLsbD (w : Half) (j : Nat) : (hi8 w).getLsbD j = (decide (j < 8) && w.getLsbD (8 + j)) := by
  simp [hi8]

theorem ones_getLsbD : ∀ n, n ≤ 8 → ∀ j, j < 16 → ((1#16 <<< n) - 1#16).getLsbD j = decide (j < n) := by
  decide

theorem windowMask_getLsbD (n sh j : Nat) (hn : n ≤ 8) (hj : j < 16) :
    (windowMask n sh).getLsbD j = decide (sh ≤ j ∧ j < sh + n) := by
  simp only [windowMask, BitVec.getLsbD_shiftLeft, hj, decide_true, Bool.true_and]
  by_cases h : j < sh
  · have : ¬ (sh ≤ j ∧ j < sh + n) := by omega
    simp [h, this]
  · rw [ones_getLsbD n hn (j - sh) (by omega)]
    have : (j - sh < n) ↔ (sh ≤ j ∧ j < sh + n) := by omega
    simp [h, this]

/-! ### Bits -/

theorem bitWindow_getLsbD (m : Memory) (slave k j : Nat) (hj : j < 16) :
    (bitWindow m slave k).getLsbD j = bitAt m slave (8 * k + j) := by
  simp only [bitWindow, be16_getLsbD, bitAt]
  by_cases h : j < 8
  · have h1 : (8 * k + j) / 8 = k := by omega
    have h2 : (8 * k + j) % 8 = j := by omega
    simp [h, h1, h2]
  · have h1 : (8 * k + j) / 8 = k + 1 := by omega
    have h2 : (8 * k + j) % 8 = j - 8 := by omega
    simp [h, hj, h1, h2]

/-- An address of one image is an address of no other. -/
theorem imageBase_inj {sl sl' x y : Nat} (hx : x < 131072) (hy : y < 131072) :
    imageBase sl + x = imageBase sl' + y ↔ sl = sl' ∧ x = y := by
  simp only [imageBase]; omega

theorem bitAt_setBits (m : Memory) (slave off n : Nat) (v : Byte) (hn : n ≤ 8) (ho : off + 9 < 1048576) (sl i : Nat)
    (hi : i < 1048576) :
    bitAt (setBits m slave off n v) sl i =
      if sl = slave ∧ off ≤ i ∧ i < off + n then v.getLsbD (i - off) else bitAt m sl i := by
  have hb : ∀ j, j < 16 →
      ((bitWindow m slave (off / 8) &&& ~~~ windowMask n (off % 8)) |||
        ((v.setWidth 16 <<< (off % 8)) &&& windowMask n (off % 8))).getLsbD j =
      if off % 8 ≤ j ∧ j < off % 8 + n then v.getLsbD (j - off % 8) else bitAt m slave (8 * (off / 8) + j) := by
    intro j hj
    simp only [BitVec.getLsbD_or, BitVec.getLsbD_and, BitVec.getLsbD_not, windowMask_getLsbD n (off % 8) j hn hj,
      bitWindow_getLsbD m slave _ j hj, BitVec.getLsbD_shiftLeft, BitVec.getLsbD_setWidth, hj]
    by_cases h : off % 8 ≤ j ∧ j < off % 8 + n
    · have h1 : ¬ j < off % 8 := by omega
      have h2 : j - off % 8 < 16 := by omega
      simp [h, h1, h2]
    · simp [h]
  show (Memory.read (Memory.write (Memory.write m (imageBase slave + off / 8) (lo8 _)) (imageBase slave + (off / 8 + 1))
    (hi8 _)) (imageBase sl + i / 8)).getLsbD (i % 8) = _
  have i1 : imageBase sl + i / 8 = imageBase slave + (off / 8 + 1) ↔ sl = slave ∧ i / 8 = off / 8 + 1 :=
    imageBase_inj (by omega) (by omega)
  have i2 : imageBase sl + i / 8 = imageBase slave + off / 8 ↔ sl = slave ∧ i / 8 = off / 8 :=
    imageBase_inj (by omega) (by omega)
  simp only [read_write, i1, i2]
  have h8 : i % 8 < 8 := by omega
  by_cases h1 : sl = slave ∧ i / 8 = off / 8 + 1
  · rw [if_pos h1, hi8_getLsbD, hb _ (by omega)]
    obtain ⟨rfl, h1⟩ := h1
    have e : 8 * (off / 8) + (8 + i % 8) = i := by omega
    by_cases h : off ≤ i ∧ i < off + n
    · rw [if_pos (by omega), if_pos ⟨rfl, h⟩]
      simp only [h8, decide_true, Bool.true_and]
      congr 1; omega
    · rw [if_neg (by omega), if_neg (fun x => h x.2), e]
      simp [h8]
  · rw [if_neg h1]
    by_cases h2 : sl = slave ∧ i / 8 = off / 8
    · rw [if_pos h2, lo8_getLsbD, hb _ (by omega)]
      obtain ⟨rfl, h2⟩ := h2
      have e : 8 * (off / 8) + i % 8 = i := by omega
      by_cases h : off ≤ i ∧ i < off + n
      · rw [if_pos (by omega), if_pos ⟨rfl, h⟩]
        simp only [h8, decide_true, Bool.true_and]
        congr 1; omega
      · rw [if_neg (by omega), if_neg (fun x => h x.2), e]
        simp [h8]
    · rw [if_neg h2, if_neg (by omega)]; rfl

theorem getBits_getLsbD (m : Memory) (slave off n k : Nat) (hn : n ≤ 8) :
    (getBits m slave off n).getLsbD k = (decide (k < n) && bitAt m slave (off + k)) := by
  simp only [getBits, lo8_getLsbD, BitVec.getLsbD_and, BitVec.getLsbD_ushiftRight]
  by_cases h : k < 8
  · rw [ones_getLsbD n hn k (by omega), bitWindow_getLsbD _ _ _ _ (by omega)]
    have e : 8 * (off / 8) + (off % 8 + k) = off + k := by omega
    simp [h, e, Bool.and_comm]
  · have : ¬ k < n := by omega
    simp [h, this]

theorem bitAt_writeBits (m : Memory) (slave i n : Nat) (bytes : List Byte) (hl : bytes.length = ceil8 n)
    (hb : i + n ≤ 65536) (sl j : Nat) (hj : j < 1048576) :
    bitAt (writeBits m slave i n bytes) sl j =
      if sl = slave ∧ i ≤ j ∧ j < i + n then (bytes.getD ((j - i) / 8) 0#8).getLsbD ((j - i) % 8) else bitAt m sl j := by
  induction bytes generalizing m i n with
  | nil =>
    have : n = 0 := by simp [ceil8] at hl; omega
    subst this
    rw [if_neg (by omega)]; rfl
  | cons b bs ih =>
    have hn : n ≠ 0 := by rintro rfl; simp [ceil8] at hl
    rw [writeBits, if_neg hn]
    by_cases hbig : 8 ≤ n
    · rw [ih (setBits m slave i (min 8 n) b) (i + 8) (n - 8) (by simp [ceil8] at hl ⊢; omega) (by omega),
        bitAt_setBits _ _ _ _ _ (by omega) (by omega) _ _ hj]
      by_cases h : sl = slave ∧ i + 8 ≤ j ∧ j < i + 8 + (n - 8)
      · rw [if_pos h, if_pos (by omega)]
        have e : (j - i) / 8 = (j - (i + 8)) / 8 + 1 := by omega
        have e2 : (j - i) % 8 = (j - (i + 8)) % 8 := by omega
        rw [e, e2, List.getD_cons_succ]
      · rw [if_neg h]
        by_cases h2 : sl = slave ∧ i ≤ j ∧ j < i + min 8 n
        · rw [if_pos h2, if_pos (by omega)]
          have e : (j - i) / 8 = 0 := by omega
          have e2 : (j - i) % 8 = j - i := by omega
          rw [e, e2]; rfl
        · rw [if_neg h2, if_neg (by omega)]
    · have e : n - 8 = 0 := by omega
      have hnil : bs = [] := by
        have : bs.length = 0 := by simp [ceil8] at hl; omega
        exact List.length_eq_zero_iff.mp this
      subst hnil
      rw [show writeBits (setBits m slave i (min 8 n) b) slave (i + 8) (n - 8) [] = setBits m slave i (min 8 n) b from rfl,
        bitAt_setBits _ _ _ _ _ (by omega) (by omega) _ _ hj]
      by_cases h2 : sl = slave ∧ i ≤ j ∧ j < i + n
      · rw [if_pos (by omega), if_pos h2]
        have e : (j - i) / 8 = 0 := by omega
        have e2 : (j - i) % 8 = j - i := by omega
        rw [e, e2]; rfl
      · rw [if_neg (by omega), if_neg h2]

/-! ### Words -/

theorem wordAt_setWord (m : Memory) (slave k : Nat) (w : Half) (hk : k < 65536) (sl i : Nat) (hi : i < 65536) :
    wordAt (setWord m slave k w) sl i = if sl = slave ∧ i = k then w else wordAt m sl i := by
  have inj : ∀ x y, x < 131072 → y < 131072 → (imageBase sl + x = imageBase slave + y ↔ sl = slave ∧ x = y) :=
    fun x y hx hy => imageBase_inj hx hy
  simp only [wordAt, setWord, read_write, inj (2 * i) (2 * k) (by omega) (by omega),
    inj (2 * i) (2 * k + 1) (by omega) (by omega), inj (2 * i + 1) (2 * k) (by omega) (by omega),
    inj (2 * i + 1) (2 * k + 1) (by omega) (by omega)]
  by_cases h : sl = slave ∧ i = k
  · obtain ⟨rfl, rfl⟩ := h
    simp
  · have h1 : ¬ (sl = slave ∧ 2 * i = 2 * k) := by omega
    have h2 : ¬ (sl = slave ∧ 2 * i = 2 * k + 1) := by omega
    have h3 : ¬ (sl = slave ∧ 2 * i + 1 = 2 * k + 1) := by omega
    have h4 : ¬ (sl = slave ∧ 2 * i + 1 = 2 * k) := by omega
    rw [if_neg h2, if_neg h1, if_neg h3, if_neg h4, if_neg h]

theorem wordAt_writeWords (m : Memory) (slave i : Nat) (ws : List Half) (hb : i + ws.length ≤ 65536) (sl j : Nat)
    (hj : j < 65536) :
    wordAt (writeWords m slave i ws) sl j =
      if sl = slave ∧ i ≤ j ∧ j < i + ws.length then ws.getD (j - i) 0#16 else wordAt m sl j := by
  induction ws generalizing m i with
  | nil => simp [writeWords]
  | cons w ws ih =>
    simp only [List.length_cons] at hb
    rw [writeWords, ih _ (i + 1) (by omega), wordAt_setWord _ _ _ _ (by omega) _ _ hj]
    by_cases h : sl = slave ∧ i + 1 ≤ j ∧ j < i + 1 + ws.length
    · rw [if_pos h, if_pos (by simp; omega)]
      have e : j - i = (j - (i + 1)) + 1 := by omega
      rw [e, List.getD_cons_succ]
    · rw [if_neg h]
      by_cases h2 : sl = slave ∧ j = i
      · obtain ⟨rfl, rfl⟩ := h2
        rw [if_pos ⟨rfl, rfl⟩, if_pos (by simp)]
        simp
      · rw [if_neg h2, if_neg (by simp; omega)]

theorem beHalves_getD (bs : List Byte) (n : Nat) (h : bs.length = 2 * n) (k : Nat) (hk : k < n) :
    (beHalves bs).getD k 0#16 = be16 (bs.getD (2 * k) 0#8) (bs.getD (2 * k + 1) 0#8) := by
  induction n generalizing bs k with
  | zero => omega
  | succ n ih =>
    match bs, h with
    | a :: b :: rest, h =>
      cases k with
      | zero => simp [beHalves]
      | succ k =>
        have e : 2 * (k + 1) = 2 * k + 1 + 1 := by omega
        simp only [beHalves, e, List.getD_cons_succ]
        rw [ih rest (by simp at h; omega) k (by omega)]
    | [_], h => simp at h; omega

theorem wordAt_writeBytes (m : Memory) (slave i n : Nat) (bytes : List Byte) (hl : bytes.length = 2 * n)
    (hb : i + n ≤ 65536) (sl j : Nat) (hj : j < 65536) :
    wordAt (writeWords m slave i ((beHalves bytes).take n)) sl j =
      if sl = slave ∧ i ≤ j ∧ j < i + n then be16 (bytes.getD (2 * (j - i)) 0#8) (bytes.getD (2 * (j - i) + 1) 0#8)
      else wordAt m sl j := by
  have hlen := beHalves_length n bytes hl
  rw [List.take_of_length_le (by omega), wordAt_writeWords _ _ _ _ (by omega) _ _ hj, hlen]
  by_cases h : sl = slave ∧ i ≤ j ∧ j < i + n
  · rw [if_pos h, if_pos h, beHalves_getD bytes n hl _ (by omega)]
  · rw [if_neg h, if_neg h]

/-! ### The canonical form -/

theorem wf_setBits {m : Memory} (h : Memory.wf m) (slave off n : Nat) (v : Byte) : Memory.wf (setBits m slave off n v) :=
  wf_write (wf_write h _ _) _ _

theorem wf_setWord {m : Memory} (h : Memory.wf m) (slave i : Nat) (w : Half) : Memory.wf (setWord m slave i w) :=
  wf_write (wf_write h _ _) _ _

theorem wf_writeBits {m : Memory} (h : Memory.wf m) (slave i n : Nat) (bs : List Byte) :
    Memory.wf (writeBits m slave i n bs) := by
  induction bs generalizing m i n with
  | nil => exact h
  | cons b bs ih =>
    rw [writeBits]
    split
    · exact h
    · exact ih (wf_setBits h slave i _ b) (i + 8) (n - 8)

theorem wf_writeWords {m : Memory} (h : Memory.wf m) (slave i : Nat) (ws : List Half) :
    Memory.wf (writeWords m slave i ws) := by
  induction ws generalizing m i with
  | nil => exact h
  | cons w ws ih => exact ih (wf_setWord h slave i w) (i + 1)

theorem wf_tableWrite {m : Memory} (h : Memory.wf m) (t : Table) (slave i n : Nat) (bs : List Byte) :
    Memory.wf (tableWrite t m slave i n bs) := by
  cases t
  · exact wf_writeBits h slave i n bs
  · exact wf_writeBits h slave i n bs
  · exact wf_writeWords h slave i _
  · exact wf_writeWords h slave i _

/-! ### Tables of a state -/

@[simp] theorem tableOf_withTable (t : Table) (m : Memory) (s : State) : tableOf t (withTable t m s) = m := by
  cases t <;> rfl

/-- Replacing a table leaves everything but the store alone. -/
theorem withTable_frame (t : Table) (m : Memory) (s : State) :
    withTable t m s = { s with
      coils := (withTable t m s).coils, disc := (withTable t m s).disc
      hold := (withTable t m s).hold, input := (withTable t m s).input } := by
  cases t <;> rfl

/-! ### The index check -/

/-- The table address of a handler is its wire address again after the store's subtraction (R101, R281), wrapping included. -/
@[simp] theorem addr_roundtrip (a : Half) : a + 1#16 - 1#16 = a := by
  rw [BitVec.add_sub_cancel]

/-- Everything `storeIndex` answers, in natural numbers. -/
theorem storeIndex_cases (cfg : Config) (t : Table) (slave : Byte) (a : Half) (n : Nat) :
    storeIndex cfg t slave (a + 1#16) n =
      if 1 ≤ slave.toNat ∧ slave.toNat ≤ cfg.maxSlaves ∧ (windowOf cfg t).base ≤ a.toNat ∧
          a.toNat + n ≤ (windowOf cfg t).base + (windowOf cfg t).count then
        .ok (a.toNat - (windowOf cfg t).base)
      else .error .noSuchRegister := by
  simp only [storeIndex, addr_roundtrip, slaveOk, decide_eq_true_eq]
  split
  · rename_i h; rw [if_neg (fun x => h ⟨x.1, x.2.1⟩)]
  · rename_i h
    split
    · rename_i h2; rw [if_neg (by omega)]
    · rename_i h2
      rw [if_pos (by simp at h; omega)]

/-- Everything `storeWrite` answers: the state unchanged with an error, or one table replaced. -/
theorem storeWrite_cases (t : Table) (slave : Byte) (addr1 : Half) (n : Nat) (bytes : List Byte) (s : State) :
    (∃ e, storeWrite t slave addr1 n bytes s = (s, e) ∧ e ≠ .noError) ∨
    (∃ i, storeIndex s.cfg t slave addr1 n = .ok i ∧
      storeWrite t slave addr1 n bytes s = (withTable t (tableWrite t (tableOf t s) slave.toNat i n bytes) s, .noError)) := by
  unfold storeWrite
  split
  · rename_i e h
    refine .inl ⟨e, rfl, ?_⟩
    unfold storeIndex at h
    intro he
    subst he
    revert h
    dsimp only
    split
    · intro h; cases h
    · split <;> intro h <;> cases h
  · rename_i i h
    exact .inr ⟨i, h, rfl⟩

end Sys2Proof.Laws
end

