-- ==== Sys2Proof/Laws/Handlers.lean ====
section
/-! SUPPORT. Laws of the response handlers: each answers with the state unchanged and an exception, or with store writes alone; no
handler touches anything but the store, and Report Slave ID nothing but its PDU. -/

namespace Sys2Proof.Laws

open Sys2Proof.Machine

/-- Nothing but the four tables of the store differs from s to u. -/
def OnlyStore (s u : State) : Prop :=
  u = { s with coils := u.coils, disc := u.disc, hold := u.hold, input := u.input }

theorem OnlyStore.refl (s : State) : OnlyStore s s := rfl

theorem OnlyStore.withTable (t : Table) (m : Memory) (s : State) : OnlyStore s (withTable t m s) :=
  withTable_frame t m s

theorem OnlyStore.trans {s u w : State} (h : OnlyStore s u) (h' : OnlyStore u w) : OnlyStore s w := by
  unfold OnlyStore at *
  rw [h'.trans (by rw [h])]

theorem storeWrite_onlyStore (t : Table) (slave : Byte) (a : Half) (n : Nat) (bs : List Byte) (s : State) :
    OnlyStore s (storeWrite t slave a n bs s).1 := by
  rcases storeWrite_cases t slave a n bs s with ⟨e, h, -⟩ | ⟨i, -, h⟩
  · rw [h]; exact OnlyStore.refl s
  · rw [h]; exact OnlyStore.withTable t _ s

/-- A failed store write changes nothing. -/
theorem storeWrite_error {t : Table} {slave : Byte} {a : Half} {n : Nat} {bs : List Byte} {s : State}
    (h : (storeWrite t slave a n bs s).2 ≠ .noError) : (storeWrite t slave a n bs s).1 = s := by
  rcases storeWrite_cases t slave a n bs s with ⟨e, h', -⟩ | ⟨i, -, h'⟩
  · rw [h']
  · rw [h'] at h; exact absurd rfl h

theorem errorToException_none {e : LocalError} : errorToException e = .none ↔ e = .noError := by
  cases e <;> simp [errorToException]

theorem readHandler_onlyStore (t : Table) (nb : Nat) (v : View) (L : Nat) (s : State) :
    OnlyStore s (readHandler t nb v L s).state := by
  unfold readHandler
  split
  · exact OnlyStore.refl s
  · split
    · exact storeWrite_onlyStore ..
    · exact OnlyStore.refl s

/-- Every handler but Report Slave ID changes nothing but the store. -/
theorem runHandler_onlyStore (h : HandlerId) (hr : h ≠ .rsid) (v : View) (L : Nat) (s : State) :
    OnlyStore s (runHandler h v L s).state := by
  cases h
  case rc => exact readHandler_onlyStore ..
  case rdi => exact readHandler_onlyStore ..
  case rhr => exact readHandler_onlyStore ..
  case rir => exact readHandler_onlyStore ..
  case wsc =>
    simp only [runHandler, handleWriteSingleCoil]
    split
    · exact storeWrite_onlyStore ..
    · exact OnlyStore.refl s
  case wsr =>
    simp only [runHandler, handleWriteHoldingRegister]
    split
    · exact storeWrite_onlyStore ..
    · exact OnlyStore.refl s
  case wmc =>
    simp only [runHandler, handleWriteMultipleCoils]
    split
    · exact storeWrite_onlyStore ..
    · exact OnlyStore.refl s
  case wmr =>
    simp only [runHandler, handleWriteMultipleHoldingRegister]
    split
    · exact storeWrite_onlyStore ..
    · exact OnlyStore.refl s
  case rwmr =>
    simp only [runHandler, handleReadWriteMultipleHoldingRegister]
    split
    · split
      · exact storeWrite_onlyStore ..
      · split
        · exact storeWrite_onlyStore ..
        · exact OnlyStore.trans (storeWrite_onlyStore ..) (storeWrite_onlyStore ..)
    · exact OnlyStore.refl s
  case rsid => exact absurd rfl hr

/-- No handler touches anything but the store and the frame buffer that holds its PDU. -/
theorem runHandler_frame (h : HandlerId) (v : View) (L : Nat) (s : State) :
    (runHandler h v L s).state = { s with
      coils := (runHandler h v L s).state.coils, disc := (runHandler h v L s).state.disc
      hold := (runHandler h v L s).state.hold, input := (runHandler h v L s).state.input
      rxbuf := (runHandler h v L s).state.rxbuf, txbuf := (runHandler h v L s).state.txbuf } := by
  by_cases hr : h = .rsid
  · subst hr; cases v <;> rfl
  · have hs := runHandler_onlyStore h hr v L s
    unfold OnlyStore at hs
    generalize (runHandler h v L s).state = u at hs ⊢
    rw [hs]

end Sys2Proof.Laws
end

