-- ==== Sys2Proof/Laws/Dispatcher.lean ====
section
/-! SUPPORT. Laws of the dispatcher and of the operations it calls: what each answers in each of its cases, for every state. -/

namespace Sys2Proof.Laws

open Sys2Proof.Machine

/-! ### Handler table -/

theorem codeOf_inj {h h' : HandlerId} : codeOf h = codeOf h' ↔ h = h' := by
  cases h <;> cases h' <;> simp [codeOf]

theorem codeOf_ne_zero (h : HandlerId) : codeOf h ≠ 0x00#8 := by
  cases h <;> simp [codeOf]

/-- A lookup in a table of handlers closed by empty slots is a search by code. -/
theorem lookup_slots (l : List HandlerId) (n : Nat) (fc : Byte) :
    lookup (l.map (fun h => (⟨codeOf h, some h⟩ : HandlerSlot)) ++ List.replicate n HandlerSlot.empty) fc =
      l.find? (fun h => codeOf h = fc) := by
  induction l with
  | nil => cases n <;> simp [lookup, List.replicate, HandlerSlot.empty]
  | cons h l ih =>
    simp only [List.map_cons, List.cons_append, lookup, codeOf_ne_zero, if_false, List.find?_cons]
    by_cases e : codeOf h = fc <;> simp [e, ih]

theorem mem_enabledHandlers {cfg : Config} {h : HandlerId} : h ∈ enabledHandlers cfg ↔ h ∈ cfg.enabledFcs := by
  simp only [enabledHandlers, List.mem_filter, decide_eq_true_eq]
  exact ⟨fun x => x.2, fun x => ⟨by cases h <;> simp [allHandlers], x⟩⟩

/-! ### Receive and send -/

theorem receive_some {s : State} (h : frameMin ≤ s.rxPos ∧ crc16 (rxSlice s 0 s.rxPos) = 0#16) :
    receive s = some (rxByte s 0, s.rxPos - 3) := if_pos h

theorem receive_none {s : State} (h : ¬ (frameMin ≤ s.rxPos ∧ crc16 (rxSlice s 0 s.rxPos) = 0#16)) : receive s = none :=
  if_neg h

theorem send_oversize {a : Byte} {len : Nat} {s : State} (h : pduMax < len) : send a len s = .oversize := if_pos h

theorem send_ioError {a : Byte} {len : Nat} {s : State} (h : len ≤ pduMax) (hx : s.rxState ≠ .idle) :
    send a len s = .ioError := by
  rw [send, if_neg (Nat.not_lt.mpr h), if_pos hx]

theorem send_sent {a : Byte} {len : Nat} {s : State} (h : len ≤ pduMax) (hx : s.rxState = .idle) :
    send a len s = .sent (sendFrame a len s) := by
  rw [send, if_neg (Nat.not_lt.mpr h), if_neg (not_not.mpr hx)]

/-! ### Event handlers -/

theorem handleFrameReceived_accept {s : State}
    (h : frameMin ≤ s.rxPos ∧ crc16 (rxSlice s 0 s.rxPos) = 0#16 ∧ rxByte s 0 = s.destAddr) :
    handleFrameReceived s = post .execute { s with rcvPduLen := BitVec.ofNat 16 (s.rxPos - 3) } := by
  rw [handleFrameReceived, receive_some ⟨h.1, h.2.1⟩]
  exact if_pos h.2.2

theorem handleFrameReceived_reject {s : State}
    (h : ¬ (frameMin ≤ s.rxPos ∧ crc16 (rxSlice s 0 s.rxPos) = 0#16 ∧ rxByte s 0 = s.destAddr)) :
    handleFrameReceived s = errorEntry .receiveDataError s := by
  by_cases hr : frameMin ≤ s.rxPos ∧ crc16 (rxSlice s 0 s.rxPos) = 0#16
  · rw [handleFrameReceived, receive_some hr]
    exact if_neg (fun e => h ⟨hr.1, hr.2, e⟩)
  · rw [handleFrameReceived, receive_none hr]

theorem handleFrameSent_oversize {s : State} (h : pduMax < s.sndPduLen.toNat) : handleFrameSent s = markRefused s := by
  rw [handleFrameSent, show getSendLength s = s.sndPduLen from rfl, send_oversize h]

theorem handleFrameSent_rejected {s : State} (h : s.sndPduLen.toNat ≤ pduMax) (hx : s.rxState ≠ .idle) :
    handleFrameSent s = markSendRejected s := by
  rw [handleFrameSent, show getSendLength s = s.sndPduLen from rfl, send_ioError h hx]

theorem handleFrameSent_sent {s : State} (h : s.sndPduLen.toNat ≤ pduMax) (hx : s.rxState = .idle) :
    handleFrameSent s = sendFrame s.destAddr s.sndPduLen.toNat s := by
  rw [handleFrameSent, show getSendLength s = s.sndPduLen from rfl, send_sent h hx]; rfl

/-- What the poll step of `FrameReceived` can change. -/
theorem handleFrameReceived_frame (s : State) :
    ∃ n q f ee, handleFrameReceived s = { s with rcvPduLen := n, evq := q, faults := f, errEvent := ee } := by
  unfold handleFrameReceived
  split
  · split <;> exact ⟨_, _, _, _, rfl⟩
  · exact ⟨_, _, _, _, rfl⟩

/-- What the poll step of `FrameSent` can change. -/
theorem handleFrameSent_frame (s : State) :
    ∃ tb c r ts lm f x, handleFrameSent s =
      { s with txbuf := tb, txCur := c, txRem := r, txState := ts, lineMode := lm, faults := f, refused := x } := by
  unfold handleFrameSent
  split
  · rename_i t h
    unfold send at h
    split at h
    · cases h
    split at h <;> cases h
    exact ⟨_, _, _, _, _, _, _, rfl⟩
  · exact ⟨_, _, _, _, _, _, _, rfl⟩
  · exact ⟨_, _, _, _, _, _, _, rfl⟩

theorem executePdu_exception {v : View} {L : Nat} {s : State} (h : (pduByte v s 0).getLsbD 7 = true) :
    executePdu v L s = errorEntry .executeFunctionError s := if_pos h

theorem executePdu_unknown {v : View} {L : Nat} {s : State} (h : lookup s.hfn (pduByte v s 0) = none) :
    executePdu v L s = errorEntry .executeFunctionError s := by
  simp only [executePdu, h]
  split <;> rfl

theorem executePdu_handler {v : View} {L : Nat} {s : State} {h : HandlerId} (h7 : (pduByte v s 0).getLsbD 7 = false)
    (hl : lookup s.hfn (pduByte v s 0) = some h) : executePdu v L s = concludeExecute (applyHandler h v L s) := by
  have e : exceptionBit (pduByte v s 0) = false := h7
  simp only [executePdu, e, hl]; rfl

theorem applyHandler_unicast {h : HandlerId} {v : View} {L : Nat} {s : State} (hb : s.bcast = false) :
    applyHandler h v L s = ((runHandler h v L s).state, (runHandler h v L s).exc) := by
  rw [applyHandler, show isBroadcast s = false from hb]; rfl

theorem applyHandler_broadcast {h : HandlerId} {v : View} {L : Nat} {s : State} (hb : s.bcast = true) :
    applyHandler h v L s = fanOut h v L s := by
  rw [applyHandler, show isBroadcast s = true from hb]; rfl

theorem handleExecute_unicast {s : State} (hb : s.bcast = false) :
    handleExecute s = { executePdu .rx s.rcvPduLen.toNat s with draws := (executePdu .rx s.rcvPduLen.toNat s).draws + 1 } := by
  rw [handleExecute, show isBroadcast s = false from hb]; rfl

theorem handleExecute_broadcast {s : State} (hb : s.bcast = true) :
    handleExecute s = { executePdu .tx s.sndPduLen.toNat s with draws := (executePdu .tx s.sndPduLen.toNat s).draws + 1 } := by
  rw [handleExecute, show isBroadcast s = true from hb]; rfl

/-- A broadcast's fan-out changes nothing but the store, the address register and the frame buffer that holds its PDU. -/
theorem fanOut_frame (h : HandlerId) (v : View) (L : Nat) (s : State) :
    (fanOut h v L s).1 = { s with
      coils := (fanOut h v L s).1.coils, disc := (fanOut h v L s).1.disc, hold := (fanOut h v L s).1.hold
      input := (fanOut h v L s).1.input, rxbuf := (fanOut h v L s).1.rxbuf, txbuf := (fanOut h v L s).1.txbuf
      destAddr := (fanOut h v L s).1.destAddr } := by
  unfold fanOut
  generalize List.range' 1 s.cfg.maxSlaves = js
  generalize Exc.none = e
  have key : ∀ (js : List Nat) (t : State) (e : Exc),
      t = { s with
        coils := t.coils, disc := t.disc, hold := t.hold, input := t.input, rxbuf := t.rxbuf, txbuf := t.txbuf
        destAddr := t.destAddr } →
      (js.foldl (fanOutOne h v L) (t, e)).1 = { s with
        coils := (js.foldl (fanOutOne h v L) (t, e)).1.coils, disc := (js.foldl (fanOutOne h v L) (t, e)).1.disc
        hold := (js.foldl (fanOutOne h v L) (t, e)).1.hold, input := (js.foldl (fanOutOne h v L) (t, e)).1.input
        rxbuf := (js.foldl (fanOutOne h v L) (t, e)).1.rxbuf, txbuf := (js.foldl (fanOutOne h v L) (t, e)).1.txbuf
        destAddr := (js.foldl (fanOutOne h v L) (t, e)).1.destAddr } := by
    intro js
    induction js with
    | nil => exact fun t e ht => ht
    | cons j js ih =>
      intro t e ht
      rw [List.foldl_cons]
      refine ih _ _ ?_
      have hf := runHandler_frame h v L (setAddress (BitVec.ofNat 8 j) t)
      dsimp only
      generalize (runHandler h v L (setAddress (BitVec.ofNat 8 j) t)).state = u at hf ⊢
      rw [hf, ht]; rfl
  exact key js s e rfl

/-- Whatever a handler is applied to, nothing changes but the store, the address register and the frame buffers. -/
theorem applyHandler_frame (h : HandlerId) (v : View) (L : Nat) (s : State) :
    ∃ c d w i rx tx a, (applyHandler h v L s).1 = { s with
      coils := c, disc := d, hold := w, input := i, rxbuf := rx, txbuf := tx, destAddr := a } := by
  rcases Bool.eq_false_or_eq_true s.bcast with hb | hb
  · rw [applyHandler_broadcast hb]; exact ⟨_, _, _, _, _, _, _, fanOut_frame h v L s⟩
  · rw [applyHandler_unicast hb]; exact ⟨_, _, _, _, _, _, _, runHandler_frame h v L s⟩

/-- What an Execute step can change: the store, the frame buffers, the address register, the token, the error event, the queue and
the fault marks. -/
theorem executePdu_frame (v : View) (L : Nat) (s : State) :
    ∃ c d w i rx tx a tk ee q f, executePdu v L s = { s with
      coils := c, disc := d, hold := w, input := i, rxbuf := rx, txbuf := tx, destAddr := a, token := tk
      errEvent := ee, evq := q, faults := f } := by
  unfold executePdu
  dsimp only
  split
  · exact ⟨_, _, _, _, _, _, _, _, _, _, _, rfl⟩
  · split
    · exact ⟨_, _, _, _, _, _, _, _, _, _, _, rfl⟩
    · rename_i h _
      obtain ⟨c, d, w, i, rx, tx, a, hu⟩ := applyHandler_frame h v L s
      unfold concludeExecute
      split
      · rw [hu]; exact ⟨_, _, _, _, _, _, _, _, _, _, _, rfl⟩
      · rw [hu]; exact ⟨_, _, _, _, _, _, _, _, _, _, _, rfl⟩

theorem handleExecute_frame (s : State) :
    ∃ c d w i rx tx a tk ee q f n, handleExecute s = { s with
      coils := c, disc := d, hold := w, input := i, rxbuf := rx, txbuf := tx, destAddr := a, token := tk
      errEvent := ee, evq := q, faults := f, draws := n } := by
  rcases Bool.eq_false_or_eq_true s.bcast with hb | hb
  · obtain ⟨c, d, w, i, rx, tx, a, tk, ee, q, f, h⟩ := executePdu_frame .tx s.sndPduLen.toNat s
    rw [handleExecute_broadcast hb, h]; exact ⟨_, _, _, _, _, _, _, _, _, _, _, _, rfl⟩
  · obtain ⟨c, d, w, i, rx, tx, a, tk, ee, q, f, h⟩ := executePdu_frame .rx s.rcvPduLen.toNat s
    rw [handleExecute_unicast hb, h]; exact ⟨_, _, _, _, _, _, _, _, _, _, _, _, rfl⟩

/-- An Execute step keeps the token or releases it. -/
theorem executePdu_token (v : View) (L : Nat) (s : State) : (executePdu v L s).token = s.token ∨ (executePdu v L s).token = .free := by
  unfold executePdu
  dsimp only
  split
  · exact .inl rfl
  · split
    · exact .inl rfl
    · rename_i h _
      obtain ⟨_, _, _, _, _, _, _, hu⟩ := applyHandler_frame h v L s
      unfold concludeExecute
      split
      · exact .inr rfl
      · rw [hu]; exact .inl rfl

theorem handleExecute_token (s : State) : (handleExecute s).token = s.token ∨ (handleExecute s).token = .free := by
  rcases Bool.eq_false_or_eq_true s.bcast with hb | hb
  · rw [handleExecute_broadcast hb]; exact executePdu_token ..
  · rw [handleExecute_unicast hb]; exact executePdu_token ..

/-- The fan-out of a handler that every slave refuses without a change: the last slave's exception, the address register at that
slave. -/
theorem fanOut_refused {h : HandlerId} {v : View} {L : Nat} {s : State} (hm : 1 ≤ s.cfg.maxSlaves)
    (hf : ∀ j, 1 ≤ j → j ≤ s.cfg.maxSlaves → ∃ e, e ≠ Exc.none ∧
      runHandler h v L { s with destAddr := BitVec.ofNat 8 j } = ⟨{ s with destAddr := BitVec.ofNat 8 j }, e, L⟩) :
    ∃ e, e ≠ Exc.none ∧ fanOut h v L s = ({ s with destAddr := BitVec.ofNat 8 s.cfg.maxSlaves }, e) := by
  unfold fanOut
  generalize s.cfg.maxSlaves = n at hm hf
  induction n with
  | zero => omega
  | succ n ih =>
    obtain ⟨e, he, hr⟩ := hf (n + 1) (by omega) (by omega)
    refine ⟨e, he, ?_⟩
    rw [List.range'_concat, List.foldl_append, List.foldl_cons, List.foldl_nil, show 1 + 1 * n = n + 1 by omega]
    rcases Nat.eq_zero_or_pos n with h0 | h0
    · subst h0
      simp only [List.range'_zero, List.foldl_nil, fanOutOne, setAddress, hr]
    · obtain ⟨e', -, h2⟩ := ih h0 (fun j a b => hf j a (by omega))
      simp only [h2, fanOutOne, setAddress, hr]

/-- The accepted response stands in the receive buffer, with its length. -/
theorem acceptResponse_len {pdu : List Byte} (s : State) (h : pdu.length ≤ pduMax) :
    (acceptResponse pdu s).rcvPduLen.toNat = pdu.length := by
  have h' : pdu.length ≤ 253 := h
  simp [acceptResponse]; omega

theorem acceptResponse_read (pdu : List Byte) (s : State) (i : Nat) (h : pdu.length ≤ pduMax) :
    Memory.read (acceptResponse pdu s).rxbuf i =
      if h : 1 ≤ i ∧ i < 1 + pdu.length then pdu[i - 1]'(by omega) else Memory.read s.rxbuf i := by
  have h' : pdu.length ≤ 253 := h
  simp only [acceptResponse]
  rw [read_bufWriteBytes]
  by_cases hi : 1 ≤ i ∧ i < 1 + pdu.length
  · rw [dif_pos ⟨hi.1, hi.2, by show i < 256; omega⟩, dif_pos hi]
  · rw [dif_neg (by omega), dif_neg hi]

/-! ### Request builders -/

/-- A submission, field by field. -/
theorem submit_eq (slave : Byte) (pdu : List Byte) (s : State) :
    submit slave pdu s = { s with
      token := .held, destAddr := slave, sndPduLen := BitVec.ofNat 16 pdu.length
      txbuf := Memory.bufWriteBytes s.txbuf 1 pdu
      evq := if s.evq.length < s.cfg.evqCap then s.evq ++ [.frameSent] else s.evq
      faults := if s.evq.length < s.cfg.evqCap then s.faults else { s.faults with eventQueueOverflow := true } } := rfl

theorem countOk_iff (count : Half) (bound : Nat) : countOk count bound = true ↔ 1 ≤ count.toNat ∧ count.toNat ≤ bound :=
  decide_eq_true_iff

theorem countedOk_iff (bytes : List Byte) (n : Nat) :
    countedOk bytes n = true ↔ bytes.length = n + 1 ∧ (bytes.getD 0 0#8).toNat = n := decide_eq_true_iff

/-- What a builder writes after the fields passes the check of the request rows. -/
theorem countedOk_countedBytes (data : List Byte) (h : data.length ≤ 255) : countedOk (countedBytes data) data.length = true := by
  rw [countedOk_iff]
  refine ⟨rfl, ?_⟩
  simp [countedBytes]; omega

@[simp] theorem pduWithBytes_length (h : HandlerId) (a n : Half) (bytes : List Byte) :
    (pduWithBytes h a n bytes).length = 5 + bytes.length := by
  simp [pduWithBytes, pduTwoFields]; omega

@[simp] theorem pduReadWriteBytes_length (ra rn wa wn : Half) (bytes : List Byte) :
    (pduReadWriteBytes ra rn wa wn bytes).length = 9 + bytes.length := by
  simp [pduReadWriteBytes]; omega

/-- What a builder can change: it refuses or answers with a code, and on success submits. -/
theorem requestCommon_frame (h : HandlerId) (slave : Byte) (ok : Bool) (pdu : List Byte) (s : State) :
    ∃ tk a n tx q f r x, requestCommon h slave ok pdu s = { s with
      token := tk, destAddr := a, sndPduLen := n, txbuf := tx, evq := q, faults := f, results := r, refused := x } := by
  unfold requestCommon
  split
  · exact ⟨_, _, _, _, _, _, _, _, rfl⟩
  split
  · exact ⟨_, _, _, _, _, _, _, _, rfl⟩
  split
  · exact ⟨_, _, _, _, _, _, _, _, rfl⟩
  split
  · exact ⟨_, _, _, _, _, _, _, _, rfl⟩
  · rw [submit_eq]
    exact ⟨_, _, _, _, _, _, _, _, rfl⟩

/-- A builder takes the token or leaves it as it is. -/
theorem requestCommon_token (h : HandlerId) (slave : Byte) (ok : Bool) (pdu : List Byte) (s : State) :
    (requestCommon h slave ok pdu s).token = s.token ∨ (requestCommon h slave ok pdu s).token = .held := by
  unfold requestCommon
  split
  · exact .inl rfl
  split
  · exact .inl rfl
  split
  · exact .inl rfl
  split
  · exact .inl rfl
  · exact .inr rfl

/-! ### The poll step -/

/-- An enabled dispatcher with an event handles the oldest one. -/
theorem exec_poll_event {s : State} {ev : Event} {rest : List Event} (h : s.protoState = .enabled) (e : s.evq = ev :: rest) :
    exec .poll s = .next (handleEvent ev { s with evq := rest }) := by
  simp [exec, execPoll, mainFunction, h, e]

theorem exec_poll_disabled {s : State} (h : s.protoState ≠ .enabled) : exec .poll s = .next s := by
  simp [exec, execPoll, mainFunction, h]

theorem exec_poll_empty {s : State} (h : s.evq = []) : exec .poll s = .next s := by
  simp [exec, execPoll, mainFunction, h]

end Sys2Proof.Laws
end

