-- ==== Sys2Proof/Laws/Framing.lean ====
section
/-! SUPPORT. Laws of the framing layer: what each callback answers in each of its states. -/

namespace Sys2Proof.Laws

open Sys2Proof.Machine

/-! ### Receive machine -/

theorem byteReceived_stopped {b : Byte} {s : State} (h : s.running = false) : byteReceived b s = s := by
  simp [byteReceived, h]

theorem byteReceived_idle {b : Byte} {s : State} (h : s.running = true) (hx : s.rxState = .idle) :
    byteReceived b s = { s with
      txState := if s.txState = .done then .idle else s.txState
      rxbuf := Memory.bufWrite s.rxbuf 0 b, rxPos := 1, rxState := .receiving, timer := .armed .t35 } := by
  simp only [byteReceived, h, hx, if_true]; simp [rxIdle, timerEnable, timerDisable, h]

theorem byteReceived_receiving {b : Byte} {s : State} (h : s.running = true) (hx : s.rxState = .receiving)
    (hp : s.rxPos < bufSize) :
    byteReceived b s = { s with
      rxbuf := Memory.bufWrite s.rxbuf s.rxPos b, rxPos := s.rxPos + 1, timer := .armed .t35 } := by
  simp only [byteReceived, h, hx, if_true]; simp [rxReceiving, timerEnable, hp, h, hx]

theorem byteReceived_overflow {b : Byte} {s : State} (h : s.running = true) (hx : s.rxState = .receiving)
    (hp : bufSize ≤ s.rxPos) : byteReceived b s = { s with rxState := .error, timer := .armed .t35 } := by
  simp only [byteReceived, h, hx, if_true]; simp [rxReceiving, timerEnable, Nat.not_lt.mpr hp, h]

theorem byteReceived_discard {b : Byte} {s : State} (h : s.running = true) (hx : s.rxState = .init ∨ s.rxState = .error) :
    byteReceived b s = { s with timer := .armed .t35 } := by
  rcases hx with hx | hx <;> simp [byteReceived, h, hx, rxInit, rxError, timerEnable]

/-- What a received byte can change. -/
theorem byteReceived_frame (b : Byte) (s : State) :
    ∃ tx rb rp rs ti, byteReceived b s = { s with txState := tx, rxbuf := rb, rxPos := rp, rxState := rs, timer := ti } := by
  unfold byteReceived
  split
  · split
    · exact ⟨_, _, _, _, _, rfl⟩
    · exact ⟨_, _, _, _, _, rfl⟩
    · unfold rxReceiving; split <;> exact ⟨_, _, _, _, _, rfl⟩
    · exact ⟨_, _, _, _, _, rfl⟩
  · exact ⟨_, _, _, _, _, rfl⟩

/-- What the bytes of a frame can change. -/
theorem receiveBytes_frame (bs : List Byte) (s : State) :
    ∃ tx rb rp rs ti, bs.foldl (fun t b => byteReceived b t) s =
      { s with txState := tx, rxbuf := rb, rxPos := rp, rxState := rs, timer := ti } := by
  induction bs generalizing s with
  | nil => exact ⟨_, _, _, _, _, rfl⟩
  | cons b bs ih =>
    obtain ⟨_, _, _, _, _, h⟩ := byteReceived_frame b s
    obtain ⟨_, _, _, _, _, h'⟩ := ih (byteReceived b s)
    rw [List.foldl_cons, h', h]
    exact ⟨_, _, _, _, _, rfl⟩

/-! ### Timer -/

/-- After the receive part of an expiry the receive machine is idle, and the send machine and the timer are as before. -/
theorem timerExpiredRx_idle (s : State) :
    (timerExpiredRx s).rxState = .idle ∧ (timerExpiredRx s).txState = s.txState ∧ (timerExpiredRx s).timer = s.timer ∧
      (timerExpiredRx s).running = s.running ∧ (timerExpiredRx s).bcast = s.bcast := by
  unfold timerExpiredRx
  cases hx : s.rxState <;> simp [hx]

theorem portTimerExpiry_off {s : State} (h : s.timer = .off) : portTimerExpiry s = s := by
  simp [portTimerExpiry, h]

theorem portTimerExpiry_armed {s : State} {p : TimerPurpose} (h : s.timer = .armed p) (hr : s.running = true) :
    portTimerExpiry s = timerExpiredTx (timerExpiredRx (timerDisable s)) := by
  simp [portTimerExpiry, h, timerExpired, hr]

/-- What the receive part of an expiry can change. -/
theorem timerExpiredRx_frame (s : State) :
    ∃ rs q f ee, timerExpiredRx s = { s with rxState := rs, evq := q, faults := f, errEvent := ee } := by
  unfold timerExpiredRx
  split <;> exact ⟨_, _, _, _, rfl⟩

/-- What the send part of an expiry can change. -/
theorem timerExpiredTx_frame (s : State) :
    ∃ ts q f ee, timerExpiredTx s = { s with txState := ts, evq := q, faults := f, errEvent := ee } := by
  unfold timerExpiredTx
  split
  · split <;> exact ⟨_, _, _, _, rfl⟩
  · exact ⟨_, _, _, _, rfl⟩
  · exact ⟨_, _, _, _, rfl⟩

/-- What an expiry can change: both machines, the timer, and what a post or an Error entry writes. -/
theorem portTimerExpiry_frame (s : State) :
    ∃ ts rs ti q f ee, portTimerExpiry s =
      { s with txState := ts, rxState := rs, timer := ti, evq := q, faults := f, errEvent := ee } := by
  unfold portTimerExpiry
  split
  · unfold timerExpired
    split
    · obtain ⟨_, _, _, _, h⟩ := timerExpiredRx_frame (timerDisable s)
      obtain ⟨_, _, _, _, h'⟩ := timerExpiredTx_frame (timerExpiredRx (timerDisable s))
      rw [h', h]; exact ⟨_, _, _, _, _, _, rfl⟩
    · exact ⟨_, _, _, _, _, _, rfl⟩
  · exact ⟨_, _, _, _, _, _, rfl⟩

/-- What a frame on the line can change. -/
theorem receiveFrame_frame (bs : List Byte) (s : State) :
    ∃ ts rs ti q f ee rb rp, receiveFrame bs s =
      { s with txState := ts, rxState := rs, timer := ti, evq := q, faults := f, errEvent := ee, rxbuf := rb, rxPos := rp } := by
  obtain ⟨_, _, _, _, _, h⟩ := receiveBytes_frame bs s
  obtain ⟨_, _, _, _, _, _, h'⟩ := portTimerExpiry_frame (bs.foldl (fun t b => byteReceived b t) s)
  rw [receiveFrame, h', h]; exact ⟨_, _, _, _, _, _, _, _, rfl⟩

/-! ### Transmit machine -/

theorem transmitterEmpty_still {s : State} (h : s.running = false ∨ s.txState ≠ .transmitting) : transmitterEmpty s = s := by
  rcases h with h | h
  · simp [transmitterEmpty, h]
  · unfold transmitterEmpty
    split
    · split <;> simp_all
    · rfl

theorem transmitterEmpty_next {s : State} (h : s.running = true) (ht : s.txState = .transmitting) (hr : s.txRem ≠ 0) :
    transmitterEmpty s = txNextByte s := by
  simp [transmitterEmpty, h, ht, hr]

theorem transmitterEmpty_end {s : State} (h : s.running = true) (ht : s.txState = .transmitting) (hr : s.txRem = 0) :
    transmitterEmpty s = txEnd s := by
  simp [transmitterEmpty, h, ht, hr]

end Sys2Proof.Laws
end

