-- ==== Sys2Proof/Laws/PerInstr.lean ====
section
/-! SUPPORT. Statements made for every instruction, one lemma per constructor. -/

namespace Sys2Proof.Laws

open Sys2Proof.Machine

/-- The step kind that begins the encoding of an instruction (log 1). -/
def EncodeKind.kindOf : Instr → Byte
  | .reqRc _ _ => kindRequest
  | .reqRdi _ _ => kindRequest
  | .reqRhr _ _ => kindRequest
  | .reqRir _ _ => kindRequest
  | .reqWsc _ _ => kindRequest
  | .reqWsr _ _ => kindRequest
  | .reqWmc _ _ _ => kindRequest
  | .reqWmr _ _ _ => kindRequest
  | .reqRwmr _ _ _ _ _ => kindRequest
  | .reqRsid => kindRequest
  | .rspRc _ => kindResponse
  | .rspRdi _ => kindResponse
  | .rspRhr _ => kindResponse
  | .rspRir _ => kindResponse
  | .rspWsc _ => kindResponse
  | .rspWsr _ => kindResponse
  | .rspWmc _ => kindResponse
  | .rspWmr _ => kindResponse
  | .rspRsid _ => kindResponse
  | .rspRwmr _ => kindResponse
  | .rspException _ _ => kindResponse
  | .rspUnknown _ _ => kindResponse
  | .frame _ _ _ _ => kindFrame
  | .appInit _ => kindInit
  | .appEnable => kindEnable
  | .appDisable => kindDisable
  | .appSetSlaveId _ _ _ => kindSetSlaveId
  | .appStoreRead _ _ _ _ => kindStoreRead
  | .poll => kindPoll
  | .portRx _ => kindRx
  | .portTxe => kindTxe
  | .portTmo => kindTmo
  | .appRequestReadCoils _ _ _ => kindBuilder .rc
  | .appRequestReadDiscreteInputs _ _ _ => kindBuilder .rdi
  | .appRequestReadHoldingRegister _ _ _ => kindBuilder .rhr
  | .appRequestReadInputRegister _ _ _ => kindBuilder .rir
  | .appRequestWriteSingleCoil _ _ _ => kindBuilder .wsc
  | .appRequestWriteHoldingRegister _ _ _ => kindBuilder .wsr
  | .appRequestWriteMultipleCoils _ _ _ _ => kindBuilder .wmc
  | .appRequestWriteMultipleHoldingRegister _ _ _ _ => kindBuilder .wmr
  | .appRequestReadWriteMultipleHoldingRegister _ _ _ _ _ _ => kindBuilder .rwmr

/-- The encoding begins with the instruction's kind, so it is never empty. -/
def EncodeKind.Statement (i : Instr) : Prop := ∃ rest, encode i = EncodeKind.kindOf i :: rest

theorem EncodeKind.reqRc (addr count : Half) : EncodeKind.Statement (.reqRc addr count) := ⟨_, rfl⟩
theorem EncodeKind.reqRdi (addr count : Half) : EncodeKind.Statement (.reqRdi addr count) := ⟨_, rfl⟩
theorem EncodeKind.reqRhr (addr count : Half) : EncodeKind.Statement (.reqRhr addr count) := ⟨_, rfl⟩
theorem EncodeKind.reqRir (addr count : Half) : EncodeKind.Statement (.reqRir addr count) := ⟨_, rfl⟩
theorem EncodeKind.reqWsc (addr value : Half) : EncodeKind.Statement (.reqWsc addr value) := ⟨_, rfl⟩
theorem EncodeKind.reqWsr (addr value : Half) : EncodeKind.Statement (.reqWsr addr value) := ⟨_, rfl⟩
theorem EncodeKind.reqWmc (addr count : Half) (bytes : List Byte) : EncodeKind.Statement (.reqWmc addr count bytes) := ⟨_, rfl⟩
theorem EncodeKind.reqWmr (addr count : Half) (bytes : List Byte) : EncodeKind.Statement (.reqWmr addr count bytes) := ⟨_, rfl⟩
theorem EncodeKind.reqRwmr (raddr rcount waddr wcount : Half) (bytes : List Byte) : EncodeKind.Statement (.reqRwmr raddr rcount waddr wcount bytes) := ⟨_, rfl⟩
theorem EncodeKind.reqRsid : EncodeKind.Statement (.reqRsid) := ⟨_, rfl⟩
theorem EncodeKind.rspRc (data : List Byte) : EncodeKind.Statement (.rspRc data) := ⟨_, rfl⟩
theorem EncodeKind.rspRdi (data : List Byte) : EncodeKind.Statement (.rspRdi data) := ⟨_, rfl⟩
theorem EncodeKind.rspRhr (data : List Byte) : EncodeKind.Statement (.rspRhr data) := ⟨_, rfl⟩
theorem EncodeKind.rspRir (data : List Byte) : EncodeKind.Statement (.rspRir data) := ⟨_, rfl⟩
theorem EncodeKind.rspWsc (data : List Byte) : EncodeKind.Statement (.rspWsc data) := ⟨_, rfl⟩
theorem EncodeKind.rspWsr (data : List Byte) : EncodeKind.Statement (.rspWsr data) := ⟨_, rfl⟩
theorem EncodeKind.rspWmc (data : List Byte) : EncodeKind.Statement (.rspWmc data) := ⟨_, rfl⟩
theorem EncodeKind.rspWmr (data : List Byte) : EncodeKind.Statement (.rspWmr data) := ⟨_, rfl⟩
theorem EncodeKind.rspRsid (data : List Byte) : EncodeKind.Statement (.rspRsid data) := ⟨_, rfl⟩
theorem EncodeKind.rspRwmr (data : List Byte) : EncodeKind.Statement (.rspRwmr data) := ⟨_, rfl⟩
theorem EncodeKind.rspException (fc : Byte) (data : List Byte) : EncodeKind.Statement (.rspException fc data) := ⟨_, rfl⟩
theorem EncodeKind.rspUnknown (fc : Byte) (data : List Byte) : EncodeKind.Statement (.rspUnknown fc data) := ⟨_, rfl⟩
theorem EncodeKind.frame (address : Byte) (pdu : List Byte) (crcLo crcHi : Byte) : EncodeKind.Statement (.frame address pdu crcLo crcHi) := ⟨_, rfl⟩
theorem EncodeKind.appInit (arg : InitArg) : EncodeKind.Statement (.appInit arg) := ⟨_, rfl⟩
theorem EncodeKind.appEnable : EncodeKind.Statement (.appEnable) := ⟨_, rfl⟩
theorem EncodeKind.appDisable : EncodeKind.Statement (.appDisable) := ⟨_, rfl⟩
theorem EncodeKind.appSetSlaveId (id : Byte) (running : Bool) (extra : List Byte) : EncodeKind.Statement (.appSetSlaveId id running extra) := ⟨_, rfl⟩
theorem EncodeKind.appStoreRead (table : Table) (slave : Byte) (addr : Half) (n : Nat) : EncodeKind.Statement (.appStoreRead table slave addr n) := ⟨_, rfl⟩
theorem EncodeKind.poll : EncodeKind.Statement (.poll) := ⟨_, rfl⟩
theorem EncodeKind.portRx (b : Byte) : EncodeKind.Statement (.portRx b) := ⟨_, rfl⟩
theorem EncodeKind.portTxe : EncodeKind.Statement (.portTxe) := ⟨_, rfl⟩
theorem EncodeKind.portTmo : EncodeKind.Statement (.portTmo) := ⟨_, rfl⟩
theorem EncodeKind.appRequestReadCoils (slave : Byte) (addr count : Half) : EncodeKind.Statement (.appRequestReadCoils slave addr count) := ⟨_, rfl⟩
theorem EncodeKind.appRequestReadDiscreteInputs (slave : Byte) (addr count : Half) : EncodeKind.Statement (.appRequestReadDiscreteInputs slave addr count) := ⟨_, rfl⟩
theorem EncodeKind.appRequestReadHoldingRegister (slave : Byte) (addr count : Half) : EncodeKind.Statement (.appRequestReadHoldingRegister slave addr count) := ⟨_, rfl⟩
theorem EncodeKind.appRequestReadInputRegister (slave : Byte) (addr count : Half) : EncodeKind.Statement (.appRequestReadInputRegister slave addr count) := ⟨_, rfl⟩
theorem EncodeKind.appRequestWriteSingleCoil (slave : Byte) (addr value : Half) : EncodeKind.Statement (.appRequestWriteSingleCoil slave addr value) := ⟨_, rfl⟩
theorem EncodeKind.appRequestWriteHoldingRegister (slave : Byte) (addr value : Half) : EncodeKind.Statement (.appRequestWriteHoldingRegister slave addr value) := ⟨_, rfl⟩
theorem EncodeKind.appRequestWriteMultipleCoils (slave : Byte) (addr count : Half) (bits : List Byte) : EncodeKind.Statement (.appRequestWriteMultipleCoils slave addr count bits) := ⟨_, rfl⟩
theorem EncodeKind.appRequestWriteMultipleHoldingRegister (slave : Byte) (addr count : Half) (values : List Half) : EncodeKind.Statement (.appRequestWriteMultipleHoldingRegister slave addr count values) := ⟨_, rfl⟩
theorem EncodeKind.appRequestReadWriteMultipleHoldingRegister (slave : Byte) (raddr rcount waddr wcount : Half) (values : List Half) : EncodeKind.Statement (.appRequestReadWriteMultipleHoldingRegister slave raddr rcount waddr wcount values) := ⟨_, rfl⟩

end Sys2Proof.Laws
end

