-- ==== Sys2Proof/Laws/Program.lean ====
section
/-! SUPPORT. Laws of programs as lists of steps, and of the slices of the send buffer that a transmission sends. -/

namespace Sys2Proof.Laws

open Sys2Proof.Machine

theorem runSteps_cons {i : Instr} {s t : State} (is : List Instr) (h : exec i s = .next t) :
    runSteps (i :: is) s = runSteps is t := by
  simp only [runSteps, h]

theorem runSteps_append {a : List Instr} {s t : State} (b : List Instr) (h : runSteps a s = .next t) :
    runSteps (a ++ b) s = runSteps b t := by
  induction a generalizing s with
  | nil => cases h; rfl
  | cons i is ih =>
    simp only [List.cons_append, runSteps] at h ⊢
    split at h
    · exact ih h
    · cases h
    · cases h

theorem txSlice_length (s : State) (i n : Nat) : (txSlice s i n).length = n := by simp [txSlice]

theorem txSlice_succ (s : State) (i n : Nat) : txSlice s i (n + 1) = txByte s i :: txSlice s (i + 1) n := by
  simp only [txSlice, List.range_succ_eq_map, List.map_cons, List.map_map, Nat.add_zero]
  congr 1
  exact List.map_congr_left (fun k _ => by simp only [Function.comp_apply, Nat.succ_eq_add_one]; congr 1; omega)

/-- A slice of the send buffer depends on the buffer and the counter of the free values alone. -/
theorem txSlice_congr {s t : State} (i n : Nat) (h : t.txbuf = s.txbuf) (hd : t.draws = s.draws) :
    txSlice t i n = txSlice s i n := by
  simp only [txSlice, txByte, h, hd]

end Sys2Proof.Laws
end

