-- ==== Sys2Proof/Tests/Slice0.lean ====
section
/-! SUPPORT. The model's own tests: one step each on a small state, with the values of spec/95_test_vectors.md, the words of
spec/30_encoding.md and the words of the model's program encoding (log 1); and a witness for the hypotheses of every statement. -/

namespace Sys2Proof.Tests

open Sys2Proof.Machine Sys2Proof.Claims

set_option Elab.async false

/-! ### Helpers -/

def bytes (l : List Nat) : List Byte := l.map (BitVec.ofNat 8)

/-- The state that an instruction leaves. -/
def after (i : Instr) (s : State) : State :=
  match exec i s with
  | .next t => t
  | .fault _ => s
  | .refused _ => s

def run (is : List Instr) (s : State) : State := is.foldl (fun t i => after i t) s

/-- Every meaning answers a next state, the one that `after` gives. -/
theorem exec_eq_after (i : Instr) (s : State) : exec i s = .next (after i s) := by cases i <;> rfl

def launchedWith (cfg : Config) : State := State.atStart cfg [] [] [] []

/-- The boot sequence of spec/95_test_vectors.md. -/
def bootSteps : List Instr := [.appInit (.record .rtu), .appEnable, .portTmo, .poll]

def bootedWith (cfg : Config) : State := run bootSteps (launchedWith cfg)

def booted : State := bootedWith Config.default

/-- A request of slave 1 stands in the send buffer, its transaction outstanding. -/
def requested (pdu : List Nat) (s : State) : State :=
  { s with
    token := .held, destAddr := 1#8, sndPduLen := BitVec.ofNat 16 pdu.length
    txbuf := Memory.bufWriteBytes s.txbuf 1 (bytes pdu) }

/-- The request was a broadcast whose conversion delay has expired. -/
def broadcastDue (pdu : List Nat) (s : State) : State :=
  { requested pdu s with bcast := true, destAddr := 0#8, evq := [.execute] }

/-- A response PDU was accepted. -/
def accepted (pdu : List Nat) (s : State) : State :=
  { s with
    rcvPduLen := BitVec.ofNat 16 pdu.length, evq := [.execute]
    rxbuf := Memory.bufWriteBytes s.rxbuf 1 (bytes pdu) }

/-- A frame stands in the receive buffer and its end was posted. -/
def frameReceived (frame : List Nat) (s : State) : State :=
  { s with
    rxPos := frame.length, evq := [.frameReceived], rxbuf := Memory.bufWriteBytes s.rxbuf 0 (bytes frame) }

/-- The send machine after `Send` built the frame of T-T3. -/
def sending : State := { after .poll { requested [3, 0, 0, 0, 2] booted with destAddr := 0x11#8, evq := [.frameSent] } with evq := [] }

def pduOf (s : State) : List Byte := txSlice s 1 s.sndPduLen.toNat

/-! ### Well-formedness: an ill-formed term for each check -/

theorem test_wellFormed_refuses_long_requests :
    (Instr.reqWmc 0#16 1#16 (List.replicate 249 0#8)).wellFormed = false ∧
    (Instr.reqWmr 0#16 1#16 (List.replicate 249 0#8)).wellFormed = false ∧
    (Instr.reqRwmr 0#16 1#16 0#16 1#16 (List.replicate 245 0#8)).wellFormed = false := by decide +kernel

theorem test_wellFormed_refuses_long_responses :
    ([Instr.rspRc, .rspRdi, .rspRhr, .rspRir, .rspWsc, .rspWsr, .rspWmc, .rspWmr, .rspRsid, .rspRwmr, .rspException 0x83#8,
      .rspUnknown 0x07#8].all (fun k => !(k (List.replicate 253 0#8)).wellFormed)) = true := by decide +kernel

theorem test_wellFormed_refuses_codes_of_other_rows :
    (Instr.rspException 0x03#8 []).wellFormed = false ∧ (Instr.rspUnknown 0x87#8 []).wellFormed = false ∧
    (Instr.rspUnknown 0x03#8 []).wellFormed = false := by decide +kernel

theorem test_wellFormed_refuses_frame :
    (Instr.frame 1#8 [] 0#8 0#8).wellFormed = false ∧
    (Instr.frame 1#8 (List.replicate 254 0#8) 0#8 0#8).wellFormed = false := by decide +kernel

theorem test_wellFormed_refuses_appStoreRead : (Instr.appStoreRead .coils 1#8 0#16 4294967296).wellFormed = false := by
  decide +kernel

theorem test_wellFormed_refuses_long_sequences (n : Nat) (h : 65536 ≤ n) :
    (Instr.appSetSlaveId 1#8 true (List.replicate n 0#8)).wellFormed = false ∧
    (Instr.appRequestWriteMultipleCoils 1#8 0#16 1#16 (List.replicate n 0#8)).wellFormed = false ∧
    (Instr.appRequestWriteMultipleHoldingRegister 1#8 0#16 1#16 (List.replicate n 0#16)).wellFormed = false ∧
    (Instr.appRequestReadWriteMultipleHoldingRegister 1#8 0#16 1#16 0#16 1#16
      (List.replicate n 0#16)).wellFormed = false := by
  simp [Instr.wellFormed, seqOk, h]

/-! ### Decoding. The PDU and frame bytes are those of R95 to R97 and spec/95; the bytes before them are log 1's. -/

theorem test_decode_request_pdus_of_two_fields :
    decode (bytes [0x51, 5, 0x01, 0x00, 0x13, 0x00, 0x0A]) = .ok (.reqRc 0x13#16 10#16, []) ∧
    decode (bytes [0x51, 5, 0x02, 0x00, 0xC4, 0x00, 0x03]) = .ok (.reqRdi 0xC4#16 3#16, []) ∧
    decode (bytes [0x51, 5, 0x03, 0x00, 0x64, 0x00, 0x02]) = .ok (.reqRhr 100#16 2#16, []) ∧
    decode (bytes [0x51, 5, 0x04, 0x00, 0x08, 0x00, 0x01]) = .ok (.reqRir 8#16 1#16, []) ∧
    decode (bytes [0x51, 5, 0x05, 0x00, 0xAC, 0xFF, 0x00]) = .ok (.reqWsc 0xAC#16 0xFF00#16, []) ∧
    decode (bytes [0x51, 5, 0x06, 0x00, 0x01, 0x00, 0x03]) = .ok (.reqWsr 1#16 3#16, []) ∧
    decode (bytes [0x51, 1, 0x11]) = .ok (.reqRsid, []) := by decide +kernel

theorem test_decode_request_pdus_with_data :
    decode (bytes [0x51, 8, 0x0F, 0x00, 0x13, 0x00, 0x0A, 0x02, 0xCD, 0x01]) =
      .ok (.reqWmc 0x13#16 10#16 (bytes [2, 0xCD, 0x01]), []) ∧
    decode (bytes [0x51, 10, 0x10, 0x00, 0x01, 0x00, 0x02, 0x04, 0x00, 0x0A, 0x01, 0x02]) =
      .ok (.reqWmr 1#16 2#16 (bytes [4, 0x00, 0x0A, 0x01, 0x02]), []) ∧
    decode (bytes [0x51, 16, 0x17, 0, 3, 0, 6, 0, 0x0E, 0, 3, 6, 0, 0xFF, 0, 0xFF, 0, 0xFF]) =
      .ok (.reqRwmr 3#16 6#16 14#16 3#16 (bytes [6, 0, 0xFF, 0, 0xFF, 0, 0xFF]), []) := by decide +kernel

theorem test_decode_response_pdus :
    decode (bytes [0x52, 4, 0x01, 0x02, 0xCD, 0x01]) = .ok (.rspRc (bytes [0x02, 0xCD, 0x01]), []) ∧
    decode (bytes [0x52, 3, 0x02, 0x01, 0x05]) = .ok (.rspRdi (bytes [0x01, 0x05]), []) ∧
    decode (bytes [0x52, 6, 0x03, 0x04, 0, 0x0A, 0, 0x0B]) = .ok (.rspRhr (bytes [4, 0, 0x0A, 0, 0x0B]), []) ∧
    decode (bytes [0x52, 4, 0x04, 0x02, 0x12, 0x34]) = .ok (.rspRir (bytes [0x02, 0x12, 0x34]), []) ∧
    decode (bytes [0x52, 5, 0x05, 0x00, 0xAC, 0xFF, 0x00]) = .ok (.rspWsc (bytes [0x00, 0xAC, 0xFF, 0x00]), []) ∧
    decode (bytes [0x52, 5, 0x06, 0, 1, 0, 3]) = .ok (.rspWsr (bytes [0, 1, 0, 3]), []) := by decide +kernel

theorem test_decode_the_other_response_pdus :
    decode (bytes [0x52, 5, 0x0F, 0, 0x13, 0, 0x0A]) = .ok (.rspWmc (bytes [0, 0x13, 0, 0x0A]), []) ∧
    decode (bytes [0x52, 5, 0x10, 0, 1, 0, 2]) = .ok (.rspWmr (bytes [0, 1, 0, 2]), []) ∧
    decode (bytes [0x52, 1, 0x11]) = .ok (.rspRsid [], []) ∧
    decode (bytes [0x52, 4, 0x17, 0x02, 0x00, 0xFE]) = .ok (.rspRwmr (bytes [0x02, 0x00, 0xFE]), []) ∧
    decode (bytes [0x52, 2, 0x83, 0x02]) = .ok (.rspException 0x83#8 [0x02#8], []) ∧
    decode (bytes [0x52, 2, 0x07, 0x00]) = .ok (.rspUnknown 0x07#8 [0x00#8], []) := by decide +kernel

theorem test_decode_frame :
    decode (bytes [0x46, 5, 0x11, 0x03, 0x00, 0x00, 0x00, 0x02, 0xC6, 0x9B]) =
      .ok (.frame 0x11#8 (bytes [0x03, 0x00, 0x00, 0x00, 0x02]) 0xC6#8 0x9B#8, []) ∧
    decodeFrame (bytes [0x01, 0x03, 0x40, 0x21]) = .ok (.frame 1#8 [0x03#8] 0x40#8 0x21#8) := by decide +kernel

theorem test_decode_lifecycle_steps :
    decode (bytes [0x10, 1, 0x20]) = .ok (.appInit (.record .rtu), [0x20#8]) ∧
    decode (bytes [0x10, 0]) = .ok (.appInit .null, []) ∧
    decode (bytes [0x11]) = .ok (.appEnable, []) ∧
    decode (bytes [0x12]) = .ok (.appDisable, []) ∧
    decode (bytes [0x13, 0x42, 1, 0, 2, 7, 8]) = .ok (.appSetSlaveId 0x42#8 true [7#8, 8#8], []) ∧
    decode (bytes [0x14, 2, 1, 0x00, 0x64, 0, 0, 0, 2]) = .ok (.appStoreRead .hold 1#8 100#16 2, []) := by decide +kernel

theorem test_decode_poll_and_port_steps :
    decode (bytes [0x20]) = .ok (.poll, []) ∧
    decode (bytes [0x30, 0x55]) = .ok (.portRx 0x55#8, []) ∧
    decode (bytes [0x31]) = .ok (.portTxe, []) ∧
    decode (bytes [0x32]) = .ok (.portTmo, []) := by decide +kernel

theorem test_decode_builder_calls :
    decode (bytes [0x81, 1, 0, 0x13, 0, 0x0A]) = .ok (.appRequestReadCoils 1#8 0x13#16 10#16, []) ∧
    decode (bytes [0x82, 1, 0, 0xC4, 0, 3]) = .ok (.appRequestReadDiscreteInputs 1#8 0xC4#16 3#16, []) ∧
    decode (bytes [0x83, 1, 0, 0x64, 0, 2]) = .ok (.appRequestReadHoldingRegister 1#8 100#16 2#16, []) ∧
    decode (bytes [0x84, 1, 0, 8, 0, 1]) = .ok (.appRequestReadInputRegister 1#8 8#16 1#16, []) ∧
    decode (bytes [0x85, 1, 0, 0xAC, 0xFF, 0]) = .ok (.appRequestWriteSingleCoil 1#8 0xAC#16 0xFF00#16, []) ∧
    decode (bytes [0x86, 1, 0, 1, 0, 3]) = .ok (.appRequestWriteHoldingRegister 1#8 1#16 3#16, []) ∧
    decode (bytes [0x8F, 1, 0, 0x13, 0, 0x0A, 0, 2, 0xCD, 0x01]) =
      .ok (.appRequestWriteMultipleCoils 1#8 0x13#16 10#16 [0xCD#8, 0x01#8], []) ∧
    decode (bytes [0x90, 1, 0, 1, 0, 2, 0, 2, 0, 0x0A, 1, 2]) =
      .ok (.appRequestWriteMultipleHoldingRegister 1#8 1#16 2#16 [0x000A#16, 0x0102#16], []) ∧
    decode (bytes [0x97, 1, 0, 3, 0, 6, 0, 14, 0, 1, 0, 1, 0, 0xFF]) =
      .ok (.appRequestReadWriteMultipleHoldingRegister 1#8 3#16 6#16 14#16 1#16 [0xFF#16], []) := by decide +kernel

theorem test_decode_rejects_by_name :
    decode [] = .error .endOfProgram ∧ decode (bytes [0x30]) = .error .truncated ∧
    decode (bytes [0x00]) = .error .unknownKind ∧ decode (bytes [0x51, 0]) = .error .emptyPdu ∧
    decode (bytes ([0x52, 254] ++ List.replicate 254 3)) = .error .pduTooLong ∧
    decode (bytes ([0x51, 254, 0x0F] ++ List.replicate 253 0)) = .error .pduTooLong ∧
    decode (bytes [0x51, 2, 0x07, 0]) = .error .unknownRequestCode := by decide +kernel

theorem test_decode_rejects_layouts_by_name :
    decode (bytes [0x51, 4, 0x03, 0, 0, 0]) = .error .badPduLength ∧
    decode (bytes [0x51, 2, 0x11, 0]) = .error .badPduLength ∧
    decode (bytes [0x51, 3, 0x0F, 0, 0]) = .error .badPduLength ∧
    decode (bytes [0x46, 0, 1, 2, 3]) = .error .badPduLength ∧
    decode (bytes [0x10, 9]) = .error .badOperand := by decide +kernel

/-- No value of a field of a request stops a run: a coil value other than those of R99, a count of 0 and one above its bound, a byte
count that is not the one of the count, and no byte count. -/
theorem test_decode_reads_every_operand_value :
    decode (bytes [0x51, 5, 0x05, 0, 0, 0, 1]) = .ok (.reqWsc 0#16 1#16, []) ∧
    decode (bytes [0x51, 6, 0x0F, 0, 0, 0, 0, 0]) = .ok (.reqWmc 0#16 0#16 [0#8], []) ∧
    decode (bytes [0x51, 7, 0x0F, 0, 0, 0x07, 0xB1, 9, 0]) = .ok (.reqWmc 0#16 0x07B1#16 (bytes [9, 0]), []) ∧
    decode (bytes [0x51, 5, 0x10, 0, 0, 0, 1]) = .ok (.reqWmr 0#16 1#16 [], []) ∧
    decode (bytes [0x51, 10, 0x17, 0, 0, 0, 0x7E, 0, 0, 0, 0, 1]) =
      .ok (.reqRwmr 0#16 0x7E#16 0#16 0#16 [1#8], []) := by decide +kernel

theorem test_table_word_is_a_response : decodeTableWord 8 0x83 = some (.rspException 0x83#8 (bytes [0, 0, 0, 0])) := by
  decide +kernel

/-! ### CRC engine (T-C4, T-C6, T-C7) -/

theorem test_crc_of_a_corrupted_frame : crc16 (bytes [0x01, 0x03, 0x04, 0x00, 0x0A, 0x00, 0x0B, 0x9B, 0xF7]) = 0xC0C1#16 := by
  decide +kernel

theorem test_frame_bytes :
    frameBytes 1#8 (bytes [0x83, 0x02]) = bytes [0x01, 0x83, 0x02, 0xC0, 0xF1] ∧
    frameBytes 0#8 (bytes [0x05, 0x00, 0x05, 0xFF, 0x00]) = bytes [0x00, 0x05, 0x00, 0x05, 0xFF, 0x00, 0x9D, 0xEA] := by
  decide +kernel

/-! ### Register store (T-S1 to T-S14) -/

/-- A bit image of two bytes for slave 0, read back as two bytes. -/
def image (a b : Nat) : Memory := Memory.writeBytes [] 0 (bytes [a, b])

theorem test_setBits :
    setBits (image 0x00 0x00) 0 6 4 0x0F#8 = image 0xC0 0x03 ∧ setBits (image 0xFF 0xFF) 0 7 8 0x00#8 = image 0x7F 0x80 ∧
    setBits (image 0x00 0x00) 0 0 3 0xFF#8 = image 0x07 0x00 := by decide +kernel

theorem test_getBits : getBits (image 0xC0 0x03) 0 6 4 = 0x0F#8 ∧ getBits (image 0xC0 0x03) 0 4 4 = 0x0C#8 := by decide +kernel

theorem test_storeIndex :
    storeIndex { Config.default with holdWindow := ⟨100, 10⟩ } .hold 1#8 101#16 2 = .ok 0 ∧
    storeIndex { Config.default with holdWindow := ⟨100, 10⟩ } .hold 1#8 110#16 2 = .error .noSuchRegister ∧
    storeIndex { Config.default with holdWindow := ⟨100, 10⟩ } .hold 1#8 100#16 1 = .error .noSuchRegister ∧
    storeIndex { Config.default with holdWindow := ⟨0, 65535⟩ } .hold 1#8 0#16 1 = .error .noSuchRegister := by
  decide +kernel

theorem test_storeWrite_refuses :
    storeWrite .hold 3#8 1#16 1 (bytes [0, 1]) booted = (booted, .noSuchRegister) ∧
    storeWrite .hold 1#8 5#16 0 [] booted = (booted, .noError) := by decide +kernel

theorem test_storeWrite_coils :
    (storeWrite .coils 1#8 0x14#16 10 (bytes [0xCD, 0x01]) booted).2 = .noError ∧
    packedBits (storeWrite .coils 1#8 0x14#16 10 (bytes [0xCD, 0x01]) booted).1.coils 1 0x13 10 = bytes [0xCD, 0x01] := by
  decide +kernel

theorem test_storeWrite_disc_with_a_base :
    tableRead .disc (storeWrite .disc 1#8 0xC5#16 3 [0x05#8]
      (launchedWith { Config.default with discWindow := ⟨0xC0, 16⟩ })).1.disc 1 4 3 = .bits [true, false, true] := by
  decide +kernel

theorem test_storeWrite_input_with_a_base :
    wordAt (storeWrite .input 1#8 9#16 1 (bytes [0x12, 0x34])
      (launchedWith { Config.default with inputWindow := ⟨8, 16⟩ })).1.input 1 0 = 0x1234#16 := by decide +kernel

/-! ### Application steps -/

theorem test_reset_answers_no_call :
    (run [.appEnable, .appDisable, .poll] State.reset).results = [.code .illegalState, .code .illegalState] := by
  decide +kernel

theorem test_appInit : after (.appInit .null) State.reset = answered .invalidArgument State.reset ∧
    (after (.appInit (.record .rtu)) State.reset).protoState = .disabled := by decide +kernel

theorem test_appInit_port_error :
    (after (.appInit (.record .rtu)) (launchedWith { Config.default with timerInitOk := false })).results = [.code .portError] ∧
    (after (.appInit (.record .rtu)) booted).refused = true := by decide +kernel

theorem test_booted :
    booted.protoState = .enabled ∧ booted.rxState = .idle ∧ booted.txState = .idle ∧ booted.timer = .off ∧
    booted.lineMode = .rx ∧ booted.token = .free ∧ booted.evq = [] ∧ booted.faults = ⟨false, false⟩ := by decide +kernel

theorem test_appEnable :
    (run [.appInit (.record .rtu), .appEnable] State.reset).timer = .armed .t35 ∧
    (after .appEnable booted).results = booted.results ++ [.code .illegalState] := by decide +kernel

theorem test_appDisable : (after .appDisable booted).running = false ∧ (after .appDisable booted).protoState = .disabled := by
  decide +kernel

theorem test_appSetSlaveId :
    (after (.appSetSlaveId 0x42#8 true []) booted).sidBuf = Memory.writeBytes [] 0 (bytes [0x42, 0xFF]) ∧
    (after (.appSetSlaveId 0x42#8 true []) booted).sidLen = 2 := by decide +kernel

theorem test_appSetSlaveId_too_long :
    after (.appSetSlaveId 0x42#8 false (bytes [1, 2, 3, 4, 5, 6, 7])) booted = answered .insufficientResources booted := by
  decide +kernel

theorem test_appStoreRead :
    (after (.appStoreRead .hold 1#8 100#16 2)
      (storeWrite .hold 1#8 101#16 2 (bytes [0x00, 0x0A, 0x00, 0x0B]) booted).1).results.getLast? =
      some (.words [10#16, 11#16]) := by decide +kernel

theorem test_appStoreRead_outside :
    (after (.appStoreRead .hold 1#8 255#16 2) booted).results.getLast? = some (.code .noSuchRegister) := by decide +kernel

/-! ### Request builders (T-B1 to T-B17) -/

theorem test_appRequestReadCoils :
    pduOf (after (.appRequestReadCoils 1#8 0x13#16 10#16) booted) = bytes [0x01, 0x00, 0x13, 0x00, 0x0A] ∧
    after (.appRequestReadCoils 1#8 0#16 0x07D1#16) booted = answered .invalidArgument booted := by decide +kernel

theorem test_appRequestReadCoils_not_enabled :
    (after (.appRequestReadCoils 1#8 0#16 1#16)
      (bootedWith { Config.default with enabledFcs := [.rhr] })).refused = true := by decide +kernel

theorem test_appRequestReadDiscreteInputs :
    pduOf (after (.appRequestReadDiscreteInputs 1#8 0xC4#16 3#16) booted) = bytes [0x02, 0x00, 0xC4, 0x00, 0x03] := by
  decide +kernel

theorem test_appRequestReadHoldingRegister_broadcast :
    (after (.appRequestReadHoldingRegister 0#8 0#16 1#16) booted).destAddr = 0#8 ∧
    pduOf (after (.appRequestReadHoldingRegister 0#8 0#16 1#16) booted) = bytes [0x03, 0x00, 0x00, 0x00, 0x01] := by
  decide +kernel

theorem test_appRequestReadHoldingRegister_checks_first :
    after (.appRequestReadHoldingRegister 3#8 0#16 1#16) { booted with token := .held } =
      answered .invalidArgument { booted with token := .held } ∧
    after (.appRequestReadHoldingRegister 2#8 0#16 1#16) { booted with token := .held } =
      answered .busy { booted with token := .held } := by decide +kernel

theorem test_appRequestReadInputRegister :
    pduOf (after (.appRequestReadInputRegister 1#8 8#16 1#16) booted) = bytes [0x04, 0x00, 0x08, 0x00, 0x01] := by
  decide +kernel

theorem test_appRequestWriteSingleCoil :
    pduOf (after (.appRequestWriteSingleCoil 1#8 0xAC#16 0xFF00#16) booted) = bytes [0x05, 0x00, 0xAC, 0xFF, 0x00] ∧
    after (.appRequestWriteSingleCoil 1#8 0xAC#16 1#16) booted = answered .invalidArgument booted := by decide +kernel

theorem test_appRequestWriteHoldingRegister :
    pduOf (after (.appRequestWriteHoldingRegister 1#8 1#16 3#16) booted) = bytes [0x06, 0x00, 0x01, 0x00, 0x03] := by
  decide +kernel

theorem test_appRequestWriteMultipleCoils :
    pduOf (after (.appRequestWriteMultipleCoils 1#8 0x13#16 10#16 (bytes [0xCD, 0x01])) booted) =
      bytes [0x0F, 0x00, 0x13, 0x00, 0x0A, 0x02, 0xCD, 0x01] ∧
    after (.appRequestWriteMultipleCoils 1#8 0x13#16 10#16 [0xCD#8]) booted = answered .invalidArgument booted := by
  decide +kernel

theorem test_appRequestWriteMultipleHoldingRegister :
    pduOf (after (.appRequestWriteMultipleHoldingRegister 1#8 1#16 2#16 [0x000A#16, 0x0102#16]) booted) =
      bytes [0x10, 0x00, 0x01, 0x00, 0x02, 0x04, 0x00, 0x0A, 0x01, 0x02] := by decide +kernel

theorem test_appRequestReadWriteMultipleHoldingRegister :
    pduOf (after (.appRequestReadWriteMultipleHoldingRegister 1#8 3#16 6#16 14#16 3#16 [0xFF#16, 0xFF#16, 0xFF#16]) booted) =
      bytes [0x17, 0, 3, 0, 6, 0, 0x0E, 0, 3, 6, 0, 0xFF, 0, 0xFF, 0, 0xFF] ∧
    after (.appRequestReadWriteMultipleHoldingRegister 1#8 3#16 0x7E#16 14#16 1#16 [0xFF#16]) booted =
      answered .invalidArgument booted := by decide +kernel

/-- A request PDU row submits the bytes it stands for (R95), for the slave of the address register (log 5). -/
theorem test_req_rows :
    pduOf (after (.reqRc 0x13#16 10#16) booted) = bytes [0x01, 0x00, 0x13, 0x00, 0x0A] ∧
    pduOf (after (.reqRdi 0xC4#16 3#16) booted) = bytes [0x02, 0x00, 0xC4, 0x00, 0x03] ∧
    pduOf (after (.reqRhr 100#16 2#16) booted) = bytes [0x03, 0x00, 0x64, 0x00, 0x02] ∧
    pduOf (after (.reqRir 8#16 1#16) booted) = bytes [0x04, 0x00, 0x08, 0x00, 0x01] ∧
    pduOf (after (.reqWsc 0xAC#16 0#16) booted) = bytes [0x05, 0x00, 0xAC, 0x00, 0x00] ∧
    pduOf (after (.reqWsr 1#16 3#16) booted) = bytes [0x06, 0x00, 0x01, 0x00, 0x03] := by decide +kernel

theorem test_req_rows_with_data :
    pduOf (after (.reqWmc 0x13#16 10#16 (bytes [2, 0xCD, 0x01])) booted) =
      bytes [0x0F, 0x00, 0x13, 0x00, 0x0A, 0x02, 0xCD, 0x01] ∧
    pduOf (after (.reqWmr 1#16 2#16 (bytes [4, 0x00, 0x0A, 0x01, 0x02])) booted) =
      bytes [0x10, 0x00, 0x01, 0x00, 0x02, 0x04, 0x00, 0x0A, 0x01, 0x02] ∧
    pduOf (after (.reqRwmr 3#16 6#16 14#16 1#16 (bytes [2, 0, 0xFF])) booted) =
      bytes [0x17, 0, 3, 0, 6, 0, 0x0E, 0, 1, 2, 0, 0xFF] := by decide +kernel

/-- A request that its builder would not write answers InvalidArgument (R220; the byte counts: log 5). -/
theorem test_req_rows_out_of_range :
    ∀ i ∈ [Instr.reqRc 0#16 0#16, .reqWsc 0#16 1#16, .reqWmc 0#16 0#16 [0#8], .reqWmc 0#16 0x07B1#16 [247#8],
        .reqWmc 0#16 9#16 (bytes [1, 0]), .reqWmc 0#16 9#16 (bytes [2, 0]), .reqWmr 0#16 1#16 [], .reqWmr 0#16 1#16 (bytes [3, 0, 0, 0]),
        .reqRwmr 0#16 0x7E#16 0#16 1#16 (bytes [2, 0, 0])],
      after i booted = answered .invalidArgument booted := by decide +kernel

theorem test_reqRsid_is_refused : after .reqRsid booted = { booted with refused := true } := by decide +kernel

theorem test_queue_overflow_keeps_the_submission :
    (after (.appRequestReadHoldingRegister 1#8 0#16 1#16)
      { bootedWith { Config.default with evqCap := 1 } with evq := [.ready] }).faults.eventQueueOverflow = true ∧
    (after (.appRequestReadHoldingRegister 1#8 0#16 1#16)
      { bootedWith { Config.default with evqCap := 1 } with evq := [.ready] }).token = .held := by decide +kernel

/-! ### Framing (T-R1 to T-R8, T-T2 to T-T10) -/

theorem test_portRx_first_byte :
    (after (.portRx 0x01#8) { booted with txState := .done, timer := .armed .respondTimeout }).txState = .idle ∧
    (after (.portRx 0x01#8) { booted with txState := .done, timer := .armed .respondTimeout }).timer = .armed .t35 := by
  decide +kernel

theorem test_portRx_overflow :
    (after (.portRx 0x00#8) { booted with rxState := .receiving, rxPos := 256 }).rxState = .error ∧
    (after (.portRx 0x00#8) { booted with rxState := .receiving, rxPos := 256 }).rxPos = 256 := by decide +kernel

theorem test_receive :
    receive (frameReceived [0x01, 0x03, 0x40] booted) = none ∧
    receive (frameReceived [0x01, 0x03, 0x40, 0x21] booted) = some (0x01#8, 1) := by decide +kernel

theorem test_send_builds_the_frame :
    txSlice sending 0 8 = bytes [0x11, 0x03, 0x00, 0x00, 0x00, 0x02, 0xC6, 0x9B] ∧ sending.txRem = 8 ∧
    sending.lineMode = .tx ∧ send 1#8 254 booted = .oversize ∧
    send 1#8 5 { booted with rxState := .init } = .ioError := by decide +kernel

theorem test_portTxe_sends_the_frame :
    (run (List.replicate 8 .portTxe) sending).wire = bytes [0x11, 0x03, 0x00, 0x00, 0x00, 0x02, 0xC6, 0x9B] ∧
    (run (List.replicate 8 .portTxe) sending).txState = .transmitting := by decide +kernel

theorem test_portTxe_turnaround :
    (run (txAllSteps sending) sending).timer = .armed .respondTimeout ∧
    (run (txAllSteps sending) { sending with txbuf := Memory.write sending.txbuf 0 0#8 }).timer = .armed .convertDelay := by
  decide +kernel

theorem test_portTmo_after_a_request :
    (after .portTmo { booted with txState := .done, timer := .armed .respondTimeout }).errEvent = some .respondTimeout ∧
    (after .portTmo { booted with txState := .done, bcast := true, timer := .armed .convertDelay }).evq = [.execute] := by
  decide +kernel

theorem test_portTmo_after_an_overflow :
    (after .portTmo { booted with rxState := .error, timer := .armed .t35 }).errEvent = some .receiveDataError ∧
    (after .portTmo { booted with rxState := .error, timer := .armed .t35 }).rxState = .idle := by decide +kernel

theorem test_frame :
    (after (.frame 0x11#8 (bytes [0x03, 0x00, 0x00, 0x00, 0x02]) 0xC6#8 0x9B#8) booted).evq = [.frameReceived] ∧
    receive (after (.frame 0x11#8 (bytes [0x03, 0x00, 0x00, 0x00, 0x02]) 0xC6#8 0x9B#8) booted) = some (0x11#8, 5) := by
  decide +kernel

/-! ### Poll steps (T-D8 to T-D11, T-D14, P6) -/

theorem test_poll_wrong_address :
    (after .poll { frameReceived [0x02, 0x03, 0x02, 0x00, 0x07, 0xBD, 0x86] booted with destAddr := 1#8 }).errEvent =
      some .receiveDataError := by decide +kernel

theorem test_poll_rejected_send :
    (run [.appInit (.record .rtu), .appEnable, .appRequestReadHoldingRegister 1#8 100#16 2#16, .poll] State.reset).faults =
      ⟨true, false⟩ := by decide +kernel

theorem test_lookup :
    lookup booted.hfn 0x03#8 = some .rhr ∧ lookup booted.hfn 0x07#8 = none ∧ lookup booted.hfn 0x00#8 = none := by
  decide +kernel

theorem test_broadcast_reaches_every_slave :
    [1, 2].map (fun s => tableRead .coils (after .poll (broadcastDue [0x0F, 0, 0x13, 0, 0x0A, 2, 0xCD, 0x01] booted)).coils s
      0x13 3) = [.bits [true, false, true], .bits [true, false, true]] := by decide +kernel

/-! ### Response rows (T-H1 to T-H19, T-D9, T-D10) -/

theorem test_rspRc :
    packedBits (after (.rspRc (bytes [0x02, 0xCD, 0x01])) (requested [1, 0, 0x13, 0, 0x0A] booted)).coils 1 0x13 10 =
      bytes [0xCD, 0x01] ∧
    (after (.rspRc (bytes [0x01, 0xCD])) (requested [1, 0, 0x13, 0, 0x0A] booted)).errEvent =
      some .executeFunctionError := by decide +kernel

theorem test_rspRdi :
    tableRead .disc (after (.rspRdi (bytes [0x01, 0x05])) (requested [2, 0, 0xC4, 0, 3] booted)).disc 1 0xC4 3 =
      .bits [true, false, true] := by decide +kernel

theorem test_rspRhr :
    tableRead .hold (after (.rspRhr (bytes [4, 0, 0x0A, 0, 0x0B])) (requested [3, 0, 0x64, 0, 2] booted)).hold 1 100 2 =
      .words [10#16, 11#16] ∧
    (after (.rspRhr (bytes [4, 0, 0x0A, 0, 0x0B])) (requested [3, 0, 0x64, 0, 2] booted)).token = .free := by decide +kernel

theorem test_rspRhr_outside_the_window :
    (runHandler .rhr .rx 6 (accepted [3, 4, 0, 0x0A, 0, 0x0B] (requested [3, 0, 0x64, 0, 2]
      (bootedWith { Config.default with holdWindow := ⟨0, 101⟩ })))).exc = .illegalDataAddress := by decide +kernel

theorem test_rspRir :
    wordAt (after (.rspRir (bytes [0x02, 0x12, 0x34])) (requested [4, 0, 8, 0, 1] booted)).input 1 8 = 0x1234#16 := by
  decide +kernel

theorem test_rspWsc :
    bitAt (after (.rspWsc (bytes [0, 0xAC, 0xFF, 0])) (requested [5, 0, 0xAC, 0xFF, 0] booted)).coils 1 0xAC = true ∧
    (after (.rspWsc (bytes [0, 0xAC, 0xFF])) (requested [5, 0, 0xAC, 0xFF, 0] booted)).errEvent =
      some .executeFunctionError := by decide +kernel

theorem test_rspWsr :
    wordAt (after (.rspWsr (bytes [0, 1, 0, 3])) (requested [6, 0, 1, 0, 3] booted)).hold 1 1 = 3#16 := by decide +kernel

theorem test_rspWmc :
    packedBits (after (.rspWmc (bytes [0, 0x13, 0, 0x0A]))
      (requested [0x0F, 0, 0x13, 0, 0x0A, 2, 0xCD, 0x01] booted)).coils 1 0x13 10 = bytes [0xCD, 0x01] := by decide +kernel

theorem test_rspWmr :
    tableRead .hold (after (.rspWmr (bytes [0, 1, 0, 2]))
      (requested [0x10, 0, 1, 0, 2, 4, 0, 0x0A, 1, 2] booted)).hold 1 1 2 = .words [0x000A#16, 0x0102#16] := by decide +kernel

/-- The request of T-H16. -/
def readWriteRequest : List Nat := [0x17, 0, 3, 0, 6, 0, 0x0E, 0, 3, 6, 0, 0xFF, 0, 0xFF, 0, 0xFF]

/-- The response of T-H16, after its code. -/
def readWriteData : List Byte := bytes [0x0C, 0, 0xFE, 0x0A, 0xCD, 0, 1, 0, 3, 0, 0x0D, 0, 0xFF]

theorem test_rspRwmr :
    tableRead .hold (after (.rspRwmr readWriteData) (requested readWriteRequest booted)).hold 1 3 6 =
      .words [0x00FE#16, 0x0ACD#16, 1#16, 3#16, 0x0D#16, 0xFF#16] ∧
    tableRead .hold (after (.rspRwmr readWriteData) (requested readWriteRequest booted)).hold 1 14 3 =
      .words [0xFF#16, 0xFF#16, 0xFF#16] := by decide +kernel

theorem test_rspRwmr_keeps_the_write :
    (after (.rspRwmr readWriteData) (requested readWriteRequest
      (bootedWith { Config.default with holdWindow := ⟨5, 17⟩ }))).errEvent = some .executeFunctionError ∧
    tableRead .hold (after (.rspRwmr readWriteData) (requested readWriteRequest
      (bootedWith { Config.default with holdWindow := ⟨5, 17⟩ }))).hold 1 9 3 = .words [0xFF#16, 0xFF#16, 0xFF#16] := by
  decide +kernel

theorem test_rspRsid :
    rxSlice (after (.rspRsid []) (after (.appSetSlaveId 0x42#8 true []) (requested [3, 0, 0, 0, 1] booted))) 2 2 =
      bytes [0x42, 0xFF] := by decide +kernel

theorem test_rspException :
    (after (.rspException 0x83#8 [0x02#8]) (requested [3, 0, 0x64, 0, 2] booted)).errEvent = some .executeFunctionError ∧
    store (after (.rspException 0x83#8 [0x02#8]) (requested [3, 0, 0x64, 0, 2] booted)) = store booted := by decide +kernel

theorem test_rspUnknown :
    (after (.rspUnknown 0x07#8 [0x00#8]) (requested [3, 0, 0x64, 0, 2] booted)).evq = [.error] := by decide +kernel

/-! ### Witnesses: states and operands that meet the hypotheses of the statements, clause by clause, at the ends of their ranges -/

theorem witness_DecodeReadsBackEncode :
    (Instr.reqWmc 0xFFFF#16 0x07B0#16 (List.replicate 248 0xFF#8)).wellFormed = true ∧
    (Instr.reqRwmr 0#16 0#16 0#16 0xFFFF#16 (List.replicate 244 0#8)).wellFormed = true ∧
    (Instr.rspRc (List.replicate 252 0#8)).wellFormed = true ∧ (Instr.rspException 0xFF#8 []).wellFormed = true ∧
    (Instr.frame 0xFF#8 (List.replicate 253 0#8) 0#8 0#8).wellFormed = true ∧
    (Instr.appStoreRead .input 0xFF#8 0xFFFF#16 4294967295).wellFormed = true := by decide +kernel

theorem witness_EncodeReadsBackDecode : decode (bytes [0x31, 0x20]) = .ok (.portTxe, [0x20#8]) := by decide +kernel

theorem witness_StepRunsDecodedInstruction :
    (decode ({ booted with program := [0x20#8] } : State).program = .ok (.poll, []) ∧ Instr.poll.wellFormed = true) ∧
    booted.program = [] ∧
    (decode ({ booted with program := [0x30#8] } : State).program = .error .truncated ∧
      ({ booted with program := [0x30#8] } : State).program ≠ []) := by decide +kernel

theorem witness_FunctionCodeSelectsRow :
    (List.replicate 252 0#8).length ≤ 252 ∧ (0x80#8).getLsbD 7 = true ∧
    ((0x7F#8).getLsbD 7 = false ∧ ∀ h : HandlerId, codeOf h ≠ 0x7F#8) ∧
    ((0x17#8).getLsbD 7 = false ∧ ∃ h : HandlerId, codeOf h = 0x17#8) :=
  ⟨by decide +kernel, by decide, ⟨by decide, by intro h; cases h <;> decide⟩, by decide, .rwmr, by decide⟩

theorem witness_RequestFieldsReadBack :
    booted.token = .free ∧
    (∀ i, i ∈ [Instr.appRequestReadCoils 2#8 0xFFFF#16 0x07D0#16, .appRequestReadDiscreteInputs 0#8 0#16 1#16,
        .appRequestReadHoldingRegister 1#8 0#16 0x7D#16, .appRequestReadInputRegister 1#8 0#16 0x7D#16,
        .appRequestWriteSingleCoil 1#8 0#16 0xFF00#16, .appRequestWriteHoldingRegister 1#8 0#16 0xFFFF#16,
        .appRequestWriteMultipleCoils 1#8 0#16 0x07B0#16 (List.replicate 246 0xFF#8),
        .appRequestWriteMultipleHoldingRegister 1#8 0#16 0x78#16 (List.replicate 0x78 0xFFFF#16),
        .appRequestReadWriteMultipleHoldingRegister 1#8 0#16 0x7D#16 0#16 0x78#16 (List.replicate 0x78 0xFFFF#16)] →
      exec i booted = .next (after i booted) ∧ (after i booted).token = .held) :=
  ⟨by decide +kernel, fun i h => ⟨exec_eq_after i booted, by revert i; decide +kernel⟩⟩

theorem witness_OneCorruptedByteIsDetected :
    crc16 ([] ++ 0x01#8 :: bytes [0x03, 0x40, 0x21]) = 0x0000#16 ∧ crc16 (bytes [0x01, 0x03, 0x40] ++ 0x21#8 :: []) = 0x0000#16 ∧
    0x01#8 ≠ 0x81#8 ∧ 0x21#8 ≠ 0x20#8 := by decide +kernel

theorem witness_CanonicalMemoryIsItsReads :
    Memory.wf [(0, 1#8), (255, 0xFF#8)] ∧ ∀ a, Memory.read [(0, 1#8)] a = Memory.read (Memory.write [] 0 1#8) a :=
  ⟨by decide +kernel, fun _ => rfl⟩

theorem witness_SetBitsWritesItsBits :
    ((1 : Nat) ≤ 8 ∧ (8 : Nat) ≤ 8 ∧ 65528 + 8 ≤ 65536) ∧ ((1 : Nat) ≤ 1 ∧ (1 : Nat) ≤ 8 ∧ 65535 + 1 ≤ 65536) := by decide

theorem witness_PackedReadsGiveThePoints :
    ((1 : Nat) ≤ 8 ∧ (8 : Nat) ≤ 8) ∧ ((2 : Nat) < (17 + 7) / 8 ∧ (7 : Nat) < 8) ∧ (0 : Nat) < 1 := by decide

theorem witness_BitStoreWriteEffect :
    configOk booted.cfg ∧ (Table.disc = .coils ∨ Table.disc = .disc) ∧ (bytes [0xFF]).length = (1 + 7) / 8 ∧
    InWindow booted.cfg .disc 2#8 255#16 1 ∧ InWindow booted.cfg .disc 1#8 256#16 0 ∧
    ¬ InWindow booted.cfg .disc 2#8 256#16 1 ∧ ¬ InWindow booted.cfg .disc 3#8 0#16 1 ∧
    ¬ InWindow booted.cfg .disc 0#8 0#16 1 := by unfold InWindow; decide +kernel

theorem witness_WordStoreWriteEffect :
    configOk booted.cfg ∧ (Table.input = .hold ∨ Table.input = .input) ∧ (bytes [0, 1]).length = 2 * 1 ∧
    InWindow booted.cfg .input 2#8 255#16 1 ∧ ¬ InWindow booted.cfg .input 2#8 256#16 1 ∧
    ¬ InWindow booted.cfg .input 3#8 0#16 1 := by unfold InWindow; decide +kernel

theorem witness_StoreReadAnswers :
    ¬ InWindow booted.cfg .coils 1#8 255#16 2 ∧
    (InWindow booted.cfg .coils 1#8 255#16 1 ∧ (Table.coils = .coils ∨ Table.coils = .disc)) ∧
    (InWindow booted.cfg .hold 2#8 0#16 256 ∧ (Table.hold = .hold ∨ Table.hold = .input)) := by
  unfold InWindow; decide +kernel

theorem witness_ProcessStartState :
    configOk Config.default ∧ configOk { Config.default with maxSlaves := 247, holdWindow := ⟨65535, 1⟩ } ∧
    ¬ configOk { Config.default with maxSlaves := 248 } ∧ ¬ configOk { Config.default with holdWindow := ⟨65535, 2⟩ } := by
  decide +kernel

theorem witness_InitAnswers :
    booted.protoState ≠ .notInitialized ∧ State.reset.protoState = .notInitialized ∧
    (InitArg.record .tcp = .record .ascii ∨ InitArg.record .tcp = .record .tcp) ∧
    (launchedWith { Config.default with serialInitOk := false }).cfg.serialInitOk = false ∧
    ((launchedWith { Config.default with timerInitOk := false }).cfg.serialInitOk = true ∧
      (launchedWith { Config.default with timerInitOk := false }).cfg.timerInitOk = false) ∧
    ((launchedWith { Config.default with evqInitOk := false }).cfg.serialInitOk = true ∧
      (launchedWith { Config.default with evqInitOk := false }).cfg.timerInitOk = true ∧
      (launchedWith { Config.default with evqInitOk := false }).cfg.evqInitOk = false) ∧
    (State.reset.cfg.serialInitOk = true ∧ State.reset.cfg.timerInitOk = true ∧ State.reset.cfg.evqInitOk = true) := by
  decide +kernel

theorem witness_HandlerTableLookup :
    configOk Config.default ∧ HandlerId.rwmr ∈ Config.default.enabledFcs ∧
    ∀ h, h ∈ Config.default.enabledFcs → codeOf h ≠ 0x18#8 := by decide +kernel

theorem witness_EnableAndDisableAnswer :
    booted.protoState ≠ .disabled ∧ State.reset.protoState ≠ .disabled ∧
    (after (.appInit (.record .rtu)) State.reset).protoState = .disabled ∧
    State.reset.protoState = .notInitialized ∧ booted.protoState = .enabled := by decide +kernel

theorem witness_SetSlaveIdAnswers :
    booted.cfg.repSlaveIdSize < (bytes [1, 2, 3, 4, 5, 6, 7]).length + 2 ∧
    (bytes [1, 2, 3, 4, 5, 6]).length + 2 ≤ booted.cfg.repSlaveIdSize := by decide +kernel

/-- The four cases of `BuilderAnswers`: a code that is not enabled, a slave too large, a token held, a submission. -/
theorem witness_BuilderAnswers :
    (∀ h ∈ allHandlers, h ∉ (bootedWith { Config.default with enabledFcs := [] }).cfg.enabledFcs) ∧
    (∀ h ∈ allHandlers, h ∈ booted.cfg.enabledFcs) ∧ booted.cfg.maxSlaves < (3#8).toNat ∧
    (2#8).toNat ≤ booted.cfg.maxSlaves ∧ ({ booted with token := .held } : State).token = .held ∧ booted.token = .free ∧
    booted.destAddr.toNat ≤ booted.cfg.maxSlaves ∧
    booted.cfg.maxSlaves < ({ booted with destAddr := 3#8 } : State).destAddr.toNat := by decide +kernel

/-- The argument checks of the builders and request rows at both ends of their ranges. -/
theorem witness_builder_arguments :
    (InRange 1#16 0x07D0 ∧ InRange 0x07D0#16 0x07D0 ∧ ¬ InRange 0#16 0x07D0 ∧ ¬ InRange 0x07D1#16 0x07D0) ∧
    (InRange 0x7D#16 0x007D ∧ ¬ InRange 0x7E#16 0x007D) ∧
    ((0xFF00#16 = 0xFF00#16 ∨ 0xFF00#16 = 0x0000#16) ∧ ¬ (1#16 = 0xFF00#16 ∨ 1#16 = 0x0000#16)) ∧
    (InRange 0x07B0#16 0x07B0 ∧ ((0x07B0#16).toNat + 7) / 8 ≤ (List.replicate 246 0#8).length) ∧
    ¬ (((0x07B0#16).toNat + 7) / 8 ≤ (List.replicate 245 0#8).length) ∧ ¬ InRange 0x07B1#16 0x07B0 ∧
    (InRange 0x78#16 0x0078 ∧ (0x78#16).toNat ≤ (List.replicate 0x78 0#16).length) ∧ ¬ InRange 0x79#16 0x0078 ∧
    (Counted (246#8 :: List.replicate 246 0#8) (((0x07B0#16).toNat + 7) / 8) ∧
      Counted (240#8 :: List.replicate 240 0#8) (2 * (0x78#16).toNat)) ∧
    ¬ Counted [] 0 ∧ ¬ Counted (bytes [1, 0]) 2 ∧ ¬ Counted (bytes [1, 0, 0]) 2 := by
  unfold InRange Counted; decide +kernel

theorem witness_ByteReceivedMoves :
    State.reset.running = false ∧
    (booted.running = true ∧ (({ booted with rxState := .init } : State).rxState = .init ∨
      ({ booted with rxState := .init } : State).rxState = .error)) ∧
    booted.rxState = .idle ∧
    (({ booted with rxState := .receiving, rxPos := 255 } : State).rxState = .receiving ∧
      ({ booted with rxState := .receiving, rxPos := 255 } : State).rxPos < 256) ∧
    256 ≤ ({ booted with rxState := .receiving, rxPos := 256 } : State).rxPos := by decide +kernel

theorem witness_TransmitterEmptyMoves :
    (State.reset.running = false ∨ State.reset.txState ≠ .transmitting) ∧ booted.txState ≠ .transmitting ∧
    (sending.running = true ∧ sending.txState = .transmitting ∧ sending.txRem ≠ 0 ∧ sending.txCur < 256) ∧
    (run (List.replicate 8 .portTxe) sending).txRem = 0 ∧
    (run (List.replicate 8 .portTxe) sending).txState = .transmitting := by decide +kernel

/-- A transmission of eight bytes, its last byte gone, and the poll steps that start the shortest and the longest frame. -/
theorem witness_TransmissionCompletes :
    (∀ s ∈ [sending, run (List.replicate 8 .portTxe) sending], s.running = true ∧ s.txState = .transmitting ∧
      s.lineMode = .tx ∧ s.txCur + s.txRem ≤ 256) ∧ (8 : Nat) ≤ sending.txRem ∧
    (∀ s ∈ [{ booted with evq := [.frameSent], sndPduLen := 0#16 }, { booted with evq := [.frameSent], sndPduLen := 253#16 }],
      s.running = true ∧ s.protoState = .enabled ∧ s.evq = .frameSent :: [] ∧ s.rxState = .idle ∧
      s.sndPduLen.toNat ≤ 253) := by decide +kernel

theorem witness_TimerExpiryMoves :
    (({ State.reset with timer := .armed .t35 } : State).timer = .armed .t35 ∧ State.reset.running = false) ∧
    (({ booted with timer := .armed .t35 } : State).timer = .armed .t35 ∧ booted.running = true) := by decide +kernel

theorem witness_FrameArrivesWhole :
    1 ≤ (bytes [3]).length ∧ (List.replicate 253 0#8).length ≤ 253 ∧ booted.running = true ∧ booted.rxState = .idle ∧
    booted.txState ≠ .transmitting := by decide +kernel

theorem witness_PollWithNothingToDo :
    (State.reset.protoState ≠ .enabled ∨ State.reset.evq = []) ∧ (booted.protoState = .enabled ∧ booted.evq = []) ∧
    ({ booted with evq := [.ready, .frameSent] } : State).evq = .ready :: [.frameSent] := by decide +kernel

/-- The shortest frame accepted, and frames refused for their length, their check and their address. -/
theorem witness_PollFrameReceived :
    ∀ s ∈ [{ frameReceived [0x01, 0x03, 0x40, 0x21] booted with destAddr := 1#8 }, frameReceived [0x01, 0x03, 0x40] booted,
        { frameReceived [0x01, 0x03, 0x40, 0x20] booted with destAddr := 1#8 },
        { frameReceived [0x01, 0x03, 0x40, 0x21] booted with destAddr := 2#8 }],
      (s.protoState = .enabled ∧ s.evq = .frameReceived :: [] ∧ s.rxPos ≤ 256) ∧
      ((4 ≤ s.rxPos ∧ crc16 (rxSlice s 0 s.rxPos) = 0x0000#16 ∧ Memory.read s.rxbuf 0 = s.destAddr) ↔
        s = { frameReceived [0x01, 0x03, 0x40, 0x21] booted with destAddr := 1#8 }) := by decide +kernel

theorem witness_PollFrameSent :
    (∀ s ∈ [{ booted with evq := [.frameSent], sndPduLen := 254#16 },
        { booted with evq := [.frameSent], sndPduLen := 253#16, rxState := .init },
        { booted with evq := [.frameSent], sndPduLen := 253#16 }], s.protoState = .enabled ∧ s.evq = .frameSent :: []) ∧
    253 < (254#16).toNat ∧ (253#16).toNat ≤ 253 ∧ ({ booted with rxState := .init } : State).rxState ≠ .idle ∧
    booted.rxState = .idle := by decide +kernel

theorem witness_PollError :
    booted.protoState = .enabled ∧ ({ booted with evq := [.error, .error] } : State).evq = .error :: [.error] := by
  decide +kernel

theorem witness_PollExecuteDispatches :
    (∀ s ∈ [broadcastDue [5, 0, 5, 0xFF, 0] booted, accepted [0x83, 2] booted, accepted [0x07, 0] booted,
        accepted [3, 2, 0, 1] booted], s.protoState = .enabled ∧ s.evq = .execute :: []) ∧
    (pduByte .rx (accepted [0x83, 2] booted) 0).getLsbD 7 = true ∧
    lookup booted.hfn (pduByte .rx (accepted [0x07, 0] booted) 0) = none ∧
    ((pduByte .rx (accepted [3, 2, 0, 1] booted) 0).getLsbD 7 = false ∧
      lookup booted.hfn (pduByte .rx (accepted [3, 2, 0, 1] booted) 0) = some .rhr) ∧
    ((pduByte .tx (broadcastDue [5, 0, 5, 0xFF, 0] booted) 0).getLsbD 7 = false ∧
      lookup booted.hfn (pduByte .tx (broadcastDue [5, 0, 5, 0xFF, 0] booted) 0) = some .wsc) := by decide +kernel

theorem witness_BroadcastWritesEverySlave :
    (∀ s, s = broadcastDue [5, 0, 0xFF, 0xFF, 0] booted → BroadcastDue .wsc [] s ∧
      (reqCount s = 0xFF00#16 ∨ reqCount s = 0x0000#16) ∧ InWindow s.cfg .coils 1#8 (reqAddr s) 1) ∧
    (∀ s, s = broadcastDue [6, 0, 0xFF, 0, 3] booted → BroadcastDue .wsr [] s ∧ InWindow s.cfg .hold 1#8 (reqAddr s) 1) ∧
    (∀ s, s = broadcastDue [0x0F, 0, 0xF6, 0, 0x0A, 2, 0xCD, 1] booted → BroadcastDue .wmc [] s ∧
      (reqBc s).toNat = ((reqCount s).toNat + 7) / 8 ∧ InWindow s.cfg .coils 1#8 (reqAddr s) (reqCount s).toNat) ∧
    (∀ s, s = broadcastDue [0x10, 0, 0xFE, 0, 2, 4, 0, 0x0A, 1, 2] booted → BroadcastDue .wmr [] s ∧
      (reqBc s).toNat = 2 * (reqCount s).toNat ∧ InWindow s.cfg .hold 1#8 (reqAddr s) (reqCount s).toNat) ∧
    (∀ s, s = broadcastDue readWriteRequest booted → BroadcastDue .rwmr [] s ∧
      (rwWbc s).toNat = 2 * (rwWcount s).toNat ∧ InWindow s.cfg .hold 1#8 (rwWaddr s) (rwWcount s).toNat) := by
  simp only [forall_eq]; unfold BroadcastDue InWindow
  exact ⟨by decide +kernel, by decide +kernel, by decide +kernel, by decide +kernel, by decide +kernel⟩

/-- The requests that every slave refuses: a coil value and byte counts that are wrong, and windows one point outside. -/
theorem witness_BroadcastWritesEverySlave_failed :
    (∀ s ∈ [broadcastDue [5, 0, 0xFF, 0, 1] booted, broadcastDue [5, 1, 0, 0xFF, 0] booted], BroadcastDue .wsc [] s ∧
      ¬ ((reqCount s = 0xFF00#16 ∨ reqCount s = 0x0000#16) ∧ InWindow s.cfg .coils 1#8 (reqAddr s) 1)) ∧
    (∀ s ∈ [broadcastDue [6, 1, 0, 0, 3] booted], BroadcastDue .wsr [] s ∧ ¬ InWindow s.cfg .hold 1#8 (reqAddr s) 1) ∧
    (∀ s ∈ [broadcastDue [0x0F, 0, 0xF6, 0, 0x0A, 1, 0xCD] booted, broadcastDue [0x0F, 0, 0xF7, 0, 0x0A, 2, 0xCD, 1] booted],
      BroadcastDue .wmc [] s ∧ ¬ ((reqBc s).toNat = ((reqCount s).toNat + 7) / 8 ∧
        InWindow s.cfg .coils 1#8 (reqAddr s) (reqCount s).toNat)) ∧
    (∀ s ∈ [broadcastDue [0x10, 0, 0xFE, 0, 2, 3, 0, 0x0A, 1] booted, broadcastDue [0x10, 0, 0xFF, 0, 2, 4, 0, 0x0A, 1, 2] booted],
      BroadcastDue .wmr [] s ∧ ¬ ((reqBc s).toNat = 2 * (reqCount s).toNat ∧
        InWindow s.cfg .hold 1#8 (reqAddr s) (reqCount s).toNat)) ∧
    (∀ s ∈ [broadcastDue [0x17, 0, 0, 0, 1, 0, 0, 0, 2, 3, 0, 1, 0] booted,
        broadcastDue [0x17, 0, 0, 0, 1, 0, 0xFF, 0, 2, 4, 0, 1, 0, 2] booted],
      BroadcastDue .rwmr [] s ∧ ¬ ((rwWbc s).toNat = 2 * (rwWcount s).toNat ∧
        InWindow s.cfg .hold 1#8 (rwWaddr s) (rwWcount s).toNat)) := by
  unfold BroadcastDue InWindow
  exact ⟨by decide +kernel, by decide +kernel, by decide +kernel, by decide +kernel, by decide +kernel⟩

theorem witness_BroadcastReadsTouchNoTable :
    ∀ p ∈ [(HandlerId.rc, 1), (.rdi, 2), (.rhr, 3), (.rir, 4)],
      (p.1 = .rc ∨ p.1 = .rdi ∨ p.1 = .rhr ∨ p.1 = .rir) ∧
      BroadcastDue p.1 [] (broadcastDue [p.2, 0, 0, 0, 1] booted) := by unfold BroadcastDue; decide +kernel

/-- The read handlers: a broadcast, a response that fails the check, one outside and one at the end of the window. -/
theorem witness_BitReadHandlers :
    configOk booted.cfg ∧ (broadcastDue [1, 0, 0, 0, 8] booted).bcast = true ∧ booted.bcast = false ∧
    (∀ s, s = accepted [1, 1, 0xFF] (requested [1, 0, 248, 0, 8] booted) →
      (2 ≤ 3 ∧ (pduByte .rx s 1).toNat = ((reqCount s).toNat + 7) / 8 ∧ 2 + ((reqCount s).toNat + 7) / 8 ≤ 3) ∧
      InWindow s.cfg .coils s.destAddr (reqAddr s) (reqCount s).toNat) ∧
    (∀ s, s = accepted [1, 1, 0xFF] (requested [1, 0, 249, 0, 8] booted) →
      (2 ≤ 3 ∧ (pduByte .rx s 1).toNat = ((reqCount s).toNat + 7) / 8 ∧ 2 + ((reqCount s).toNat + 7) / 8 ≤ 3) ∧
      ¬ InWindow s.cfg .coils s.destAddr (reqAddr s) (reqCount s).toNat) ∧
    (∀ s, s = accepted [1, 1, 0xFF] (requested [1, 0, 0, 0, 9] booted) →
      ¬ (2 ≤ 3 ∧ (pduByte .rx s 1).toNat = ((reqCount s).toNat + 7) / 8 ∧ 2 + ((reqCount s).toNat + 7) / 8 ≤ 3)) := by
  simp only [forall_eq]; unfold InWindow; decide +kernel

theorem witness_WordReadHandlers :
    configOk booted.cfg ∧ (broadcastDue [3, 0, 0, 0, 1] booted).bcast = true ∧ booted.bcast = false ∧
    (∀ s, s = accepted [3, 2, 0, 1] (requested [3, 0, 255, 0, 1] booted) →
      (2 ≤ 4 ∧ (pduByte .rx s 1).toNat = 2 * (reqCount s).toNat ∧ 2 + 2 * (reqCount s).toNat ≤ 4) ∧
      InWindow s.cfg .hold s.destAddr (reqAddr s) (reqCount s).toNat) ∧
    (∀ s, s = accepted [3, 2, 0, 1] (requested [3, 1, 0, 0, 1] booted) →
      (2 ≤ 4 ∧ (pduByte .rx s 1).toNat = 2 * (reqCount s).toNat ∧ 2 + 2 * (reqCount s).toNat ≤ 4) ∧
      ¬ InWindow s.cfg .hold s.destAddr (reqAddr s) (reqCount s).toNat) ∧
    (∀ s, s = accepted [3, 2, 0, 1] (requested [3, 0, 0, 0, 2] booted) →
      ¬ (2 ≤ 4 ∧ (pduByte .rx s 1).toNat = 2 * (reqCount s).toNat ∧ 2 + 2 * (reqCount s).toNat ≤ 4)) := by
  simp only [forall_eq]; unfold InWindow; decide +kernel

theorem witness_SingleWriteHandlers :
    configOk booted.cfg ∧ (booted.bcast = false ∧ (4 : Nat) ≠ 5) ∧
    (reqCount (requested [5, 0, 0, 0xFF, 1] booted) ≠ 0xFF00#16 ∧ reqCount (requested [5, 0, 0, 0xFF, 1] booted) ≠ 0x0000#16) ∧
    (broadcastDue [5, 0, 0, 0, 0] booted).bcast = true ∧
    (∀ s, s = requested [5, 0, 255, 0xFF, 0] booted → (reqCount s = 0xFF00#16 ∨ reqCount s = 0x0000#16) ∧
      InWindow s.cfg .coils s.destAddr (reqAddr s) 1 ∧ InWindow s.cfg .hold s.destAddr (reqAddr s) 1) ∧
    (∀ s, s = requested [5, 1, 0, 0, 0] booted → (reqCount s = 0xFF00#16 ∨ reqCount s = 0x0000#16) ∧
      ¬ InWindow s.cfg .coils s.destAddr (reqAddr s) 1 ∧ ¬ InWindow s.cfg .hold s.destAddr (reqAddr s) 1) := by
  simp only [forall_eq]; unfold InWindow; decide +kernel

theorem witness_MultipleWriteHandlers :
    configOk booted.cfg ∧ (booted.bcast = false ∧ (6 : Nat) ≠ 5) ∧
    (∀ s, s = requested [0x0F, 0, 246, 0, 10, 2, 0xCD, 1] booted → (reqBc s).toNat = ((reqCount s).toNat + 7) / 8 ∧
      (reqBc s).toNat ≠ 2 * (reqCount s).toNat ∧ InWindow s.cfg .coils s.destAddr (reqAddr s) (reqCount s).toNat) ∧
    (∀ s, s = requested [0x0F, 0, 247, 0, 10, 2, 0xCD, 1] booted → (reqBc s).toNat = ((reqCount s).toNat + 7) / 8 ∧
      ¬ InWindow s.cfg .coils s.destAddr (reqAddr s) (reqCount s).toNat) ∧
    (∀ s, s = requested [0x10, 0, 254, 0, 2, 4, 0, 10, 1, 2] booted → (reqBc s).toNat = 2 * (reqCount s).toNat ∧
      (reqBc s).toNat ≠ ((reqCount s).toNat + 7) / 8 ∧ InWindow s.cfg .hold s.destAddr (reqAddr s) (reqCount s).toNat) ∧
    (∀ s, s = requested [0x10, 0, 255, 0, 2, 4, 0, 10, 1, 2] booted → (reqBc s).toNat = 2 * (reqCount s).toNat ∧
      ¬ InWindow s.cfg .hold s.destAddr (reqAddr s) (reqCount s).toNat) := by
  simp only [forall_eq]; unfold InWindow; decide +kernel

/-- The read/write handler: both windows inside, the write window outside, the read window outside, and the two checks. -/
theorem witness_ReadWriteHandler :
    (∀ s, s = accepted [0x17, 2, 0, 7] (requested [0x17, 0, 255, 0, 1, 0, 254, 0, 2, 4, 0, 1, 0, 2] booted) →
      configOk s.cfg ∧ s.bcast = false ∧ (2 ≤ 4 ∧ (pduByte .rx s 1).toNat = 2 * (reqCount s).toNat ∧
        2 + 2 * (reqCount s).toNat ≤ 4) ∧ ¬ (2 ≤ 3 ∧ (pduByte .rx s 1).toNat = 2 * (reqCount s).toNat ∧
        2 + 2 * (reqCount s).toNat ≤ 3) ∧ (rwWbc s).toNat = 2 * (rwWcount s).toNat ∧
      InWindow s.cfg .hold s.destAddr (rwWaddr s) (rwWcount s).toNat ∧
      InWindow s.cfg .hold s.destAddr (reqAddr s) (reqCount s).toNat) ∧
    (∀ s, s = accepted [0x17, 2, 0, 7] (requested [0x17, 1, 0, 0, 1, 0, 255, 0, 2, 4, 0, 1, 0, 2] booted) →
      (rwWbc s).toNat = 2 * (rwWcount s).toNat ∧ ¬ InWindow s.cfg .hold s.destAddr (rwWaddr s) (rwWcount s).toNat ∧
      ¬ InWindow s.cfg .hold s.destAddr (reqAddr s) (reqCount s).toNat) ∧
    (∀ s, s = requested [0x17, 0, 0, 0, 1, 0, 0, 0, 2, 3, 0, 1, 0, 2] booted → (rwWbc s).toNat ≠ 2 * (rwWcount s).toNat) ∧
    (∀ s, s = broadcastDue readWriteRequest booted → s.bcast = true ∧ (rwWbc s).toNat = 2 * (rwWcount s).toNat ∧
      InWindow s.cfg .hold { s with destAddr := 1#8 }.destAddr (rwWaddr s) (rwWcount s).toNat) := by
  simp only [forall_eq]; unfold InWindow; decide +kernel

theorem witness_ReportSlaveIdHandler :
    booted.sidLen ≤ 252 ∧ (after (.appSetSlaveId 0x42#8 true (bytes [1, 2, 3, 4, 5, 6])) booted).sidLen ≤ 252 := by
  decide +kernel

theorem witness_StoreErrorsBecomeExceptions :
    LocalError.busy ≠ .noError ∧ LocalError.busy ≠ .noSuchRegister ∧ LocalError.busy ≠ .timeout := by decide

theorem witness_HandlersWriteOnlyTheirSlave :
    HandlerId.rhr ≠ .rsid ∧ configOk booted.cfg ∧ (2 : Nat) ≠ (requested [3, 0, 0, 0, 1] booted).destAddr.toNat ∧
    HandlerId.rhr ≠ .rwmr ∧ (runHandler .rhr .rx 1 (requested [3, 0, 0, 0, 1] booted)).exc ≠ .none := by decide +kernel

theorem witness_ResponseRowsAreExecuteSteps :
    ResponseRow (.rspException 0x83#8 (List.replicate 252 0#8)) 0x83#8 (List.replicate 252 0#8) ∧
    (List.replicate 252 0#8).length ≤ 252 ∧ State.reset.protoState ≠ .enabled ∧ booted.protoState = .enabled := by
  unfold ResponseRow; decide +kernel

theorem witness_ReadResponsesComplete :
    (∀ s ∈ [requested [1, 0, 248, 0, 8] booted, requested [3, 0, 252, 0, 4] booted], UnicastReady s) ∧
    (bytes [1, 2, 3, 4, 5, 6, 7, 8]).length ≤ 251 ∧
    (∀ s, s = requested [1, 0, 248, 0, 8] booted → lookup s.hfn 0x01#8 = some .rc ∧ lookup s.hfn 0x02#8 = some .rdi ∧
      (1#8).toNat = ((reqCount s).toNat + 7) / 8 ∧ ((reqCount s).toNat + 7) / 8 ≤ 8 ∧
      InWindow s.cfg .coils s.destAddr (reqAddr s) (reqCount s).toNat ∧
      InWindow s.cfg .disc s.destAddr (reqAddr s) (reqCount s).toNat) ∧
    (∀ s, s = requested [3, 0, 252, 0, 4] booted → lookup s.hfn 0x03#8 = some .rhr ∧ lookup s.hfn 0x04#8 = some .rir ∧
      (8#8).toNat = 2 * (reqCount s).toNat ∧ 2 * (reqCount s).toNat ≤ 8 ∧
      InWindow s.cfg .hold s.destAddr (reqAddr s) (reqCount s).toNat ∧
      InWindow s.cfg .input s.destAddr (reqAddr s) (reqCount s).toNat) := by
  simp only [forall_eq]; unfold UnicastReady InWindow; decide +kernel

theorem witness_WriteResponsesComplete :
    (bytes [0, 255, 0xFF, 0]).length = 4 ∧
    (∀ s, s = requested [5, 0, 255, 0xFF, 0] booted → UnicastReady s ∧ lookup s.hfn 0x05#8 = some .wsc ∧
      lookup s.hfn 0x06#8 = some .wsr ∧ (reqCount s = 0xFF00#16 ∨ reqCount s = 0x0000#16) ∧
      InWindow s.cfg .coils s.destAddr (reqAddr s) 1 ∧ InWindow s.cfg .hold s.destAddr (reqAddr s) 1) ∧
    (∀ s, s = requested [0x0F, 0, 246, 0, 10, 2, 0xCD, 1] booted → UnicastReady s ∧ lookup s.hfn 0x0F#8 = some .wmc ∧
      (reqBc s).toNat = ((reqCount s).toNat + 7) / 8 ∧ InWindow s.cfg .coils s.destAddr (reqAddr s) (reqCount s).toNat) ∧
    (∀ s, s = requested [0x10, 0, 254, 0, 2, 4, 0, 10, 1, 2] booted → UnicastReady s ∧ lookup s.hfn 0x10#8 = some .wmr ∧
      (reqBc s).toNat = 2 * (reqCount s).toNat ∧ InWindow s.cfg .hold s.destAddr (reqAddr s) (reqCount s).toNat) := by
  simp only [forall_eq]; unfold UnicastReady InWindow
  exact ⟨by decide, by decide +kernel, by decide +kernel, by decide +kernel⟩

theorem witness_ReadWriteResponseCompletes :
    ∀ s, s = requested [0x17, 0, 255, 0, 1, 0, 254, 0, 2, 4, 0, 1, 0, 2] booted → UnicastReady s ∧
      (bytes [0, 7]).length ≤ 251 ∧ lookup s.hfn 0x17#8 = some .rwmr ∧ (2#8).toNat = 2 * (reqCount s).toNat ∧
      2 * (reqCount s).toNat ≤ (bytes [0, 7]).length ∧ (rwWbc s).toNat = 2 * (rwWcount s).toNat ∧
      InWindow s.cfg .hold s.destAddr (rwWaddr s) (rwWcount s).toNat ∧
      InWindow s.cfg .hold s.destAddr (reqAddr s) (reqCount s).toNat := by
  simp only [forall_eq]; unfold UnicastReady InWindow; decide +kernel

/-- A slave ID shorter and one longer than the bytes of the response. -/
theorem witness_ReportSlaveIdResponseCompletes :
    (∀ s ∈ [booted, after (.appSetSlaveId 0x42#8 true []) booted], UnicastReady s ∧ s.sidLen ≤ 252 ∧
      lookup s.hfn 0x11#8 = some .rsid) ∧ (List.replicate 252 0#8).length ≤ 252 ∧
    (after (.appSetSlaveId 0x42#8 true []) booted).sidLen ≤ 251 ∧ (251 : Nat) < (List.replicate 252 0#8).length := by
  unfold UnicastReady; decide +kernel

/-- An exception response, a code outside the ten, and a code of the ten that is not enabled. -/
theorem witness_RejectedResponsesAreRecorded :
    (UnicastReady booted ∧ UnicastReady (bootedWith { Config.default with enabledFcs := [.rhr] })) ∧
    (List.replicate 252 0#8).length ≤ 252 ∧
    (ResponseRow (.rspException 0x80#8 []) 0x80#8 [] ∧ (0x80#8).getLsbD 7 = true) ∧
    (ResponseRow (.rspUnknown 0x00#8 []) 0x00#8 [] ∧ lookup booted.hfn 0x00#8 = none) ∧
    (ResponseRow (.rspRc [1#8]) 0x01#8 [1#8] ∧
      lookup (bootedWith { Config.default with enabledFcs := [.rhr] }).hfn 0x01#8 = none) := by
  unfold UnicastReady ResponseRow
  exact ⟨by decide +kernel, by decide +kernel, by decide +kernel, by decide +kernel, by decide +kernel⟩

theorem witness_StepKeepsInvariant :
    Inv State.reset ∧ Inv { booted with program := [0x20#8] } ∧
    step { booted with program := [0x20#8] } = .next (after .poll booted) := ⟨by decide +kernel, by decide +kernel, rfl⟩

theorem witness_StartMeetsInvariant :
    Memory.wf [(131072, 1#8)] ∧
    launch Config.default [(131072, 1#8)] [] [] [] = .next (State.atStart Config.default [(131072, 1#8)] [] [] []) :=
  ⟨by decide +kernel, rfl⟩

theorem witness_FramingInvariantKept :
    LifecycleInv booted ∧ FramingInv booted ∧ (booted.running = true → PortContract (.portRx 0x01#8) booted) ∧
    SendFromIdle (.portRx 0x01#8) booted ∧ exec (.portRx 0x01#8) booted = .next (after (.portRx 0x01#8) booted) :=
  ⟨by decide +kernel, by decide +kernel, fun _ => ⟨fun _ _ => by decide +kernel, nofun, nofun⟩, (by intro h; cases h), rfl⟩

/-- The other premise: a step of the transmitter under its contract. -/
theorem witness_PortContract : PortContract .portTxe sending ∧ TransmitterOwed sending :=
  ⟨⟨nofun, fun _ => by decide +kernel, nofun⟩, by unfold TransmitterOwed; decide +kernel⟩

theorem witness_OneExpiryPostsOneEvent :
    (∀ s ∈ [{ booted with rxState := .receiving, timer := .armed .t35 },
        { booted with txState := .done, timer := .armed .respondTimeout },
        { booted with txState := .transmitting, lineMode := .tx }], FramingInv s ∧ s.running = true) ∧
    exec .portTmo booted = .next (after .portTmo booted) ∧ booted.timer = .off := ⟨by decide +kernel, rfl, by decide +kernel⟩

theorem witness_OnlyExecuteChangesTheStore :
    ∀ s, s = requested [3, 0, 0, 0, 1] booted → exec (.rspRhr (bytes [2, 0, 1])) s = .next (after (.rspRhr (bytes [2, 0, 1])) s) ∧
      store (after (.rspRhr (bytes [2, 0, 1])) s) ≠ store s := by
  intro s h; subst h; exact ⟨rfl, by decide +kernel⟩

theorem witness_ControlStateWriters :
    (after (.appInit (.record .rtu)) State.reset).protoState ≠ State.reset.protoState ∧
    (after (.appInit (.record .rtu)) State.reset).hfn ≠ State.reset.hfn ∧
    (after .appDisable booted).running ≠ booted.running ∧
    (after .portTxe { sending with txRem := 0, txbuf := [] }).bcast ≠ sending.bcast ∧
    (after (.appSetSlaveId 1#8 true []) booted).sidBuf ≠ booted.sidBuf := by decide +kernel

/-- The machines, the timer, the token taken and released, the queue and the line mode each change somewhere. -/
theorem witness_ControlStateWriters_control :
    (after (.portRx 1#8) booted).rxState ≠ booted.rxState ∧ (after .portTxe { sending with txRem := 0 }).txState ≠ sending.txState ∧
    (after (.portRx 1#8) booted).timer ≠ booted.timer ∧
    (booted.token = .free ∧ (after (.appRequestReadCoils 1#8 0#16 1#16) booted).token = .held) ∧
    (∀ i s, (i, s) ∈ [(Instr.poll, { booted with token := .held, evq := [.error] }),
        (.poll, { broadcastDue [3, 0, 0, 0, 1] booted with token := .held }), (.rspRsid [], { booted with token := .held })] →
      s.token = .held ∧ (after i s).token = .free) ∧
    (after .portTmo { booted with rxState := .receiving, timer := .armed .t35 }).evq ≠ booted.evq ∧
    (booted.lineMode = .rx ∧ sending.lineMode = .tx) ∧ (after .portTxe { sending with txRem := 0 }).lineMode = .rx := by
  refine ⟨by decide +kernel, by decide +kernel, by decide +kernel, by decide +kernel, ?_, by decide +kernel, by decide +kernel,
    by decide +kernel⟩
  simp only [List.mem_cons, List.not_mem_nil, or_false, Prod.mk.injEq]
  rintro i s (⟨rfl, rfl⟩ | ⟨rfl, rfl⟩ | ⟨rfl, rfl⟩) <;> decide +kernel

theorem witness_MarksAndObservationsGrow :
    (({ booted with faults := ⟨true, true⟩, refused := true } : State).faults.sendRejected = true ∧
      ({ booted with faults := ⟨true, true⟩, refused := true } : State).faults.eventQueueOverflow = true ∧
      ({ booted with faults := ⟨true, true⟩, refused := true } : State).refused = true) ∧ Instr.poll ≠ .portTxe := by
  decide +kernel

end Sys2Proof.Tests
end

section
/-! SUPPORT. Proofs of the state's whole-machine rules: every step keeps the invariant, who writes the control state, and the growth of
marks and observations. `exec` is inverted once (`effect_of_exec`); each rule is then proved operation by operation. -/

namespace Sys2Proof.Proofs

open Sys2Proof.Machine Sys2Proof.Claims Sys2Proof.Laws

/-! ### What single operations answer -/

/-- Everything the poll step of `FrameReceived` answers: the frame accepted with a PDU of `rxPos - 3` bytes, or an Error entry. -/
theorem handleFrameReceived_cases (s : State) :
    handleFrameReceived s = post .execute { s with rcvPduLen := BitVec.ofNat 16 (s.rxPos - 3) } ∨
    handleFrameReceived s = errorEntry .receiveDataError s := by
  by_cases h : frameMin ≤ s.rxPos ∧ crc16 (rxSlice s 0 s.rxPos) = 0#16 ∧ rxByte s 0 = s.destAddr
  · exact .inl (handleFrameReceived_accept h)
  · exact .inr (handleFrameReceived_reject h)

/-- Everything the poll step of `FrameSent` answers: a refusal, a rejected `Send`, or the frame started. -/
theorem handleFrameSent_cases (s : State) :
    handleFrameSent s = markRefused s ∨ handleFrameSent s = markSendRejected s ∨
    (s.sndPduLen.toNat ≤ pduMax ∧ handleFrameSent s = sendFrame s.destAddr s.sndPduLen.toNat s) := by
  by_cases hl : s.sndPduLen.toNat ≤ pduMax
  · by_cases hx : s.rxState = .idle
    · exact .inr (.inr ⟨hl, handleFrameSent_sent hl hx⟩)
    · exact .inr (.inl (handleFrameSent_rejected hl hx))
  · exact .inl (handleFrameSent_oversize (Nat.lt_of_not_le hl))

theorem handleEvent_ready (s : State) : handleEvent .ready s = s := rfl

theorem handleEvent_frameReceived (s : State) : handleEvent .frameReceived s = handleFrameReceived s := rfl

theorem handleEvent_execute (s : State) : handleEvent .execute s = handleExecute s := rfl

theorem handleEvent_frameSent (s : State) : handleEvent .frameSent s = handleFrameSent s := rfl

theorem handleEvent_error (s : State) : handleEvent .error s = errorReturn s := rfl

/-- Everything a transmitter-empty callback answers: nothing, the next byte on the wire, or the end of the transmission. -/
theorem transmitterEmpty_cases (s : State) :
    transmitterEmpty s = s ∨
    (s.running = true ∧ s.txState = .transmitting ∧
      (s.txRem ≠ 0 ∧ transmitterEmpty s = txNextByte s ∨ s.txRem = 0 ∧ transmitterEmpty s = txEnd s)) := by
  by_cases h : s.running = true ∧ s.txState = .transmitting
  · obtain ⟨hr, ht⟩ := h
    by_cases h0 : s.txRem = 0
    · exact .inr ⟨hr, ht, .inr ⟨h0, transmitterEmpty_end hr ht h0⟩⟩
    · exact .inr ⟨hr, ht, .inl ⟨h0, transmitterEmpty_next hr ht h0⟩⟩
  · refine .inl (transmitterEmpty_still ?_)
    rw [← Bool.not_eq_true]
    exact not_and_or.mp h

/-- The step that sends leaves the line as it is or turns it to transmit mode. -/
theorem handleFrameSent_lineMode (s : State) :
    (handleFrameSent s).lineMode = s.lineMode ∨ (handleFrameSent s).lineMode = .tx := by
  rcases handleFrameSent_cases s with h | h | ⟨-, h⟩ <;> rw [h]
  · exact .inl rfl
  · exact .inl rfl
  · exact .inr rfl

/-- What `Init` can change: the token only to free, the line mode only to receive mode. -/
theorem initPort_frame (s : State) :
    ∃ p tb rs ts q tk r ti lm rn, (tk = s.token ∨ tk = .free) ∧ (lm = s.lineMode ∨ lm = .rx) ∧ initPort s = { s with
      protoState := p, hfn := tb, rxState := rs, txState := ts, evq := q, token := tk, results := r, timer := ti
      lineMode := lm, running := rn } := by
  unfold initPort
  split
  · exact ⟨_, _, _, _, _, _, _, _, _, _, .inl rfl, .inl rfl, rfl⟩
  split
  · exact ⟨_, _, _, _, _, _, _, _, _, _, .inl rfl, .inl rfl, rfl⟩
  split
  · exact ⟨_, _, _, _, _, _, _, _, _, _, .inl rfl, .inr rfl, rfl⟩
  · exact ⟨_, _, _, _, _, _, _, _, _, _, .inr rfl, .inr rfl, rfl⟩

/-- Whatever store writes keep, every handler but Report Slave ID keeps. -/
theorem runHandler_of_storeWrite {P : State → Prop}
    (hw : ∀ t slave a n bs s, P s → P (storeWrite t slave a n bs s).1) {h : HandlerId} (hr : h ≠ .rsid) (v : View) (L : Nat)
    {s : State} (hs : P s) : P (runHandler h v L s).state := by
  have hstore : ∀ (ok : Bool) t slave a n bs,
      P (if ok then fromStore (storeWrite t slave a n bs s) L else ⟨s, .illegalDataValue, L⟩ : HandlerResult).state := by
    intro ok t slave a n bs
    cases ok with
    | false => exact hs
    | true => exact hw t slave a n bs s hs
  have hread : ∀ t nb, P (readHandler t nb v L s).state := by
    intro t nb
    unfold readHandler
    split
    · exact hs
    · exact hstore _ _ _ _ _ _
  cases h with
  | rc => exact hread _ _
  | rdi => exact hread _ _
  | rhr => exact hread _ _
  | rir => exact hread _ _
  | wsc => exact hstore _ _ _ _ _ _
  | wsr => exact hstore _ _ _ _ _ _
  | wmc => exact hstore _ _ _ _ _ _
  | wmr => exact hstore _ _ _ _ _ _
  | rsid => exact absurd rfl hr
  | rwmr =>
    have hfirst : P (readWriteWritePart s).1 := hw _ _ _ _ _ _ hs
    simp only [runHandler, handleReadWriteMultipleHoldingRegister]
    split
    · split
      · exact hfirst
      split
      · exact hfirst
      · exact hw _ _ _ _ _ _ hfirst
    · exact hs

theorem runHandler_cfg (hid : HandlerId) (v : View) (L : Nat) (s : State) : (runHandler hid v L s).state.cfg = s.cfg := by
  rw [runHandler_frame]

/-! ### What an instruction does

The meanings of the 41 rows fall into the shapes below; every whole-machine rule is proved shape by shape. -/

/-- The next state that `exec` answers for an instruction, by the operation that makes it. -/
inductive Effect (s : State) : Instr → State → Prop
  | request {i : Instr} (h : HandlerId) (slave : Byte) (ok : Bool) (pdu : List Byte) (hi : isRequest i = true)
      (hlen : ok = true → pdu.length ≤ 252) : Effect s i (requestCommon h slave ok pdu s)
  | noBuilder : Effect s .reqRsid (markRefused s)
  | response {i : Instr} {fc : Byte} {data : List Byte} (hi : ResponseRow i fc data) :
      Effect s i (dispatchResponse (fc :: data) s)
  | frame (a : Byte) (pdu : List Byte) (lo hi : Byte) :
      Effect s (.frame a pdu lo hi) (receiveFrame (wireOrder a pdu lo hi) s)
  | init (arg : InitArg) : Effect s (.appInit arg) (init arg s)
  | enable : Effect s .appEnable (enable s)
  | disable : Effect s .appDisable (disable s)
  | setSlaveId (id : Byte) (running : Bool) (extra : List Byte) :
      Effect s (.appSetSlaveId id running extra) (setSlaveId id running extra s)
  | storeRead (table : Table) (slave : Byte) (addr : Half) (n : Nat) :
      Effect s (.appStoreRead table slave addr n) (returns (storeRead table slave addr n s) s)
  | pollIdle : Effect s .poll s
  | pollEvent {ev : Event} {rest : List Event} (he : s.protoState = .enabled) (hq : s.evq = ev :: rest) :
      Effect s .poll (handleEvent ev { s with evq := rest })
  | byte (b : Byte) : Effect s (.portRx b) (byteReceived b s)
  | transmitterEmpty : Effect s .portTxe (transmitterEmpty s)
  | expiry : Effect s .portTmo (portTimerExpiry s)

theorem pduTwoFields_length (h : HandlerId) (a b : Half) : (pduTwoFields h a b).length = 5 := rfl

theorem pduWithData_length (h : HandlerId) (a n : Half) (data : List Byte) :
    (pduWithData h a n data).length = 6 + data.length := by
  simp [pduWithData, countedBytes]; omega

theorem pduReadWrite_length (ra rn wa wn : Half) (data : List Byte) :
    (pduReadWrite ra rn wa wn data).length = 10 + data.length := by
  simp [pduReadWrite, countedBytes]; omega

/-- A request of two fields, its bounds passed or not, is short enough for its length register (R30). -/
theorem request_twoFields {s : State} {i : Instr} (h h' : HandlerId) (slave : Byte) (ok : Bool) (a b : Half)
    (hi : isRequest i = true) : Effect s i (requestCommon h slave ok (pduTwoFields h' a b) s) :=
  .request h slave ok _ hi (fun _ => by rw [pduTwoFields_length]; omega)

theorem ceil8_maxWriteBits {n : Half} (h : countOk n maxWriteBits = true) : ceil8 n.toNat ≤ 246 := by
  have := (countOk_iff _ _).mp h
  simp only [maxWriteBits] at this
  simp only [ceil8]; omega

theorem toNat_maxWriteWords {n : Half} (h : countOk n maxWriteWords = true) : n.toNat ≤ 120 :=
  ((countOk_iff _ _).mp h).2

theorem wmcPdu_length {a n : Half} {bits : List Byte} (h : countOk n maxWriteBits = true) :
    (pduWithData .wmc a n (bits.take (ceil8 n.toNat))).length ≤ 252 := by
  have := ceil8_maxWriteBits h
  have := List.length_take_le (ceil8 n.toNat) bits
  rw [pduWithData_length]; omega

theorem beBytes_take_length {n : Half} {values : List Half} (h : countOk n maxWriteWords = true) :
    (beBytes (values.take n.toNat)).length ≤ 240 := by
  have := toNat_maxWriteWords h
  have := List.length_take_le n.toNat values
  rw [beBytes_length]; omega

/-- Every instruction answers a next state, of the shape its row has. -/
theorem exec_effect (s : State) : ∀ i : Instr, ∃ t, exec i s = .next t ∧ Effect s i t
  | .reqRc _ _ => ⟨_, rfl, request_twoFields _ _ _ _ _ _ rfl⟩
  | .reqRdi _ _ => ⟨_, rfl, request_twoFields _ _ _ _ _ _ rfl⟩
  | .reqRhr _ _ => ⟨_, rfl, request_twoFields _ _ _ _ _ _ rfl⟩
  | .reqRir _ _ => ⟨_, rfl, request_twoFields _ _ _ _ _ _ rfl⟩
  | .reqWsc _ _ => ⟨_, rfl, request_twoFields _ _ _ _ _ _ rfl⟩
  | .reqWsr _ _ => ⟨_, rfl, request_twoFields _ _ _ _ _ _ rfl⟩
  | .reqWmc _ _ bytes => ⟨_, rfl, .request _ _ _ _ rfl fun h => by
      obtain ⟨hc, hb⟩ := Bool.and_eq_true_iff.mp h
      have := ceil8_maxWriteBits hc
      have := ((countedOk_iff _ _).mp hb).1
      rw [pduWithBytes_length]; omega⟩
  | .reqWmr _ _ bytes => ⟨_, rfl, .request _ _ _ _ rfl fun h => by
      obtain ⟨hc, hb⟩ := Bool.and_eq_true_iff.mp h
      have := toNat_maxWriteWords hc
      have := ((countedOk_iff _ _).mp hb).1
      rw [pduWithBytes_length]; omega⟩
  | .reqRwmr _ _ _ _ bytes => ⟨_, rfl, .request _ _ _ _ rfl fun h => by
      obtain ⟨hc, hb⟩ := Bool.and_eq_true_iff.mp h
      have := toNat_maxWriteWords (Bool.and_eq_true_iff.mp hc).2
      have := ((countedOk_iff _ _).mp hb).1
      rw [pduReadWriteBytes_length]; omega⟩
  | .reqRsid => ⟨_, rfl, .noBuilder⟩
  | .rspRc _ => ⟨_, rfl, .response (by simp [ResponseRow, codeOf])⟩
  | .rspRdi _ => ⟨_, rfl, .response (by simp [ResponseRow, codeOf])⟩
  | .rspRhr _ => ⟨_, rfl, .response (by simp [ResponseRow, codeOf])⟩
  | .rspRir _ => ⟨_, rfl, .response (by simp [ResponseRow, codeOf])⟩
  | .rspWsc _ => ⟨_, rfl, .response (by simp [ResponseRow, codeOf])⟩
  | .rspWsr _ => ⟨_, rfl, .response (by simp [ResponseRow, codeOf])⟩
  | .rspWmc _ => ⟨_, rfl, .response (by simp [ResponseRow, codeOf])⟩
  | .rspWmr _ => ⟨_, rfl, .response (by simp [ResponseRow, codeOf])⟩
  | .rspRsid _ => ⟨_, rfl, .response (by simp [ResponseRow, codeOf])⟩
  | .rspRwmr _ => ⟨_, rfl, .response (by simp [ResponseRow, codeOf])⟩
  | .rspException _ _ => ⟨_, rfl, .response (by simp [ResponseRow])⟩
  | .rspUnknown _ _ => ⟨_, rfl, .response (by simp [ResponseRow])⟩
  | .frame a pdu lo hi => ⟨_, rfl, .frame a pdu lo hi⟩
  | .appInit arg => ⟨_, rfl, .init arg⟩
  | .appEnable => ⟨_, rfl, .enable⟩
  | .appDisable => ⟨_, rfl, .disable⟩
  | .appSetSlaveId id running extra => ⟨_, rfl, .setSlaveId id running extra⟩
  | .appStoreRead table slave addr n => ⟨_, rfl, .storeRead table slave addr n⟩
  | .poll => by
      by_cases he : s.protoState = .enabled
      · cases hq : s.evq with
        | nil => exact ⟨s, exec_poll_empty hq, .pollIdle⟩
        | cons ev rest => exact ⟨_, exec_poll_event he hq, .pollEvent he hq⟩
      · exact ⟨s, exec_poll_disabled he, .pollIdle⟩
  | .portRx b => ⟨_, rfl, .byte b⟩
  | .portTxe => ⟨_, rfl, .transmitterEmpty⟩
  | .portTmo => ⟨_, rfl, .expiry⟩
  | .appRequestReadCoils _ _ _ => ⟨_, rfl, request_twoFields _ _ _ _ _ _ rfl⟩
  | .appRequestReadDiscreteInputs _ _ _ => ⟨_, rfl, request_twoFields _ _ _ _ _ _ rfl⟩
  | .appRequestReadHoldingRegister _ _ _ => ⟨_, rfl, request_twoFields _ _ _ _ _ _ rfl⟩
  | .appRequestReadInputRegister _ _ _ => ⟨_, rfl, request_twoFields _ _ _ _ _ _ rfl⟩
  | .appRequestWriteSingleCoil _ _ _ => ⟨_, rfl, request_twoFields _ _ _ _ _ _ rfl⟩
  | .appRequestWriteHoldingRegister _ _ _ => ⟨_, rfl, request_twoFields _ _ _ _ _ _ rfl⟩
  | .appRequestWriteMultipleCoils _ _ _ _ => ⟨_, rfl, .request _ _ _ _ rfl fun h =>
      wmcPdu_length (Bool.and_eq_true_iff.mp h).1⟩
  | .appRequestWriteMultipleHoldingRegister _ _ _ values => ⟨_, rfl, .request _ _ _ _ rfl fun h => by
      have := beBytes_take_length (values := values) (Bool.and_eq_true_iff.mp h).1
      rw [pduWithData_length]; omega⟩
  | .appRequestReadWriteMultipleHoldingRegister _ _ _ _ _ values => ⟨_, rfl, .request _ _ _ _ rfl fun h => by
      have := beBytes_take_length (values := values) (Bool.and_eq_true_iff.mp (Bool.and_eq_true_iff.mp h).1).2
      rw [pduReadWrite_length]; omega⟩

/-- The inversion of `exec`. -/
theorem effect_of_exec {i : Instr} {s t : State} (h : exec i s = .next t) : Effect s i t := by
  obtain ⟨u, hu, he⟩ := exec_effect s i
  cases hu.symm.trans h
  exact he

/-! ### What the decoder reads is well-formed -/

theorem decodeRequestPdu_wellFormed {pdu : List Byte} {i : Instr} (h : decodeRequestPdu pdu = .ok i) :
    i.wellFormed = true := by
  cases pdu with
  | nil => cases h
  | cons fc body =>
    rw [decodeRequestPdu] at h
    obtain ⟨-, h⟩ | ⟨hlen, h⟩ := ite_eq_iff.mp h
    · cases h
    obtain ⟨-, h⟩ | ⟨-, h⟩ := ite_eq_iff.mp h
    · obtain ⟨_, _, -, hi⟩ := twoFields_ok h; cases hi; rfl
    obtain ⟨-, h⟩ | ⟨-, h⟩ := ite_eq_iff.mp h
    · obtain ⟨_, _, -, hi⟩ := twoFields_ok h; cases hi; rfl
    obtain ⟨-, h⟩ | ⟨-, h⟩ := ite_eq_iff.mp h
    · obtain ⟨_, _, -, hi⟩ := twoFields_ok h; cases hi; rfl
    obtain ⟨-, h⟩ | ⟨-, h⟩ := ite_eq_iff.mp h
    · obtain ⟨_, _, -, hi⟩ := twoFields_ok h; cases hi; rfl
    obtain ⟨-, h⟩ | ⟨-, h⟩ := ite_eq_iff.mp h
    · obtain ⟨_, _, -, hi⟩ := twoFields_ok h; cases hi; rfl
    obtain ⟨-, h⟩ | ⟨-, h⟩ := ite_eq_iff.mp h
    · obtain ⟨_, _, -, hi⟩ := twoFields_ok h; cases hi; rfl
    obtain ⟨-, h⟩ | ⟨-, h⟩ := ite_eq_iff.mp h
    · obtain ⟨_, _, bytes, rfl, hi⟩ := fieldsThenBytes_ok h
      cases hi
      exact decide_eq_true ((Nat.add_comm 5 _).trans_le (Nat.le_of_not_lt hlen))
    obtain ⟨-, h⟩ | ⟨-, h⟩ := ite_eq_iff.mp h
    · obtain ⟨_, _, bytes, rfl, hi⟩ := fieldsThenBytes_ok h
      cases hi
      exact decide_eq_true ((Nat.add_comm 5 _).trans_le (Nat.le_of_not_lt hlen))
    obtain ⟨-, h⟩ | ⟨-, h⟩ := ite_eq_iff.mp h
    · obtain ⟨_, _, _, _, bytes, rfl, hi⟩ := readWriteFields_ok h
      cases hi
      exact decide_eq_true ((Nat.add_comm 9 _).trans_le (Nat.le_of_not_lt hlen))
    obtain ⟨-, h⟩ | ⟨-, h⟩ := ite_eq_iff.mp h
    · unfold rsidRequest at h
      split at h <;> cases h
      rfl
    · cases h

theorem responseOf_wellFormed {fc : Byte} {data : List Byte} {i : Instr} (hlen : rspDataOk data = true)
    (h : responseOf fc data = i) : i.wellFormed = true := by
  rw [responseOf] at h
  obtain ⟨h7, rfl⟩ | ⟨h7, h⟩ := ite_eq_iff.mp h
  · exact Bool.and_eq_true_iff.mpr ⟨h7, hlen⟩
  obtain ⟨-, rfl⟩ | ⟨rc, h⟩ := ite_eq_iff.mp h
  · exact hlen
  obtain ⟨-, rfl⟩ | ⟨rdi, h⟩ := ite_eq_iff.mp h
  · exact hlen
  obtain ⟨-, rfl⟩ | ⟨rhr, h⟩ := ite_eq_iff.mp h
  · exact hlen
  obtain ⟨-, rfl⟩ | ⟨rir, h⟩ := ite_eq_iff.mp h
  · exact hlen
  obtain ⟨-, rfl⟩ | ⟨wsc, h⟩ := ite_eq_iff.mp h
  · exact hlen
  obtain ⟨-, rfl⟩ | ⟨wsr, h⟩ := ite_eq_iff.mp h
  · exact hlen
  obtain ⟨-, rfl⟩ | ⟨wmc, h⟩ := ite_eq_iff.mp h
  · exact hlen
  obtain ⟨-, rfl⟩ | ⟨wmr, h⟩ := ite_eq_iff.mp h
  · exact hlen
  obtain ⟨-, rfl⟩ | ⟨rsid, h⟩ := ite_eq_iff.mp h
  · exact hlen
  obtain ⟨-, rfl⟩ | ⟨rwmr, h⟩ := ite_eq_iff.mp h
  · exact hlen
  have hk : knownCode fc = false := by
    rw [← Bool.not_eq_true, knownCode_iff]
    rintro ⟨hid, rfl⟩
    cases hid <;> contradiction
  subst h
  simp only [Instr.wellFormed, Bool.eq_false_of_not_eq_true h7, hk, hlen]; rfl

theorem decodeResponsePdu_wellFormed {pdu : List Byte} {i : Instr} (h : decodeResponsePdu pdu = .ok i) :
    i.wellFormed = true := by
  cases pdu with
  | nil => cases h
  | cons fc data =>
    rw [decodeResponsePdu] at h
    split at h
    case isTrue hlen => exact responseOf_wellFormed hlen (Except.ok.inj h)
    case isFalse => cases h

theorem decodeFrame_wellFormed {bytes : List Byte} {i : Instr} (h : decodeFrame bytes = .ok i) : i.wellFormed = true := by
  obtain ⟨_, pdu, _, _, -, h1, h2, rfl⟩ := decodeFrame_ok h
  exact decide_eq_true ⟨h1, h2⟩

/-- Every step that the decoder reads is well-formed (R90, R95, R97; log 1). -/
theorem decode_wellFormed {bs rest : List Byte} {i : Instr} (h : decode bs = .ok (i, rest)) : i.wellFormed = true := by
  cases bs with
  | nil => cases h
  | cons k r =>
    rw [decode] at h
    obtain ⟨-, h⟩ | ⟨-, h⟩ := ite_eq_iff.mp h
    · obtain ⟨_, -, -, hd⟩ := withPdu_ok h; exact decodeRequestPdu_wellFormed hd
    obtain ⟨-, h⟩ | ⟨-, h⟩ := ite_eq_iff.mp h
    · obtain ⟨_, -, -, hd⟩ := withPdu_ok h; exact decodeResponsePdu_wellFormed hd
    obtain ⟨-, h⟩ | ⟨-, h⟩ := ite_eq_iff.mp h
    · obtain ⟨_, _, -, h⟩ := withByte_ok h
      obtain ⟨_, -, -, hd⟩ := withDecoded_ok h
      exact decodeFrame_wellFormed hd
    obtain ⟨-, h⟩ | ⟨-, h⟩ := ite_eq_iff.mp h
    · obtain ⟨_, _, -, h⟩ := withByte_ok h
      obtain ⟨_, -, h⟩ := withNamed_ok h
      cases h; rfl
    obtain ⟨-, h⟩ | ⟨-, h⟩ := ite_eq_iff.mp h
    · cases h; rfl
    obtain ⟨-, h⟩ | ⟨-, h⟩ := ite_eq_iff.mp h
    · cases h; rfl
    obtain ⟨-, h⟩ | ⟨-, h⟩ := ite_eq_iff.mp h
    · obtain ⟨_, _, -, h⟩ := withByte_ok h
      obtain ⟨_, _, -, h⟩ := withByte_ok h
      obtain ⟨_, -, h⟩ := withNamed_ok h
      obtain ⟨_, _, -, hlen, h⟩ := withSeq_ok h
      cases h; exact decide_eq_true hlen
    obtain ⟨-, h⟩ | ⟨-, h⟩ := ite_eq_iff.mp h
    · obtain ⟨_, _, -, h⟩ := withByte_ok h
      obtain ⟨_, -, h⟩ := withNamed_ok h
      obtain ⟨_, _, -, h⟩ := withByte_ok h
      obtain ⟨_, _, -, h⟩ := withHalf_ok h
      obtain ⟨nh, _, -, h⟩ := withHalf_ok h
      obtain ⟨nl, _, -, h⟩ := withHalf_ok h
      cases h; exact decide_eq_true (by omega)
    obtain ⟨-, h⟩ | ⟨-, h⟩ := ite_eq_iff.mp h
    · cases h; rfl
    obtain ⟨-, h⟩ | ⟨-, h⟩ := ite_eq_iff.mp h
    · obtain ⟨_, _, -, h⟩ := withByte_ok h; cases h; rfl
    obtain ⟨-, h⟩ | ⟨-, h⟩ := ite_eq_iff.mp h
    · cases h; rfl
    obtain ⟨-, h⟩ | ⟨-, h⟩ := ite_eq_iff.mp h
    · cases h; rfl
    obtain ⟨-, h⟩ | ⟨-, h⟩ := ite_eq_iff.mp h
    · obtain ⟨_, _, _, _, -, h⟩ := withSlaveTwo_ok h; cases h; rfl
    obtain ⟨-, h⟩ | ⟨-, h⟩ := ite_eq_iff.mp h
    · obtain ⟨_, _, _, _, -, h⟩ := withSlaveTwo_ok h; cases h; rfl
    obtain ⟨-, h⟩ | ⟨-, h⟩ := ite_eq_iff.mp h
    · obtain ⟨_, _, _, _, -, h⟩ := withSlaveTwo_ok h; cases h; rfl
    obtain ⟨-, h⟩ | ⟨-, h⟩ := ite_eq_iff.mp h
    · obtain ⟨_, _, _, _, -, h⟩ := withSlaveTwo_ok h; cases h; rfl
    obtain ⟨-, h⟩ | ⟨-, h⟩ := ite_eq_iff.mp h
    · obtain ⟨_, _, _, _, -, h⟩ := withSlaveTwo_ok h; cases h; rfl
    obtain ⟨-, h⟩ | ⟨-, h⟩ := ite_eq_iff.mp h
    · obtain ⟨_, _, _, _, -, h⟩ := withSlaveTwo_ok h; cases h; rfl
    obtain ⟨-, h⟩ | ⟨-, h⟩ := ite_eq_iff.mp h
    · obtain ⟨_, _, _, _, -, h⟩ := withSlaveTwo_ok h
      obtain ⟨_, _, -, hlen, h⟩ := withSeq_ok h
      cases h; exact decide_eq_true hlen
    obtain ⟨-, h⟩ | ⟨-, h⟩ := ite_eq_iff.mp h
    · obtain ⟨_, _, _, _, -, h⟩ := withSlaveTwo_ok h
      obtain ⟨_, _, -, hlen, h⟩ := withWords_ok h
      cases h; exact decide_eq_true hlen
    obtain ⟨-, h⟩ | ⟨-, h⟩ := ite_eq_iff.mp h
    · obtain ⟨_, _, _, _, -, h⟩ := withSlaveTwo_ok h
      obtain ⟨_, _, -, h⟩ := withHalf_ok h
      obtain ⟨_, _, -, h⟩ := withHalf_ok h
      obtain ⟨_, _, -, hlen, h⟩ := withWords_ok h
      cases h; exact decide_eq_true hlen
    · cases h

/-- A well-formed response row is the code and at most 252 bytes (R90). -/
theorem responseRow_length_le {i : Instr} {fc : Byte} {data : List Byte} (hi : ResponseRow i fc data)
    (hw : i.wellFormed = true) : (fc :: data).length ≤ pduMax := by
  have hd : rspDataOk data = true := by
    unfold ResponseRow at hi
    obtain ⟨rfl, -⟩ | ⟨rfl, -⟩ | ⟨rfl, -⟩ | ⟨rfl, -⟩ | ⟨rfl, -⟩ | ⟨rfl, -⟩ | ⟨rfl, -⟩ | ⟨rfl, -⟩ | ⟨rfl, -⟩ | ⟨rfl, -⟩ |
      rfl | rfl := hi
    iterate 10 exact hw
    iterate 2 exact (Bool.and_eq_true_iff.mp hw).2
  exact of_decide_eq_true hd

/-! ### Marks and observations (R52 to R54) -/

/-- From s to t no mark is cleared and no recorded result or error is lost. -/
structure RecordsKept (s t : State) : Prop where
  sendRejected : s.faults.sendRejected = true → t.faults.sendRejected = true
  overflow : s.faults.eventQueueOverflow = true → t.faults.eventQueueOverflow = true
  refused : s.refused = true → t.refused = true
  results : s.results <+: t.results
  errorsRead : s.errorsRead <+: t.errorsRead

/-- The same, and the wire is as it was. -/
structure QuietlyKept (s t : State) : Prop extends RecordsKept s t where
  wire : t.wire = s.wire

/-- The marks and observations of a state. -/
def records (s : State) : FaultMarks × Bool × List ApiResult × List (Option ErrorEvent) × List Byte :=
  (s.faults, s.refused, s.results, s.errorsRead, s.wire)

/-- Whatever writes none of the marks and observations keeps them. -/
theorem QuietlyKept.of_eq {s t : State} (h : records t = records s) : QuietlyKept s t := by
  obtain ⟨hf, hr, hs, he, hw⟩ : t.faults = s.faults ∧ t.refused = s.refused ∧ t.results = s.results ∧
      t.errorsRead = s.errorsRead ∧ t.wire = s.wire := by simpa [records] using h
  exact ⟨⟨by rw [hf]; exact id, by rw [hf]; exact id, by rw [hr]; exact id, by rw [hs], by rw [he]⟩, hw⟩

theorem QuietlyKept.refl (s : State) : QuietlyKept s s := .of_eq rfl

theorem QuietlyKept.trans {s t u : State} (h : QuietlyKept s t) (h' : QuietlyKept t u) : QuietlyKept s u where
  sendRejected := h'.sendRejected ∘ h.sendRejected
  overflow := h'.overflow ∘ h.overflow
  refused := h'.refused ∘ h.refused
  results := h.results.trans h'.results
  errorsRead := h.errorsRead.trans h'.errorsRead
  wire := h'.wire.trans h.wire

/-- A step that first writes none of them and then keeps them. -/
theorem QuietlyKept.after {s u t : State} (h : QuietlyKept u t) (e : records u = records s) : QuietlyKept s t :=
  .trans (.of_eq e) h

theorem post_quietlyKept (ev : Event) (s : State) : QuietlyKept s (post ev s) where
  sendRejected := fun h => by rw [post_faults]; split <;> exact h
  overflow := fun h => by rw [post_faults]; split; exacts [h, rfl]
  refused := id
  results := List.prefix_refl _
  errorsRead := List.prefix_refl _
  wire := rfl

theorem errorEntry_quietlyKept (v : ErrorEvent) (s : State) : QuietlyKept s (errorEntry v s) :=
  (post_quietlyKept .error { s with errEvent := some v }).after rfl

theorem returns_quietlyKept (r : ApiResult) (s : State) : QuietlyKept s (returns r s) :=
  ⟨⟨id, id, id, List.prefix_append _ _, List.prefix_refl _⟩, rfl⟩

theorem returnsCode_quietlyKept (e : LocalError) (s : State) : QuietlyKept s (returnsCode e s) := returns_quietlyKept _ s

theorem markRefused_quietlyKept (s : State) : QuietlyKept s (markRefused s) :=
  ⟨⟨id, id, fun _ => rfl, List.prefix_refl _, List.prefix_refl _⟩, rfl⟩

theorem markSendRejected_quietlyKept (s : State) : QuietlyKept s (markSendRejected s) :=
  ⟨⟨fun _ => rfl, id, id, List.prefix_refl _, List.prefix_refl _⟩, rfl⟩

theorem errorReturn_quietlyKept (s : State) : QuietlyKept s (errorReturn s) :=
  ⟨⟨id, id, id, List.prefix_refl _, List.prefix_append _ _⟩, rfl⟩

theorem submit_quietlyKept (slave : Byte) (pdu : List Byte) (s : State) : QuietlyKept s (submit slave pdu s) :=
  (post_quietlyKept .frameSent _).after rfl

theorem requestCommon_quietlyKept (h : HandlerId) (slave : Byte) (ok : Bool) (pdu : List Byte) (s : State) :
    QuietlyKept s (requestCommon h slave ok pdu s) := by
  unfold requestCommon
  split
  · exact markRefused_quietlyKept s
  split
  · exact returnsCode_quietlyKept _ s
  split
  · exact returnsCode_quietlyKept _ s
  split
  · exact returnsCode_quietlyKept _ s
  · exact (submit_quietlyKept slave pdu s).trans (returnsCode_quietlyKept _ _)

theorem timerExpiredRx_quietlyKept (s : State) : QuietlyKept s (timerExpiredRx s) := by
  unfold timerExpiredRx
  split
  · exact (post_quietlyKept .ready s).trans (.of_eq rfl)
  · exact (post_quietlyKept .frameReceived s).trans (.of_eq rfl)
  · exact (errorEntry_quietlyKept .receiveDataError s).trans (.of_eq rfl)
  · exact .refl s

theorem timerExpiredTx_quietlyKept (s : State) : QuietlyKept s (timerExpiredTx s) := by
  unfold timerExpiredTx
  split
  · split
    · exact (post_quietlyKept .execute s).trans (.of_eq rfl)
    · exact (errorEntry_quietlyKept .respondTimeout s).trans (.of_eq rfl)
  · exact .refl s
  · exact .refl s

theorem portTimerExpiry_quietlyKept (s : State) : QuietlyKept s (portTimerExpiry s) := by
  have hd : QuietlyKept s (timerDisable s) := .of_eq rfl
  unfold portTimerExpiry
  split
  · unfold timerExpired
    split
    · exact (hd.trans (timerExpiredRx_quietlyKept _)).trans (timerExpiredTx_quietlyKept _)
    · exact hd
  · exact .refl s

theorem byteReceived_quietlyKept (b : Byte) (s : State) : QuietlyKept s (byteReceived b s) := by
  obtain ⟨_, _, _, _, _, h⟩ := byteReceived_frame b s
  rw [h]; exact .of_eq rfl

theorem receiveFrame_quietlyKept (bs : List Byte) (s : State) : QuietlyKept s (receiveFrame bs s) := by
  obtain ⟨_, _, _, _, _, h⟩ := receiveBytes_frame bs s
  refine .trans (t := bs.foldl (fun t b => byteReceived b t) s) ?_ (portTimerExpiry_quietlyKept _)
  rw [h]; exact .of_eq rfl

theorem concludeExecute_quietlyKept (u : State) (e : Exc) : QuietlyKept u (concludeExecute (u, e)) := by
  unfold concludeExecute
  split
  · exact .of_eq rfl
  · exact errorEntry_quietlyKept .executeFunctionError u

theorem applyHandler_quietlyKept (h : HandlerId) (v : View) (L : Nat) (s : State) :
    QuietlyKept s (applyHandler h v L s).1 := by
  obtain ⟨_, _, _, _, _, _, _, e⟩ := applyHandler_frame h v L s
  rw [e]; exact .of_eq rfl

theorem executePdu_quietlyKept (v : View) (L : Nat) (s : State) : QuietlyKept s (executePdu v L s) := by
  unfold executePdu
  dsimp only
  split
  · exact errorEntry_quietlyKept .executeFunctionError s
  · split
    · exact concludeExecute_quietlyKept s .illegalFunction
    · exact (applyHandler_quietlyKept ..).trans (concludeExecute_quietlyKept ..)

theorem handleExecute_quietlyKept (s : State) : QuietlyKept s (handleExecute s) := by
  rcases Bool.eq_false_or_eq_true s.bcast with hb | hb
  · rw [handleExecute_broadcast hb]
    exact (executePdu_quietlyKept ..).trans (.of_eq rfl)
  · rw [handleExecute_unicast hb]
    exact (executePdu_quietlyKept ..).trans (.of_eq rfl)

theorem dispatchResponse_quietlyKept (pdu : List Byte) (s : State) : QuietlyKept s (dispatchResponse pdu s) := by
  unfold dispatchResponse
  split
  · exact (handleExecute_quietlyKept (acceptResponse pdu s)).after rfl
  · exact .refl s

theorem handleEvent_quietlyKept (ev : Event) (s : State) : QuietlyKept s (handleEvent ev s) := by
  cases ev with
  | ready => exact .refl s
  | frameReceived =>
    rw [handleEvent_frameReceived]
    rcases handleFrameReceived_cases s with h | h
    · rw [h]; exact (post_quietlyKept .execute _).after rfl
    · rw [h]; exact errorEntry_quietlyKept _ s
  | execute => exact handleExecute_quietlyKept s
  | frameSent =>
    rw [handleEvent_frameSent]
    rcases handleFrameSent_cases s with h | h | ⟨-, h⟩
    · rw [h]; exact markRefused_quietlyKept s
    · rw [h]; exact markSendRejected_quietlyKept s
    · rw [h]; exact .of_eq rfl
  | error => exact errorReturn_quietlyKept s

theorem initPort_quietlyKept (s : State) : QuietlyKept s (initPort s) := by
  unfold initPort
  split
  · exact returnsCode_quietlyKept _ s
  split
  · exact (returnsCode_quietlyKept _ _).after rfl
  split
  · exact (returnsCode_quietlyKept _ _).after rfl
  · exact (returnsCode_quietlyKept _ _).after rfl

theorem init_quietlyKept (arg : InitArg) (s : State) : QuietlyKept s (init arg s) := by
  unfold init
  split
  · exact markRefused_quietlyKept s
  split
  · exact returnsCode_quietlyKept _ s
  · exact initPort_quietlyKept s
  · exact markRefused_quietlyKept s
  · exact markRefused_quietlyKept s

theorem enable_quietlyKept (s : State) : QuietlyKept s (enable s) := by
  unfold enable
  split
  · exact (returnsCode_quietlyKept _ _).after rfl
  · exact returnsCode_quietlyKept _ s

theorem disable_quietlyKept (s : State) : QuietlyKept s (disable s) := by
  unfold disable
  split
  · exact returnsCode_quietlyKept _ s
  · exact (returnsCode_quietlyKept _ _).after rfl
  · exact returnsCode_quietlyKept _ s

theorem setSlaveId_quietlyKept (id : Byte) (running : Bool) (extra : List Byte) (s : State) :
    QuietlyKept s (setSlaveId id running extra s) := by
  unfold setSlaveId
  split
  · exact returnsCode_quietlyKept _ s
  · exact (returnsCode_quietlyKept _ _).after rfl

/-- Every instruction but the transmitter-empty callback keeps the records and the wire. -/
theorem Effect.quietlyKept {i : Instr} {s t : State} (h : Effect s i t) (hi : i ≠ .portTxe) : QuietlyKept s t := by
  cases h with
  | request => exact requestCommon_quietlyKept ..
  | noBuilder => exact markRefused_quietlyKept s
  | response => exact dispatchResponse_quietlyKept _ s
  | frame => exact receiveFrame_quietlyKept _ s
  | init => exact init_quietlyKept _ s
  | enable => exact enable_quietlyKept s
  | disable => exact disable_quietlyKept s
  | setSlaveId => exact setSlaveId_quietlyKept ..
  | storeRead => exact returns_quietlyKept _ s
  | pollIdle => exact .refl s
  | pollEvent => exact (handleEvent_quietlyKept ..).after rfl
  | byte => exact byteReceived_quietlyKept ..
  | transmitterEmpty => exact absurd rfl hi
  | expiry => exact portTimerExpiry_quietlyKept s

/-- A transmitter-empty callback keeps the records and may add to the wire. -/
theorem transmitterEmpty_recordsKept (s : State) :
    RecordsKept s (transmitterEmpty s) ∧ s.wire <+: (transmitterEmpty s).wire := by
  rcases transmitterEmpty_cases s with h | ⟨-, -, ⟨-, h⟩ | ⟨-, h⟩⟩ <;> rw [h]
  · exact ⟨(QuietlyKept.refl s).toRecordsKept, List.prefix_refl _⟩
  · exact ⟨⟨id, id, id, List.prefix_refl _, List.prefix_refl _⟩, List.prefix_append _ _⟩
  · exact ⟨⟨id, id, id, List.prefix_refl _, List.prefix_refl _⟩, List.prefix_refl _⟩

theorem Effect.recordsKept {i : Instr} {s t : State} (h : Effect s i t) :
    RecordsKept s t ∧ ∃ more, t.wire = s.wire ++ more ∧ (i ≠ .portTxe → more = []) := by
  by_cases hi : i = .portTxe
  · subst hi
    cases h with
    | request _ _ _ _ hi => cases hi
    | response hi => simp [ResponseRow] at hi
    | transmitterEmpty =>
      obtain ⟨hr, more, hw⟩ := transmitterEmpty_recordsKept s
      exact ⟨hr, more, hw.symm, fun hne => absurd rfl hne⟩
  · have hq := h.quietlyKept hi
    exact ⟨hq.toRecordsKept, [], by rw [hq.wire, List.append_nil], fun _ => rfl⟩

/-- Settles O60: each operation keeps the records, and all but the transmitter-empty callback keep the wire. -/
theorem marksAndObservationsGrow : Obligations.MarksAndObservationsGrow := by
  intro i s t h
  obtain ⟨hr, hw⟩ := (effect_of_exec h).recordsKept
  obtain ⟨results, hresults⟩ := hr.results
  obtain ⟨errors, herrors⟩ := hr.errorsRead
  exact ⟨hr.sendRejected, hr.overflow, hr.refused, hw, ⟨results, hresults.symm⟩, ⟨errors, herrors.symm⟩⟩

/-! ### Who writes the control state (R40)

One field for each register. An operation proves the fields of the registers it writes; those of the others hold by `simp`, as the
operation's frame lemma shows the register unchanged. -/

/-- The steps that may change each register of the control state. -/
structure ControlWriters (i : Instr) (s t : State) : Prop where
  protoState : t.protoState ≠ s.protoState → IsInit i ∨ i = .appEnable ∨ i = .appDisable := by simp
  rxState : t.rxState ≠ s.rxState → IsInit i ∨ i = .appEnable ∨ IsReceive i ∨ i = .portTmo := by simp
  txState : t.txState ≠ s.txState → IsInit i ∨ i = .appEnable ∨ IsReceive i ∨ i = .portTmo ∨ i = .portTxe ∨
    (i = .poll ∧ s.protoState = .enabled ∧ s.evq.head? = some .frameSent) := by simp
  timer : t.timer ≠ s.timer →
    IsInit i ∨ i = .appEnable ∨ i = .appDisable ∨ IsReceive i ∨ i = .portTmo ∨ i = .portTxe := by simp
  tokenTaken : s.token = .free → t.token = .held → isRequest i = true := by simp +contextual
  tokenReleased : s.token = .held → t.token = .free →
    IsInit i ∨ IsExecute i s ∨ (i = .poll ∧ s.protoState = .enabled ∧ s.evq.head? = some .error) := by simp +contextual
  evq : t.evq ≠ s.evq → IsInit i ∨ isRequest i = true ∨ i = .portTmo ∨ (∃ a pdu lo hi, i = .frame a pdu lo hi) ∨
    (s.protoState = .enabled ∧ (i = .poll ∨ ∃ fc data, ResponseRow i fc data)) := by simp
  toTransmit : s.lineMode = .rx → t.lineMode = .tx →
    i = .poll ∧ s.protoState = .enabled ∧ s.evq.head? = some .frameSent := by simp +contextual
  toReceive : s.lineMode = .tx → t.lineMode = .rx → IsInit i ∨ i = .appEnable ∨
    (i = .portTxe ∧ s.running = true ∧ s.txState = .transmitting ∧ s.txRem = 0) := by simp +contextual
  hfn : t.hfn ≠ s.hfn → IsInit i := by simp
  running : t.running ≠ s.running → IsInit i ∨ i = .appEnable ∨ i = .appDisable := by simp
  bcast : t.bcast ≠ s.bcast → i = .portTxe := by simp
  sidBuffer : t.sidBuf ≠ s.sidBuf ∨ t.sidLen ≠ s.sidLen → ∃ id r x, i = .appSetSlaveId id r x := by simp
  cfg : t.cfg = s.cfg := by simp

theorem requestCommon_controlWriters {i : Instr} (hi : isRequest i = true) (h : HandlerId) (slave : Byte) (ok : Bool)
    (pdu : List Byte) (s : State) : ControlWriters i s (requestCommon h slave ok pdu s) := by
  have htoken := requestCommon_token h slave ok pdu s
  obtain ⟨tk, _, _, _, _, _, _, _, e⟩ := requestCommon_frame h slave ok pdu s
  rw [e] at htoken ⊢
  exact {
    tokenTaken := fun _ _ => hi
    tokenReleased := fun hs ht => by simp_all
    evq := fun _ => .inr (.inl hi) }

theorem markRefused_controlWriters (i : Instr) (s : State) : ControlWriters i s (markRefused s) := {}

theorem returns_controlWriters (i : Instr) (r : ApiResult) (s : State) : ControlWriters i s (returns r s) := {}

theorem ControlWriters.refl (i : Instr) (s : State) : ControlWriters i s s := {}

theorem receiveFrame_controlWriters (a : Byte) (pdu : List Byte) (lo hi : Byte) (s : State) :
    ControlWriters (.frame a pdu lo hi) s (receiveFrame (wireOrder a pdu lo hi) s) := by
  obtain ⟨_, _, _, _, _, _, _, _, e⟩ := receiveFrame_frame (wireOrder a pdu lo hi) s
  have hr : IsReceive (.frame a pdu lo hi) := .inr ⟨a, pdu, lo, hi, rfl⟩
  rw [e]
  exact {
    rxState := fun _ => .inr (.inr (.inl hr))
    txState := fun _ => .inr (.inr (.inl hr))
    timer := fun _ => .inr (.inr (.inr (.inl hr)))
    evq := fun _ => .inr (.inr (.inr (.inl ⟨a, pdu, lo, hi, rfl⟩))) }

theorem byteReceived_controlWriters (b : Byte) (s : State) : ControlWriters (.portRx b) s (byteReceived b s) := by
  obtain ⟨_, _, _, _, _, e⟩ := byteReceived_frame b s
  have hr : IsReceive (.portRx b) := .inl ⟨b, rfl⟩
  rw [e]
  exact {
    rxState := fun _ => .inr (.inr (.inl hr))
    txState := fun _ => .inr (.inr (.inl hr))
    timer := fun _ => .inr (.inr (.inr (.inl hr))) }

theorem portTimerExpiry_controlWriters (s : State) : ControlWriters .portTmo s (portTimerExpiry s) := by
  obtain ⟨_, _, _, _, _, _, e⟩ := portTimerExpiry_frame s
  rw [e]
  exact {}

theorem transmitterEmpty_controlWriters (s : State) : ControlWriters .portTxe s (transmitterEmpty s) := by
  rcases transmitterEmpty_cases s with h | ⟨hr, ht, ⟨-, h⟩ | ⟨h0, h⟩⟩
  · rw [h]; exact .refl _ s
  · rw [h, txNextByte]; exact {}
  · rw [h, txEnd]; exact { toReceive := fun _ _ => .inr (.inr ⟨rfl, hr, ht, h0⟩) }

theorem initPort_controlWriters {i : Instr} (hi : IsInit i) (s : State) : ControlWriters i s (initPort s) := by
  obtain ⟨_, _, _, _, _, tk, _, _, lm, _, htoken, hline, e⟩ := initPort_frame s
  rw [e]
  exact {
    protoState := fun _ => .inl hi
    rxState := fun _ => .inl hi
    txState := fun _ => .inl hi
    timer := fun _ => .inl hi
    tokenTaken := fun hs ht => by simp_all
    tokenReleased := fun _ _ => .inl hi
    evq := fun _ => .inl hi
    toTransmit := fun hs ht => by simp_all
    toReceive := fun _ _ => .inl hi
    hfn := fun _ => hi
    running := fun _ => .inl hi }

theorem init_controlWriters (arg : InitArg) (s : State) : ControlWriters (.appInit arg) s (init arg s) := by
  unfold init
  split
  · exact markRefused_controlWriters _ s
  split
  · exact returns_controlWriters _ _ s
  · exact initPort_controlWriters ⟨_, rfl⟩ s
  · exact markRefused_controlWriters _ s
  · exact markRefused_controlWriters _ s

theorem enable_controlWriters (s : State) : ControlWriters .appEnable s (enable s) := by
  unfold enable
  split
  · simp only [start]; exact {}
  · exact returns_controlWriters _ _ s

theorem disable_controlWriters (s : State) : ControlWriters .appDisable s (disable s) := by
  unfold disable
  split
  · exact returns_controlWriters _ _ s
  · simp only [stop]; exact {}
  · exact returns_controlWriters _ _ s

theorem setSlaveId_controlWriters (id : Byte) (running : Bool) (extra : List Byte) (s : State) :
    ControlWriters (.appSetSlaveId id running extra) s (setSlaveId id running extra s) := by
  unfold setSlaveId
  split
  · exact returns_controlWriters _ _ s
  · exact { sidBuffer := fun _ => ⟨id, running, extra, rfl⟩ }

/-- The Execute step on the state that an instruction leaves it: an event taken off the queue, or a response accepted. -/
theorem handleExecute_controlWriters {i : Instr} {s : State} (hx : IsExecute i s) (q : List Event) (rb : Memory) (n : Half) :
    ControlWriters i s (handleExecute { s with evq := q, rxbuf := rb, rcvPduLen := n }) := by
  have htoken := handleExecute_token { s with evq := q, rxbuf := rb, rcvPduLen := n }
  obtain ⟨_, _, _, _, _, _, _, tk, _, _, _, _, e⟩ := handleExecute_frame { s with evq := q, rxbuf := rb, rcvPduLen := n }
  rw [e] at htoken ⊢
  exact {
    tokenTaken := fun hs ht => by simp_all
    tokenReleased := fun _ _ => .inr (.inl hx)
    evq := fun _ => .inr (.inr (.inr (.inr ⟨hx.1, hx.2.imp And.left id⟩))) }

theorem dispatchResponse_controlWriters {i : Instr} {fc : Byte} {data : List Byte} (hi : ResponseRow i fc data) (s : State) :
    ControlWriters i s (dispatchResponse (fc :: data) s) := by
  unfold dispatchResponse
  split
  case isTrue he => exact handleExecute_controlWriters ⟨he, .inr ⟨fc, data, hi⟩⟩ s.evq _ _
  case isFalse => exact .refl i s

/-- The poll step on an event of an enabled dispatcher. -/
theorem handleEvent_controlWriters {s : State} {ev : Event} {rest : List Event} (he : s.protoState = .enabled)
    (hq : s.evq = ev :: rest) : ControlWriters .poll s (handleEvent ev { s with evq := rest }) := by
  have hhead : s.evq.head? = some ev := by rw [hq]; rfl
  have hevq : s.protoState = .enabled ∧ (Instr.poll = .poll ∨ ∃ fc data, ResponseRow .poll fc data) := ⟨he, .inl rfl⟩
  cases ev with
  | ready =>
    rw [handleEvent_ready]
    exact { evq := fun _ => .inr (.inr (.inr (.inr hevq))) }
  | frameReceived =>
    obtain ⟨_, _, _, _, e⟩ := handleFrameReceived_frame { s with evq := rest }
    rw [handleEvent_frameReceived, e]
    exact { evq := fun _ => .inr (.inr (.inr (.inr hevq))) }
  | execute => exact handleExecute_controlWriters ⟨he, .inl ⟨rfl, hhead⟩⟩ rest s.rxbuf s.rcvPduLen
  | frameSent =>
    have hline := handleFrameSent_lineMode { s with evq := rest }
    obtain ⟨_, _, _, _, _, _, _, e⟩ := handleFrameSent_frame { s with evq := rest }
    rw [handleEvent_frameSent, e]
    rw [e] at hline
    exact {
      txState := fun _ => .inr (.inr (.inr (.inr (.inr ⟨rfl, he, hhead⟩))))
      evq := fun _ => .inr (.inr (.inr (.inr hevq)))
      toTransmit := fun _ _ => ⟨rfl, he, hhead⟩
      toReceive := fun hs ht => by simp_all }
  | error =>
    rw [handleEvent_error]
    exact {
      tokenReleased := fun _ _ => .inr (.inr ⟨rfl, he, hhead⟩)
      evq := fun _ => .inr (.inr (.inr (.inr hevq))) }

theorem Effect.controlWriters {i : Instr} {s t : State} (h : Effect s i t) : ControlWriters i s t := by
  cases h with
  | request h slave ok pdu hi => exact requestCommon_controlWriters hi h slave ok pdu s
  | noBuilder => exact markRefused_controlWriters _ s
  | response hi => exact dispatchResponse_controlWriters hi s
  | frame => exact receiveFrame_controlWriters ..
  | init => exact init_controlWriters _ s
  | enable => exact enable_controlWriters s
  | disable => exact disable_controlWriters s
  | setSlaveId => exact setSlaveId_controlWriters ..
  | storeRead => exact returns_controlWriters _ _ s
  | pollIdle => exact .refl _ s
  | pollEvent he hq => exact handleEvent_controlWriters he hq
  | byte => exact byteReceived_controlWriters ..
  | transmitterEmpty => exact transmitterEmpty_controlWriters s
  | expiry => exact portTimerExpiry_controlWriters s

/-- Settles O59: each operation writes only the registers that the statement allows its instruction. -/
theorem controlStateWriters : Obligations.ControlStateWriters := by
  intro i s t h
  have w := (effect_of_exec h).controlWriters
  exact ⟨w.protoState, w.rxState, w.txState, w.timer, w.tokenTaken, w.tokenReleased, w.evq, w.toTransmit, w.toReceive, w.hfn,
    w.running, w.bcast, w.sidBuffer, w.cfg⟩

/-! ### The invariant, component by component

`Inv` reads neither of the two machines, the token, the line mode, the marks, the observations nor the program: an operation that
writes those alone keeps it as it stands. Each rule below is about one component that `Inv` does read. -/

theorem inv_setRxbuf {s : State} {m : Memory} (h : Inv s) (hw : Memory.wf m) (hb : insideBuffer m) :
    Inv { s with rxbuf := m } := by
  obtain ⟨hcfg, ⟨-, htx, hsid, hc, hd, hh, hi, -, btx⟩, hrest⟩ := h
  exact ⟨hcfg, ⟨hw, htx, hsid, hc, hd, hh, hi, hb, btx⟩, hrest⟩

theorem inv_setTxbuf {s : State} {m : Memory} (h : Inv s) (hw : Memory.wf m) (hb : insideBuffer m) :
    Inv { s with txbuf := m } := by
  obtain ⟨hcfg, ⟨hrx, -, hsid, hc, hd, hh, hi, brx, -⟩, hrest⟩ := h
  exact ⟨hcfg, ⟨hrx, hw, hsid, hc, hd, hh, hi, brx, hb⟩, hrest⟩

/-- Bytes written into the receive buffer. -/
theorem inv_writeRx {s : State} (h : Inv s) (i : Nat) (bs : List Byte) :
    Inv { s with rxbuf := Memory.bufWriteBytes s.rxbuf i bs } := by
  obtain ⟨-, ⟨hw, -, -, -, -, -, -, hb, -⟩, -⟩ := id h
  exact inv_setRxbuf h (wf_bufWriteBytes hw i bs) (inside_bufWriteBytes hb i bs)

/-- Bytes written into the send buffer. -/
theorem inv_writeTx {s : State} (h : Inv s) (i : Nat) (bs : List Byte) :
    Inv { s with txbuf := Memory.bufWriteBytes s.txbuf i bs } := by
  obtain ⟨-, ⟨-, hw, -, -, -, -, -, -, hb⟩, -⟩ := id h
  exact inv_setTxbuf h (wf_bufWriteBytes hw i bs) (inside_bufWriteBytes hb i bs)

theorem inv_setRxPos {s : State} {p : Nat} (h : Inv s) (hp : p ≤ bufSize) : Inv { s with rxPos := p } := by
  obtain ⟨hcfg, hmem, ⟨-, hcur, hsnd, hrcv, hsid⟩, hrest⟩ := h
  exact ⟨hcfg, hmem, ⟨hp, hcur, hsnd, hrcv, hsid⟩, hrest⟩

theorem inv_setCursor {s : State} {c r : Nat} (h : Inv s) (hc : c + r ≤ bufSize) : Inv { s with txCur := c, txRem := r } := by
  obtain ⟨hcfg, hmem, ⟨hp, -, hsnd, hrcv, hsid⟩, hrest⟩ := h
  exact ⟨hcfg, hmem, ⟨hp, hc, hsnd, hrcv, hsid⟩, hrest⟩

theorem inv_setSndPduLen {s : State} {n : Half} (h : Inv s) (hn : n.toNat ≤ 252) : Inv { s with sndPduLen := n } := by
  obtain ⟨hcfg, hmem, ⟨hp, hcur, -, hrcv, hsid⟩, hrest⟩ := h
  exact ⟨hcfg, hmem, ⟨hp, hcur, hn, hrcv, hsid⟩, hrest⟩

theorem inv_setRcvPduLen {s : State} {n : Half} (h : Inv s) (hn : n.toNat ≤ pduMax) : Inv { s with rcvPduLen := n } := by
  obtain ⟨hcfg, hmem, ⟨hp, hcur, hsnd, -, hsid⟩, hrest⟩ := h
  exact ⟨hcfg, hmem, ⟨hp, hcur, hsnd, hn, hsid⟩, hrest⟩

theorem inv_setSid {s : State} {m : Memory} {n : Nat} (h : Inv s) (hw : Memory.wf m) (hn : n ≤ s.cfg.repSlaveIdSize) :
    Inv { s with sidBuf := m, sidLen := n } := by
  obtain ⟨hcfg, ⟨hrx, htx, -, hrestm⟩, ⟨hp, hcur, hsnd, hrcv, -⟩, hrest⟩ := h
  exact ⟨hcfg, ⟨hrx, htx, hw, hrestm⟩, ⟨hp, hcur, hsnd, hrcv, hn⟩, hrest⟩

theorem inv_setEvq {s : State} {q : List Event} (h : Inv s) (hq : q.length ≤ s.cfg.evqCap) : Inv { s with evq := q } := by
  obtain ⟨hcfg, hmem, hlen, htab, hlife, -, haddr⟩ := h
  exact ⟨hcfg, hmem, hlen, htab, hlife, hq, haddr⟩

theorem inv_setDestAddr {s : State} {a : Byte} (h : Inv s) (ha : a.toNat ≤ s.cfg.maxSlaves) : Inv { s with destAddr := a } := by
  obtain ⟨hcfg, hmem, hlen, htab, hlife, hq, -⟩ := h
  exact ⟨hcfg, hmem, hlen, htab, hlife, hq, ha⟩

/-- The timer is armed only while callbacks have an effect. -/
theorem inv_armTimer {s : State} (h : Inv s) (hr : s.running = true) (p : TimerPurpose) : Inv { s with timer := .armed p } := by
  obtain ⟨hcfg, hmem, hlen, htab, ⟨hrun, -⟩, hrest⟩ := h
  exact ⟨hcfg, hmem, hlen, htab, ⟨hrun, fun hf => absurd (hr.symm.trans hf) (by decide)⟩, hrest⟩

theorem inv_timerOff {s : State} (h : Inv s) : Inv { s with timer := .off } := by
  obtain ⟨hcfg, hmem, hlen, htab, ⟨hrun, -⟩, hrest⟩ := h
  exact ⟨hcfg, hmem, hlen, htab, ⟨hrun, fun _ => rfl⟩, hrest⟩

/-- The handler table stands, and the protocol state becomes one of the two after `Init`. -/
theorem inv_setLifecycle {s : State} {tb : List HandlerSlot} {p : ProtocolState} {r : Bool} {ti : TimerState} (h : Inv s)
    (htb : tb = buildHandlerTable s.cfg) (hp : p ≠ .notInitialized) (hr : r = true ↔ p = .enabled)
    (hti : r = false → ti = .off) : Inv { s with hfn := tb, protoState := p, running := r, timer := ti } := by
  obtain ⟨hcfg, hmem, hlen, -, -, hrest⟩ := h
  refine ⟨hcfg, hmem, hlen, ?_, ⟨hr, hti⟩, hrest⟩
  show tb = if p = .notInitialized then _ else _
  rw [if_neg hp, htb]

theorem hfn_of_inv {s : State} (h : Inv s) (hp : s.protoState ≠ .notInitialized) : s.hfn = buildHandlerTable s.cfg := by
  obtain ⟨-, -, -, htab, -⟩ := h
  rwa [TableInv, if_neg hp] at htab

theorem running_of_inv {s : State} (h : Inv s) (hp : s.protoState ≠ .enabled) : s.running = false := by
  obtain ⟨-, -, -, -, ⟨hrun, -⟩, -⟩ := h
  exact Bool.eq_false_of_not_eq_true (mt hrun.mp hp)

theorem wf_tableOf {s : State} (h : Inv s) (t : Table) : Memory.wf (tableOf t s) := by
  obtain ⟨-, ⟨-, -, -, hc, hd, hh, hi, -, -⟩, -⟩ := h
  cases t <;> assumption

theorem inv_withTable {s : State} {m : Memory} (h : Inv s) (hm : Memory.wf m) (t : Table) : Inv (withTable t m s) := by
  obtain ⟨hcfg, ⟨hrx, htx, hsid, hc, hd, hh, hi, hb⟩, hrest⟩ := h
  cases t with
  | coils => exact ⟨hcfg, ⟨hrx, htx, hsid, hm, hd, hh, hi, hb⟩, hrest⟩
  | disc => exact ⟨hcfg, ⟨hrx, htx, hsid, hc, hm, hh, hi, hb⟩, hrest⟩
  | hold => exact ⟨hcfg, ⟨hrx, htx, hsid, hc, hd, hm, hi, hb⟩, hrest⟩
  | input => exact ⟨hcfg, ⟨hrx, htx, hsid, hc, hd, hh, hm, hb⟩, hrest⟩

/-! ### The invariant, operation by operation -/

theorem post_inv {s : State} (h : Inv s) (ev : Event) : Inv (post ev s) := by
  obtain ⟨-, -, -, -, -, hq, -⟩ := id h
  have hlen : (post ev s).evq.length ≤ s.cfg.evqCap := by
    rw [post_evq]
    split
    case isTrue hlt => rw [List.length_append]; exact hlt
    case isFalse => exact hq
  exact inv_setEvq h hlen

theorem errorEntry_inv {s : State} (h : Inv s) (v : ErrorEvent) : Inv (errorEntry v s) :=
  post_inv (s := { s with errEvent := some v }) h .error

theorem submit_inv {s : State} (h : Inv s) {slave : Byte} (hs : slave.toNat ≤ s.cfg.maxSlaves) {pdu : List Byte}
    (hp : pdu.length ≤ 252) : Inv (submit slave pdu s) := by
  have ht : Inv (fillSendBuffer pdu (setAddress slave (tokenTake s))) :=
    inv_writeTx (s := setAddress slave (tokenTake s)) (inv_setDestAddr h hs) 1 pdu
  exact post_inv (inv_setSndPduLen ht (by simp; omega)) .frameSent

theorem requestCommon_inv {s : State} (h : Inv s) (hid : HandlerId) (slave : Byte) {ok : Bool} {pdu : List Byte}
    (hlen : ok = true → pdu.length ≤ 252) : Inv (requestCommon hid slave ok pdu s) := by
  unfold requestCommon
  split
  · exact h
  split
  · exact h
  case isFalse hslave =>
    split
    · exact h
    case isFalse hok =>
      split
      · exact h
      · exact submit_inv h (Nat.le_of_not_lt hslave) (hlen (not_not.mp hok))

/-! #### The framing layer -/

theorem byteReceived_inv {s : State} (h : Inv s) (b : Byte) : Inv (byteReceived b s) := by
  cases hr : s.running with
  | false => rw [byteReceived_stopped hr]; exact h
  | true =>
    cases hx : s.rxState with
    | init => rw [byteReceived_discard hr (.inl hx)]; exact inv_armTimer h hr .t35
    | error => rw [byteReceived_discard hr (.inr hx)]; exact inv_armTimer h hr .t35
    | idle =>
      rw [byteReceived_idle hr hx]
      exact inv_armTimer (inv_setRxPos (inv_writeRx h 0 [b]) (by decide)) hr .t35
    | receiving =>
      by_cases hp : s.rxPos < bufSize
      · rw [byteReceived_receiving hr hx hp]
        exact inv_armTimer (inv_setRxPos (inv_writeRx h s.rxPos [b]) hp) hr .t35
      · rw [byteReceived_overflow hr hx (Nat.le_of_not_lt hp)]
        exact inv_armTimer h hr .t35

theorem timerExpiredRx_inv {s : State} (h : Inv s) : Inv (timerExpiredRx s) := by
  unfold timerExpiredRx
  split
  · exact post_inv h .ready
  · exact post_inv h .frameReceived
  · exact errorEntry_inv h .receiveDataError
  · exact h

theorem timerExpiredTx_inv {s : State} (h : Inv s) : Inv (timerExpiredTx s) := by
  unfold timerExpiredTx
  split
  · split
    · exact post_inv h .execute
    · exact errorEntry_inv h .respondTimeout
  · exact h
  · exact h

theorem portTimerExpiry_inv {s : State} (h : Inv s) : Inv (portTimerExpiry s) := by
  unfold portTimerExpiry
  split
  · unfold timerExpired
    split
    · exact timerExpiredTx_inv (timerExpiredRx_inv (inv_timerOff h))
    · exact inv_timerOff h
  · exact h

theorem receiveFrame_inv {s : State} (h : Inv s) (bs : List Byte) : Inv (receiveFrame bs s) :=
  portTimerExpiry_inv (List.foldlRecOn bs _ h fun _ ht b _ => byteReceived_inv ht b)

theorem txNextByte_inv {s : State} (h : Inv s) (h0 : s.txRem ≠ 0) : Inv (txNextByte s) := by
  obtain ⟨-, -, ⟨-, hcur, -⟩, -⟩ := id h
  have hcur' : s.txCur + 1 + (s.txRem - 1) ≤ bufSize := by omega
  exact inv_setCursor (s := putByte (txByte s s.txCur) s) h hcur'

theorem transmitterEmpty_inv {s : State} (h : Inv s) : Inv (transmitterEmpty s) := by
  rcases transmitterEmpty_cases s with e | ⟨hr, -, ⟨h0, e⟩ | ⟨-, e⟩⟩ <;> rw [e]
  · exact h
  · exact txNextByte_inv h h0
  · exact inv_armTimer h hr _

theorem sendFrame_inv {s : State} (h : Inv s) (a : Byte) {len : Nat} (hl : len ≤ pduMax) : Inv (sendFrame a len s) := by
  have ha : Inv (putAddress a s) := inv_writeTx h 0 [a]
  have hlen : 0 + (len + 3) ≤ bufSize := by
    rw [Nat.zero_add]; exact Nat.add_le_add_right hl 3
  exact inv_setCursor (inv_writeTx ha (1 + len) (crcTail (txSlice (putAddress a s) 0 (1 + len)))) hlen

/-! #### The handlers -/

theorem storeWrite_inv {s : State} (h : Inv s) (t : Table) (slave : Byte) (a : Half) (n : Nat) (bs : List Byte) :
    Inv (storeWrite t slave a n bs s).1 := by
  rcases storeWrite_cases t slave a n bs s with ⟨_, e, -⟩ | ⟨i, -, e⟩ <;> rw [e]
  · exact h
  · exact inv_withTable h (wf_tableWrite (wf_tableOf h t) t _ i n bs) t

theorem runHandler_inv {s : State} (h : Inv s) (hid : HandlerId) (v : View) (L : Nat) : Inv (runHandler hid v L s).state := by
  by_cases hr : hid = .rsid
  · subst hr
    cases v with
    | tx => exact inv_writeTx h _ _
    | rx => exact inv_writeRx h _ _
  · exact runHandler_of_storeWrite (P := Machine.Inv) (fun t slave a n bs _ hs => storeWrite_inv hs t slave a n bs) hr v L h

/-- The fan-out sets the address register to configured slaves alone. -/
theorem fanOut_inv {s : State} (h : Inv s) (hid : HandlerId) (v : View) (L : Nat) : Inv (fanOut hid v L s).1 := by
  have hmax : s.cfg.maxSlaves ≤ 247 := h.1.2.1
  suffices hacc : Inv (fanOut hid v L s).1 ∧ (fanOut hid v L s).1.cfg = s.cfg from hacc.1
  unfold fanOut
  refine List.foldlRecOn (motive := fun acc : State × Exc => Inv acc.1 ∧ acc.1.cfg = s.cfg) _ _ ⟨h, rfl⟩ fun acc hacc j hj => ?_
  obtain ⟨hinv, hcfg⟩ := hacc
  have hj' : j ≤ s.cfg.maxSlaves := by have := List.mem_range'_1.mp hj; omega
  have haddr : (BitVec.ofNat 8 j).toNat ≤ acc.1.cfg.maxSlaves := by rw [hcfg]; simp; omega
  exact ⟨runHandler_inv (inv_setDestAddr hinv haddr) hid v L, (runHandler_cfg ..).trans hcfg⟩

theorem applyHandler_inv {s : State} (h : Inv s) (hid : HandlerId) (v : View) (L : Nat) : Inv (applyHandler hid v L s).1 := by
  rcases Bool.eq_false_or_eq_true s.bcast with hb | hb
  · rw [applyHandler_broadcast hb]; exact fanOut_inv h hid v L
  · rw [applyHandler_unicast hb]; exact runHandler_inv h hid v L

/-! #### The dispatcher -/

theorem concludeExecute_inv {r : State × Exc} (h : Inv r.1) : Inv (concludeExecute r) := by
  unfold concludeExecute
  split
  · exact h
  · exact errorEntry_inv h .executeFunctionError

theorem executePdu_inv {s : State} (h : Inv s) (v : View) (L : Nat) : Inv (executePdu v L s) := by
  unfold executePdu
  dsimp only
  split
  · exact errorEntry_inv h .executeFunctionError
  split
  · exact concludeExecute_inv h
  · exact concludeExecute_inv (applyHandler_inv h _ v L)

theorem handleExecute_inv {s : State} (h : Inv s) : Inv (handleExecute s) := by
  rcases Bool.eq_false_or_eq_true s.bcast with hb | hb
  · rw [handleExecute_broadcast hb]; exact executePdu_inv h _ _
  · rw [handleExecute_unicast hb]; exact executePdu_inv h _ _

theorem dispatchResponse_inv {s : State} (h : Inv s) {pdu : List Byte} (hl : pdu.length ≤ pduMax) :
    Inv (dispatchResponse pdu s) := by
  unfold dispatchResponse
  split
  · exact handleExecute_inv (inv_setRcvPduLen (inv_writeRx h 1 pdu) ((acceptResponse_len s hl).le.trans hl))
  · exact h

theorem handleFrameReceived_inv {s : State} (h : Inv s) : Inv (handleFrameReceived s) := by
  obtain ⟨-, -, ⟨hpos, -⟩, -⟩ := id h
  rcases handleFrameReceived_cases s with e | e <;> rw [e]
  · have hlen : (BitVec.ofNat 16 (s.rxPos - 3)).toNat ≤ pduMax :=
      (Nat.mod_le _ _).trans (Nat.sub_le_sub_right hpos 3)
    exact post_inv (inv_setRcvPduLen h hlen) .execute
  · exact errorEntry_inv h .receiveDataError

theorem handleFrameSent_inv {s : State} (h : Inv s) : Inv (handleFrameSent s) := by
  rcases handleFrameSent_cases s with e | e | ⟨hl, e⟩ <;> rw [e]
  · exact h
  · exact h
  · exact sendFrame_inv h _ hl

theorem handleEvent_inv {s : State} (h : Inv s) (ev : Event) : Inv (handleEvent ev s) := by
  cases ev with
  | ready => exact h
  | frameReceived => exact handleFrameReceived_inv h
  | execute => exact handleExecute_inv h
  | frameSent => exact handleFrameSent_inv h
  | error => exact h

/-! #### The lifecycle calls -/

theorem initPort_inv {s : State} (h : Inv s) (hp : s.protoState = .notInitialized) : Inv (initPort s) := by
  have hstop : Inv { s with running := false, timer := .off } := by
    have hr : s.running = false := running_of_inv h (by rw [hp]; decide)
    rw [← hr]
    exact inv_timerOff h
  have htimer : Inv (timerInit s) := inv_timerOff h
  have hq : Inv (evqInit (rtuInitValues (timerInit s))) := inv_setEvq (q := []) hstop (Nat.zero_le _)
  unfold initPort
  split
  · exact h
  split
  · exact htimer
  split
  · exact hq
  · have hbuilt := inv_setLifecycle (p := .disabled) (r := false) (ti := .off) hq rfl (by decide) (by decide) (fun _ => rfl)
    exact hbuilt

theorem init_inv {s : State} (h : Inv s) (arg : InitArg) : Inv (init arg s) := by
  unfold init
  split
  · exact h
  case isFalse hp =>
    split
    · exact h
    · exact initPort_inv h (not_not.mp hp)
    · exact h
    · exact h

theorem enable_inv {s : State} (h : Inv s) : Inv (enable s) := by
  unfold enable
  split
  case isTrue hp =>
    have hn : s.protoState ≠ .notInitialized := by rw [hp]; decide
    have hstarted := inv_setLifecycle (p := .enabled) (r := true) (ti := .armed .t35) h (hfn_of_inv h hn) (by decide) (by decide)
      (by decide)
    exact hstarted
  case isFalse => exact h

theorem disable_inv {s : State} (h : Inv s) : Inv (disable s) := by
  unfold disable
  split
  · exact h
  case h_2 hp =>
    have hn : s.protoState ≠ .notInitialized := by rw [hp]; decide
    have hstopped := inv_setLifecycle (p := .disabled) (r := false) (ti := .off) h (hfn_of_inv h hn) (by decide) (by decide)
      (fun _ => rfl)
    exact hstopped
  · exact h

theorem setSlaveId_inv {s : State} (h : Inv s) (slaveId : Byte) (running : Bool) (extra : List Byte) :
    Inv (setSlaveId slaveId running extra s) := by
  obtain ⟨-, ⟨-, -, hsid, -⟩, -⟩ := id h
  unfold setSlaveId
  split
  · exact h
  case isFalse hlen =>
    have hset := inv_setSid h (wf_writeBytes hsid 0 (slaveId :: runningByte running :: extra)) (Nat.le_of_not_lt hlen)
    exact hset

/-! #### Every step -/

/-- Every well-formed instruction keeps the invariant. -/
theorem effect_inv {i : Instr} {s t : State} (h : Inv s) (hw : i.wellFormed = true) (he : Effect s i t) : Inv t := by
  cases he with
  | request hid slave ok pdu _ hlen => exact requestCommon_inv h hid slave hlen
  | noBuilder => exact h
  | response hi => exact dispatchResponse_inv h (responseRow_length_le hi hw)
  | frame => exact receiveFrame_inv h _
  | init arg => exact init_inv h arg
  | enable => exact enable_inv h
  | disable => exact disable_inv h
  | setSlaveId => exact setSlaveId_inv h ..
  | storeRead => exact h
  | pollIdle => exact h
  | pollEvent _ hq =>
    obtain ⟨-, -, -, -, -, hcap, -⟩ := id h
    rw [hq, List.length_cons] at hcap
    exact handleEvent_inv (inv_setEvq h (Nat.le_of_succ_le hcap)) _
  | byte b => exact byteReceived_inv h b
  | transmitterEmpty => exact transmitterEmpty_inv h
  | expiry => exact portTimerExpiry_inv h

/-- Settles O54: the step runs a well-formed instruction, and each operation keeps the invariant. -/
theorem stepKeepsInvariant : Obligations.StepKeepsInvariant := by
  intro s t h hstep
  unfold step at hstep
  split at hstep
  · cases hstep; exact h
  split at hstep
  case h_1 i rest hd =>
    exact effect_inv (s := { s with program := rest }) h (decode_wellFormed hd) (effect_of_exec hstep)
  case h_2 => cases hstep

end Sys2Proof.Proofs
end

section
/-! SUPPORT. Proofs about memory and the register store: a canonical memory is determined by its reads, and only an Execute step
changes the store. -/

namespace Sys2Proof.Proofs

open Sys2Proof.Machine Sys2Proof.Claims Sys2Proof.Laws

/-! ### Canonical memories -/

/-- The first listed address of a canonical memory does not read as an unlisted one. -/
theorem read_head_ne_unlisted {m : Memory} {k : Nat} {b : Byte} (h : Memory.wf ((k, b) :: m)) :
    Memory.read ((k, b) :: m) k ≠ unlistedByte := by
  rw [Memory.read, if_pos rfl]
  exact h.2 (k, b) List.mem_cons_self

theorem read_before_head {m : Memory} {k a : Nat} {b : Byte} (h : Memory.wf ((k, b) :: m)) (ha : a < k) :
    Memory.read ((k, b) :: m) a = unlistedByte := by
  rw [Memory.read, if_neg ha.ne', read_below h a ha.le]

/-- A canonical memory whose reads agree with another's lists no address before the other's first. -/
theorem head_le_of_read_eq {m m' : Memory} {k k' : Nat} {b b' : Byte} (hm : Memory.wf ((k, b) :: m))
    (hm' : Memory.wf ((k', b') :: m')) (h : ∀ a, Memory.read ((k, b) :: m) a = Memory.read ((k', b') :: m') a) : k' ≤ k :=
  Nat.le_of_not_lt fun hlt => read_head_ne_unlisted hm ((h k).trans (read_before_head hm' hlt))

/-- Canonical memories with one first address whose reads agree have tails whose reads agree. -/
theorem read_tail_eq {m m' : Memory} {k : Nat} {b b' : Byte} (hm : Memory.wf ((k, b) :: m))
    (hm' : Memory.wf ((k, b') :: m')) (h : ∀ a, Memory.read ((k, b) :: m) a = Memory.read ((k, b') :: m') a) (a : Nat) :
    Memory.read m a = Memory.read m' a := by
  rcases Nat.lt_or_ge k a with ha | ha
  · simpa only [Memory.read, if_neg ha.ne] using h a
  · rw [read_below hm a ha, read_below hm' a ha]

/-- Canonical memories are equal when their reads are. -/
theorem memory_ext {m m' : Memory} (hm : Memory.wf m) (hm' : Memory.wf m') (h : ∀ a, Memory.read m a = Memory.read m' a) :
    m = m' := by
  induction m generalizing m' with
  | nil =>
    cases m' with
    | nil => rfl
    | cons c' m' => exact absurd (h c'.1).symm (read_head_ne_unlisted hm')
  | cons c m ih =>
    cases m' with
    | nil => exact absurd (h c.1) (read_head_ne_unlisted hm)
    | cons c' m' =>
      obtain ⟨k, b⟩ := c
      obtain ⟨k', b'⟩ := c'
      obtain rfl : k = k' := le_antisymm (head_le_of_read_eq hm' hm fun a => (h a).symm) (head_le_of_read_eq hm hm' h)
      have hb : b = b' := by simpa [Memory.read] using h k
      have ht : m = m' := ih (wf_tail hm) (wf_tail hm') (read_tail_eq hm hm' h)
      rw [hb, ht]

/-- Settles O11: the laws of a write, and extensionality of canonical memories by induction on the list. -/
theorem canonicalMemoryIsItsReads : Obligations.CanonicalMemoryIsItsReads :=
  ⟨fun m a v h => ⟨wf_write h a v, fun b => read_write m a b v⟩, fun _ _ => memory_ext⟩

/-! ### What leaves the store alone

An operation whose frame lemma lists no table leaves the store alone. -/

theorem requestCommon_store (h : HandlerId) (slave : Byte) (ok : Bool) (pdu : List Byte) (s : State) :
    store (requestCommon h slave ok pdu s) = store s := by
  obtain ⟨_, _, _, _, _, _, _, _, e⟩ := requestCommon_frame h slave ok pdu s
  rw [e]; rfl

theorem receiveFrame_store (bs : List Byte) (s : State) : store (receiveFrame bs s) = store s := by
  obtain ⟨_, _, _, _, _, _, _, _, e⟩ := receiveFrame_frame bs s
  rw [e]; rfl

theorem byteReceived_store (b : Byte) (s : State) : store (byteReceived b s) = store s := by
  obtain ⟨_, _, _, _, _, e⟩ := byteReceived_frame b s
  rw [e]; rfl

theorem portTimerExpiry_store (s : State) : store (portTimerExpiry s) = store s := by
  obtain ⟨_, _, _, _, _, _, e⟩ := portTimerExpiry_frame s
  rw [e]; rfl

theorem transmitterEmpty_store (s : State) : store (transmitterEmpty s) = store s := by
  rcases transmitterEmpty_cases s with h | ⟨-, -, ⟨-, h⟩ | ⟨-, h⟩⟩ <;> rw [h] <;> rfl

theorem init_store (arg : InitArg) (s : State) : store (init arg s) = store s := by
  unfold init
  split
  · rfl
  split
  · rfl
  · obtain ⟨_, _, _, _, _, _, _, _, _, _, -, -, e⟩ := initPort_frame s
    rw [e]; rfl
  · rfl
  · rfl

theorem enable_store (s : State) : store (enable s) = store s := by
  unfold enable
  split <;> rfl

theorem disable_store (s : State) : store (disable s) = store s := by
  unfold disable
  split <;> rfl

theorem setSlaveId_store (id : Byte) (running : Bool) (extra : List Byte) (s : State) :
    store (setSlaveId id running extra s) = store s := by
  unfold setSlaveId
  split <;> rfl

/-- Only the `Execute` event leads a poll step to the store. -/
theorem handleEvent_store {ev : Event} (hev : ev ≠ .execute) (s : State) : store (handleEvent ev s) = store s := by
  cases ev with
  | ready => rfl
  | frameReceived =>
    obtain ⟨_, _, _, _, e⟩ := handleFrameReceived_frame s
    rw [handleEvent_frameReceived, e]; rfl
  | execute => exact absurd rfl hev
  | frameSent =>
    obtain ⟨_, _, _, _, _, _, _, e⟩ := handleFrameSent_frame s
    rw [handleEvent_frameSent, e]; rfl
  | error => rfl

/-! ### Who changes the store (R78, R370) -/

theorem dispatchResponse_store_or_execute {i : Instr} {fc : Byte} {data : List Byte} (hi : ResponseRow i fc data) (s : State) :
    store (dispatchResponse (fc :: data) s) = store s ∨ IsExecute i s := by
  by_cases he : s.protoState = .enabled
  · exact .inr ⟨he, .inr ⟨fc, data, hi⟩⟩
  · rw [dispatchResponse, if_neg he]; exact .inl rfl

theorem handleEvent_store_or_execute {s : State} {ev : Event} {rest : List Event} (he : s.protoState = .enabled)
    (hq : s.evq = ev :: rest) : store (handleEvent ev { s with evq := rest }) = store s ∨ IsExecute .poll s := by
  by_cases hev : ev = .execute
  · exact .inr ⟨he, .inl ⟨rfl, by rw [hq, hev]; rfl⟩⟩
  · exact .inl (handleEvent_store hev _)

theorem Effect.store_or_execute {i : Instr} {s t : State} (h : Effect s i t) : store t = store s ∨ IsExecute i s := by
  cases h with
  | response hi => exact dispatchResponse_store_or_execute hi s
  | pollEvent he hq => exact handleEvent_store_or_execute he hq
  | request => exact .inl (requestCommon_store ..)
  | noBuilder => exact .inl rfl
  | frame => exact .inl (receiveFrame_store ..)
  | init => exact .inl (init_store ..)
  | enable => exact .inl (enable_store s)
  | disable => exact .inl (disable_store s)
  | setSlaveId => exact .inl (setSlaveId_store ..)
  | storeRead => exact .inl rfl
  | pollIdle => exact .inl rfl
  | byte => exact .inl (byteReceived_store ..)
  | transmitterEmpty => exact .inl (transmitterEmpty_store s)
  | expiry => exact .inl (portTimerExpiry_store s)

/-- Settles O58: every operation but the two ways into an Execute step leaves the store alone. -/
theorem onlyExecuteChangesTheStore : Obligations.OnlyExecuteChangesTheStore :=
  fun _ _ _ h hstore => (effect_of_exec h).store_or_execute.resolve_left hstore

end Sys2Proof.Proofs
end

section
/-! SUPPORT. Proofs about the encodings (spec/30_encoding.md R90 to R105): the request decoder code by code and the program decoder
kind by kind, their two round trips with the encoder, and the row that a response's function code selects. -/

namespace Sys2Proof.Proofs

open Sys2Proof.Machine Sys2Proof.Claims Sys2Proof.Laws

/-! ### Request PDUs (R95) -/

/-- How the bytes after a request's function code are read. -/
def requestBody : HandlerId → List Byte → Except DecodeError Instr
  | .rc, body => twoFields body (fun a n => .ok (.reqRc a n))
  | .rdi, body => twoFields body (fun a n => .ok (.reqRdi a n))
  | .rhr, body => twoFields body (fun a n => .ok (.reqRhr a n))
  | .rir, body => twoFields body (fun a n => .ok (.reqRir a n))
  | .wsc, body => twoFields body (fun a v => .ok (.reqWsc a v))
  | .wsr, body => twoFields body (fun a v => .ok (.reqWsr a v))
  | .wmc, body => fieldsThenBytes body (fun a n bytes => .ok (.reqWmc a n bytes))
  | .wmr, body => fieldsThenBytes body (fun a n bytes => .ok (.reqWmr a n bytes))
  | .rsid, body => rsidRequest body
  | .rwmr, body => readWriteFields body (fun ra rn wa wn bytes => .ok (.reqRwmr ra rn wa wn bytes))

theorem decodeRequestPdu_codeOf (h : HandlerId) {body : List Byte} (hlen : body.length + 1 ≤ pduMax) :
    decodeRequestPdu (codeOf h :: body) = requestBody h body := by
  rw [decodeRequestPdu, if_neg (Nat.not_lt.mpr hlen)]
  cases h <;> rfl

/-- What is read as a request is one of the ten codes and a body read by its layout, together short enough for a frame (R90). -/
theorem decodeRequestPdu_ok {pdu : List Byte} {i : Instr} (h : decodeRequestPdu pdu = .ok i) :
    pdu.length ≤ pduMax ∧ ∃ hid body, pdu = codeOf hid :: body ∧ requestBody hid body = .ok i := by
  cases pdu with
  | nil => cases h
  | cons fc body =>
    have hlen : body.length + 1 ≤ pduMax := by
      rw [decodeRequestPdu] at h
      obtain ⟨-, h⟩ | ⟨hlen, -⟩ := ite_eq_iff.mp h
      · cases h
      · exact Nat.le_of_not_lt hlen
    by_cases hk : ∃ hid, codeOf hid = fc
    · obtain ⟨hid, rfl⟩ := hk
      exact ⟨hlen, hid, body, rfl, (decodeRequestPdu_codeOf hid hlen).symm.trans h⟩
    · have hne : ∀ hid, fc ≠ codeOf hid := fun hid e => hk ⟨hid, e.symm⟩
      simp only [decodeRequestPdu, hne, if_false, if_neg (Nat.not_lt.mpr hlen)] at h
      cases h

/-- A request PDU in a program is read by the request decoder. -/
theorem decode_requestItem {pdu : List Byte} {i : Instr} (rest : List Byte) (h : decodeRequestPdu pdu = .ok i) :
    decode (pduItem kindRequest pdu ++ rest) = .ok (i, rest) :=
  withPdu_append pdu rest _ i ((decodeRequestPdu_ok h).1.trans (by decide)) h

theorem decode_twoFieldsItem {h : HandlerId} {a b : Half} {i : Instr} (rest : List Byte)
    (hb : requestBody h [hi8 a, lo8 a, hi8 b, lo8 b] = .ok i) :
    decode (pduItem kindRequest (pduTwoFields h a b) ++ rest) = .ok (i, rest) :=
  decode_requestItem rest ((decodeRequestPdu_codeOf h (by simp [pduMax])).trans hb)

theorem decode_bytesItem {h : HandlerId} {a n : Half} {bytes : List Byte} {i : Instr} (rest : List Byte)
    (hlen : reqBytesOk 5 bytes = true) (hb : requestBody h ([hi8 a, lo8 a, hi8 n, lo8 n] ++ bytes) = .ok i) :
    decode (pduItem kindRequest (pduWithBytes h a n bytes) ++ rest) = .ok (i, rest) :=
  decode_requestItem rest ((decodeRequestPdu_codeOf h
    (by have : 5 + bytes.length ≤ 253 := of_decide_eq_true hlen
        simp [pduMax]; omega)).trans hb)

theorem decode_readWriteItem {ra rn wa wn : Half} {bytes : List Byte} (rest : List Byte) (hlen : reqBytesOk 9 bytes = true) :
    decode (pduItem kindRequest (pduReadWriteBytes ra rn wa wn bytes) ++ rest) = .ok (.reqRwmr ra rn wa wn bytes, rest) :=
  decode_requestItem rest ((decodeRequestPdu_codeOf .rwmr
    (by have : 9 + bytes.length ≤ 253 := of_decide_eq_true hlen
        simp [pduMax]; omega)).trans (by simp [requestBody, readWriteFields]))

/-- What is read as a request is encoded as it was read. -/
theorem encode_requestBody {h : HandlerId} {body : List Byte} {i : Instr} (hb : requestBody h body = .ok i) :
    encode i = pduItem kindRequest (codeOf h :: body) := by
  cases h with
  | wmc =>
    rw [requestBody] at hb
    obtain ⟨_, _, _, rfl, hi⟩ := fieldsThenBytes_ok hb; cases hi; rfl
  | wmr =>
    rw [requestBody] at hb
    obtain ⟨_, _, _, rfl, hi⟩ := fieldsThenBytes_ok hb; cases hi; rfl
  | rsid =>
    cases body with
    | nil => cases hb; rfl
    | cons _ _ => cases hb
  | rwmr =>
    rw [requestBody] at hb
    obtain ⟨_, _, _, _, _, rfl, hi⟩ := readWriteFields_ok hb; cases hi; rfl
  | _ =>
    rw [requestBody] at hb
    obtain ⟨_, _, rfl, hi⟩ := twoFields_ok hb; cases hi; rfl

/-! ### Response PDUs (R93, R97, R103) -/

/-- The row of each of the ten codes. -/
def rowOf : HandlerId → List Byte → Instr
  | .rc => .rspRc
  | .rdi => .rspRdi
  | .rhr => .rspRhr
  | .rir => .rspRir
  | .wsc => .rspWsc
  | .wsr => .rspWsr
  | .wmc => .rspWmc
  | .wmr => .rspWmr
  | .rsid => .rspRsid
  | .rwmr => .rspRwmr

theorem responseOf_codeOf (h : HandlerId) (data : List Byte) : responseOf (codeOf h) data = rowOf h data := by
  cases h <;> rfl

theorem responseOf_exception {fc : Byte} (data : List Byte) (h7 : fc.getLsbD 7 = true) :
    responseOf fc data = .rspException fc data := if_pos h7

theorem responseOf_unknown {fc : Byte} (data : List Byte) (h7 : fc.getLsbD 7 = false) (hk : ∀ h, codeOf h ≠ fc) :
    responseOf fc data = .rspUnknown fc data := by
  have hne : ∀ h, fc ≠ codeOf h := fun h e => hk h e.symm
  simp only [responseOf, h7, hne, if_false, Bool.false_eq_true]

/-- A function code is an exception's, one of the ten, or neither; the three together select every row. -/
theorem responseOf_cases (fc : Byte) (data : List Byte) :
    (fc.getLsbD 7 = true ∧ responseOf fc data = .rspException fc data) ∨
    (∃ h, fc = codeOf h ∧ responseOf fc data = rowOf h data) ∨
    responseOf fc data = .rspUnknown fc data := by
  by_cases hk : ∃ h, codeOf h = fc
  · obtain ⟨h, rfl⟩ := hk
    exact .inr (.inl ⟨h, rfl, responseOf_codeOf h data⟩)
  · cases h7 : fc.getLsbD 7 with
    | true => exact .inl ⟨rfl, responseOf_exception data h7⟩
    | false => exact .inr (.inr (responseOf_unknown data h7 (not_exists.mp hk)))

theorem encode_rowOf (h : HandlerId) (data : List Byte) : encode (rowOf h data) = pduItem kindResponse (codeOf h :: data) := by
  cases h <;> rfl

theorem encode_responseOf (fc : Byte) (data : List Byte) : encode (responseOf fc data) = pduItem kindResponse (fc :: data) := by
  obtain ⟨-, e⟩ | ⟨h, rfl, e⟩ | e := responseOf_cases fc data <;> rw [e]
  · rfl
  · exact encode_rowOf h data
  · rfl

/-- A response in a program is read as the row that its function code selects. -/
theorem decode_responseItem (fc : Byte) {data : List Byte} (rest : List Byte) (h : rspDataOk data = true) :
    decode (pduItem kindResponse (fc :: data) ++ rest) = .ok (responseOf fc data, rest) :=
  withPdu_append (fc :: data) rest _ _ ((of_decide_eq_true h).trans (by decide)) (if_pos h)

theorem decode_rowItem (h : HandlerId) {data : List Byte} (rest : List Byte) (hd : rspDataOk data = true) :
    decode (pduItem kindResponse (codeOf h :: data) ++ rest) = .ok (rowOf h data, rest) := by
  rw [decode_responseItem _ _ hd, responseOf_codeOf]

theorem encode_of_decodeResponsePdu {pdu : List Byte} {i : Instr} (h : decodeResponsePdu pdu = .ok i) :
    encode i = pduItem kindResponse pdu := by
  cases pdu with
  | nil => cases h
  | cons fc data =>
    rw [decodeResponsePdu] at h
    obtain ⟨-, h⟩ | ⟨-, h⟩ := ite_eq_iff.mp h
    · cases h; exact encode_responseOf fc data
    · cases h

/-! ### Frames (R90) -/

theorem decode_encode_frame {a lo hi : Byte} {pdu : List Byte} (rest : List Byte) (h1 : 1 ≤ pdu.length)
    (h2 : pdu.length ≤ pduMax) : decode (encode (.frame a pdu lo hi) ++ rest) = .ok (.frame a pdu lo hi, rest) := by
  have hn : (BitVec.ofNat 8 pdu.length).toNat + 3 = (a :: (pdu ++ [lo, hi])).length := by
    have : pdu.length ≤ 253 := h2
    simp; omega
  have hitem : encode (.frame a pdu lo hi) ++ rest =
      kindFrame :: BitVec.ofNat 8 pdu.length :: (a :: (pdu ++ [lo, hi]) ++ rest) := by simp [encode]
  rw [hitem]
  show withDecoded ((BitVec.ofNat 8 pdu.length).toNat + 3) _ decodeFrame = _
  rw [hn]
  exact withDecoded_append _ rest _ _ (decodeFrame_append a pdu lo hi h1 h2)

theorem encode_of_decodeFrame {n : Byte} {item : List Byte} {i : Instr} (hlen : item.length = n.toNat + 3)
    (h : decodeFrame item = .ok i) : encode i = kindFrame :: n :: item := by
  obtain ⟨a, pdu, lo, hi, rfl, -, -, rfl⟩ := decodeFrame_ok h
  have hn : pdu.length = n.toNat := by simpa using hlen
  simp [encode, hn]

/-! ### The steps of a program (log 1) -/

/-- How the bytes after a builder's slave and first two fields are read; there is no builder of 0x11. -/
def builderTail : HandlerId → Byte → Half → Half → List Byte → Decoded
  | .rc, s, a, n, r => .ok (.appRequestReadCoils s a n, r)
  | .rdi, s, a, n, r => .ok (.appRequestReadDiscreteInputs s a n, r)
  | .rhr, s, a, n, r => .ok (.appRequestReadHoldingRegister s a n, r)
  | .rir, s, a, n, r => .ok (.appRequestReadInputRegister s a n, r)
  | .wsc, s, a, v, r => .ok (.appRequestWriteSingleCoil s a v, r)
  | .wsr, s, a, v, r => .ok (.appRequestWriteHoldingRegister s a v, r)
  | .wmc, s, a, n, r => withSeq r (fun bits r => .ok (.appRequestWriteMultipleCoils s a n bits, r))
  | .wmr, s, a, n, r => withWords r (fun values r => .ok (.appRequestWriteMultipleHoldingRegister s a n values, r))
  | .rsid, _, _, _, _ => .error .unknownKind
  | .rwmr, s, ra, rn, r => withHalf r (fun wa r => withHalf r (fun wn r => withWords r (fun values r =>
      .ok (.appRequestReadWriteMultipleHoldingRegister s ra rn wa wn values, r))))

theorem decode_kindBuilder {h : HandlerId} (hr : h ≠ .rsid) (r : List Byte) :
    decode (kindBuilder h :: r) = withSlaveTwo r (builderTail h) := by
  cases h with
  | rsid => exact absurd rfl hr
  | _ => rfl

theorem decode_builderItem {h : HandlerId} (hr : h ≠ .rsid) (slave : Byte) (a b : Half) (r : List Byte) :
    decode (builderItem h slave a b ++ r) = builderTail h slave a b r :=
  (decode_kindBuilder hr _).trans (withSlaveTwo_append slave a b r _)

/-- What is read as a builder call is encoded as it was read. -/
theorem encode_builderTail {h : HandlerId} {slave : Byte} {a b : Half} {r rest : List Byte} {i : Instr}
    (hb : builderTail h slave a b r = .ok (i, rest)) : encode i ++ rest = builderItem h slave a b ++ r := by
  cases h with
  | wmc =>
    rw [builderTail] at hb
    obtain ⟨bits, _, rfl, -, hi⟩ := withSeq_ok hb
    cases hi; exact List.append_assoc ..
  | wmr =>
    rw [builderTail] at hb
    obtain ⟨values, _, rfl, -, hi⟩ := withWords_ok hb
    cases hi; exact List.append_assoc ..
  | rsid => cases hb
  | rwmr =>
    rw [builderTail] at hb
    obtain ⟨wa, _, rfl, h1⟩ := withHalf_ok hb
    obtain ⟨wn, _, rfl, h2⟩ := withHalf_ok h1
    obtain ⟨values, _, rfl, -, hi⟩ := withWords_ok h2
    cases hi; simp only [encode, List.append_assoc]
  | _ => cases hb; rfl

theorem encode_of_withSlaveTwo {h : HandlerId} {r rest : List Byte} {i : Instr}
    (hd : withSlaveTwo r (builderTail h) = .ok (i, rest)) : encode i ++ rest = kindBuilder h :: r := by
  obtain ⟨slave, a, b, r, rfl, hb⟩ := withSlaveTwo_ok hd
  exact encode_builderTail hb

theorem decode_kindSetSlaveId (r : List Byte) :
    decode (kindSetSlaveId :: r) = withByte r (fun id r => withByte r (fun f r => withNamed (flagOfByte f) (fun running =>
      withSeq r (fun extra r => .ok (.appSetSlaveId id running extra, r))))) := rfl

theorem decode_kindStoreRead (r : List Byte) :
    decode (kindStoreRead :: r) = withByte r (fun t r => withNamed (tableOfByte t) (fun table => withByte r (fun s r =>
      withHalf r (fun a r => withHalf r (fun nh r => withHalf r (fun nl r =>
        .ok (.appStoreRead table s a (nh.toNat * 65536 + nl.toNat), r))))))) := rfl

theorem decode_encode_setSlaveId (id : Byte) (running : Bool) {extra : List Byte} (rest : List Byte)
    (h : extra.length < 65536) :
    decode (encode (.appSetSlaveId id running extra) ++ rest) = .ok (.appSetSlaveId id running extra, rest) := by
  simp only [encode, List.cons_append, List.nil_append, decode_kindSetSlaveId, withByte_cons, flagOfByte_flagByte, withNamed,
    withSeq_seqBytes _ _ _ h]

/-- The count of `StoreRead` is the word of its high half and the word of its low half. -/
theorem halves_of_count {n : Nat} (h : n < 4294967296) :
    (BitVec.ofNat 16 (n / 65536)).toNat * 65536 + (BitVec.ofNat 16 n).toNat = n := by
  simp only [BitVec.toNat_ofNat]; omega

theorem highHalf_of_count (nh nl : Half) : BitVec.ofNat 16 ((nh.toNat * 65536 + nl.toNat) / 65536) = nh := by
  apply BitVec.eq_of_toNat_eq
  simp only [BitVec.toNat_ofNat]; omega

theorem lowHalf_of_count (nh nl : Half) : BitVec.ofNat 16 (nh.toNat * 65536 + nl.toNat) = nl := by
  apply BitVec.eq_of_toNat_eq
  simp only [BitVec.toNat_ofNat]; omega

theorem decode_encode_storeRead (t : Table) (slave : Byte) (a : Half) {n : Nat} (rest : List Byte) (h : n < 4294967296) :
    decode (encode (.appStoreRead t slave a n) ++ rest) = .ok (.appStoreRead t slave a n, rest) := by
  simp only [encode, List.append_assoc, List.cons_append, List.nil_append, decode_kindStoreRead, withByte_cons,
    tableOfByte_tableByte, withNamed, withHalf_halfBytes, halves_of_count h]

theorem decode_encode_init (arg : InitArg) (rest : List Byte) :
    decode (encode (.appInit arg) ++ rest) = .ok (.appInit arg, rest) := by
  show withNamed (initOfByte (initByte arg)) _ = _
  rw [initOfByte_initByte, withNamed]; rfl

/-! ### The round trips -/

/-- Settles O1, instruction by instruction: the PDUs through their own decoders, the steps through their operand readers. -/
theorem decodeReadsBackEncode : Obligations.DecodeReadsBackEncode := by
  intro i rest hw
  cases i with
  | reqRc a n => exact decode_twoFieldsItem rest (by simp [requestBody, twoFields])
  | reqRdi a n => exact decode_twoFieldsItem rest (by simp [requestBody, twoFields])
  | reqRhr a n => exact decode_twoFieldsItem rest (by simp [requestBody, twoFields])
  | reqRir a n => exact decode_twoFieldsItem rest (by simp [requestBody, twoFields])
  | reqWsc a v => exact decode_twoFieldsItem rest (by simp [requestBody, twoFields])
  | reqWsr a v => exact decode_twoFieldsItem rest (by simp [requestBody, twoFields])
  | reqWmc a n bytes => exact decode_bytesItem rest hw (by simp [requestBody, fieldsThenBytes])
  | reqWmr a n bytes => exact decode_bytesItem rest hw (by simp [requestBody, fieldsThenBytes])
  | reqRwmr ra rn wa wn bytes => exact decode_readWriteItem rest hw
  | reqRsid => exact decode_requestItem rest rfl
  | rspRc data => exact decode_rowItem .rc rest hw
  | rspRdi data => exact decode_rowItem .rdi rest hw
  | rspRhr data => exact decode_rowItem .rhr rest hw
  | rspRir data => exact decode_rowItem .rir rest hw
  | rspWsc data => exact decode_rowItem .wsc rest hw
  | rspWsr data => exact decode_rowItem .wsr rest hw
  | rspWmc data => exact decode_rowItem .wmc rest hw
  | rspWmr data => exact decode_rowItem .wmr rest hw
  | rspRsid data => exact decode_rowItem .rsid rest hw
  | rspRwmr data => exact decode_rowItem .rwmr rest hw
  | rspException fc data =>
    obtain ⟨h7, hd⟩ := Bool.and_eq_true_iff.mp hw
    rw [encode, decode_responseItem fc rest hd, responseOf_exception data h7]
  | rspUnknown fc data =>
    simp only [Instr.wellFormed, Bool.and_eq_true, Bool.not_eq_true', ← Bool.not_eq_true (knownCode fc), knownCode_iff,
      not_exists] at hw
    obtain ⟨⟨h7, hk⟩, hd⟩ := hw
    rw [encode, decode_responseItem fc rest hd, responseOf_unknown data h7 hk]
  | frame a pdu lo hi =>
    obtain ⟨h1, h2⟩ := of_decide_eq_true hw
    exact decode_encode_frame rest h1 h2
  | appInit arg => exact decode_encode_init arg rest
  | appEnable => rfl
  | appDisable => rfl
  | appSetSlaveId id running extra => exact decode_encode_setSlaveId id running rest (of_decide_eq_true hw)
  | appStoreRead t slave a n => exact decode_encode_storeRead t slave a rest (of_decide_eq_true hw)
  | poll => rfl
  | portRx b => rfl
  | portTxe => rfl
  | portTmo => rfl
  | appRequestReadCoils slave a n => exact decode_builderItem (h := .rc) nofun slave a n rest
  | appRequestReadDiscreteInputs slave a n => exact decode_builderItem (h := .rdi) nofun slave a n rest
  | appRequestReadHoldingRegister slave a n => exact decode_builderItem (h := .rhr) nofun slave a n rest
  | appRequestReadInputRegister slave a n => exact decode_builderItem (h := .rir) nofun slave a n rest
  | appRequestWriteSingleCoil slave a v => exact decode_builderItem (h := .wsc) nofun slave a v rest
  | appRequestWriteHoldingRegister slave a v => exact decode_builderItem (h := .wsr) nofun slave a v rest
  | appRequestWriteMultipleCoils slave a n bits =>
    rw [encode, List.append_assoc, decode_builderItem (h := .wmc) nofun, builderTail,
      withSeq_seqBytes bits rest _ (of_decide_eq_true hw)]
  | appRequestWriteMultipleHoldingRegister slave a n values =>
    rw [encode, List.append_assoc, decode_builderItem (h := .wmr) nofun, builderTail,
      withWords_wordsBytes values rest _ (of_decide_eq_true hw)]
  | appRequestReadWriteMultipleHoldingRegister slave ra rn wa wn values =>
    simp only [encode, List.append_assoc, decode_builderItem (h := .rwmr) nofun, builderTail, withHalf_halfBytes,
      withWords_wordsBytes values rest _ (of_decide_eq_true hw)]

/-- Settles O2: the decoder's branches, each read back by what its operand readers say of the bytes. -/
theorem encodeReadsBackDecode : Obligations.EncodeReadsBackDecode := by
  intro bs rest i h
  refine ⟨decode_wellFormed h, ?_⟩
  cases bs with
  | nil => cases h
  | cons k r =>
    rw [decode] at h
    obtain ⟨rfl, h⟩ | ⟨-, h⟩ := ite_eq_iff.mp h
    · obtain ⟨pdu, rfl, -, hd⟩ := withPdu_ok h
      obtain ⟨-, hid, body, rfl, hb⟩ := decodeRequestPdu_ok hd
      rw [encode_requestBody hb]; rfl
    obtain ⟨rfl, h⟩ | ⟨-, h⟩ := ite_eq_iff.mp h
    · obtain ⟨pdu, rfl, -, hd⟩ := withPdu_ok h
      rw [encode_of_decodeResponsePdu hd]; rfl
    obtain ⟨rfl, h⟩ | ⟨-, h⟩ := ite_eq_iff.mp h
    · obtain ⟨n, _, rfl, h⟩ := withByte_ok h
      obtain ⟨item, rfl, hlen, hd⟩ := withDecoded_ok h
      rw [encode_of_decodeFrame hlen hd]; rfl
    obtain ⟨rfl, h⟩ | ⟨-, h⟩ := ite_eq_iff.mp h
    · obtain ⟨_, _, rfl, h1⟩ := withByte_ok h
      obtain ⟨arg, harg, h2⟩ := withNamed_ok h1
      cases h2; rw [initOfByte_some harg]; rfl
    obtain ⟨rfl, h⟩ | ⟨-, h⟩ := ite_eq_iff.mp h
    · cases h; rfl
    obtain ⟨rfl, h⟩ | ⟨-, h⟩ := ite_eq_iff.mp h
    · cases h; rfl
    obtain ⟨rfl, h⟩ | ⟨-, h⟩ := ite_eq_iff.mp h
    · obtain ⟨id, _, rfl, h1⟩ := withByte_ok h
      obtain ⟨f, _, rfl, h2⟩ := withByte_ok h1
      obtain ⟨running, hf, h3⟩ := withNamed_ok h2
      obtain ⟨extra, _, rfl, -, h4⟩ := withSeq_ok h3
      cases h4; rw [flagOfByte_some hf]; rfl
    obtain ⟨rfl, h⟩ | ⟨-, h⟩ := ite_eq_iff.mp h
    · obtain ⟨_, _, rfl, h1⟩ := withByte_ok h
      obtain ⟨t, ht, h2⟩ := withNamed_ok h1
      obtain ⟨slave, _, rfl, h3⟩ := withByte_ok h2
      obtain ⟨a, _, rfl, h4⟩ := withHalf_ok h3
      obtain ⟨nh, _, rfl, h5⟩ := withHalf_ok h4
      obtain ⟨nl, _, rfl, h6⟩ := withHalf_ok h5
      cases h6; rw [tableOfByte_some ht, encode, highHalf_of_count, lowHalf_of_count]; rfl
    obtain ⟨rfl, h⟩ | ⟨-, h⟩ := ite_eq_iff.mp h
    · cases h; rfl
    obtain ⟨rfl, h⟩ | ⟨-, h⟩ := ite_eq_iff.mp h
    · obtain ⟨b, _, rfl, h1⟩ := withByte_ok h; cases h1; rfl
    obtain ⟨rfl, h⟩ | ⟨-, h⟩ := ite_eq_iff.mp h
    · cases h; rfl
    obtain ⟨rfl, h⟩ | ⟨-, h⟩ := ite_eq_iff.mp h
    · cases h; rfl
    obtain ⟨rfl, h⟩ | ⟨-, h⟩ := ite_eq_iff.mp h
    · exact encode_of_withSlaveTwo (h := .rc) h
    obtain ⟨rfl, h⟩ | ⟨-, h⟩ := ite_eq_iff.mp h
    · exact encode_of_withSlaveTwo (h := .rdi) h
    obtain ⟨rfl, h⟩ | ⟨-, h⟩ := ite_eq_iff.mp h
    · exact encode_of_withSlaveTwo (h := .rhr) h
    obtain ⟨rfl, h⟩ | ⟨-, h⟩ := ite_eq_iff.mp h
    · exact encode_of_withSlaveTwo (h := .rir) h
    obtain ⟨rfl, h⟩ | ⟨-, h⟩ := ite_eq_iff.mp h
    · exact encode_of_withSlaveTwo (h := .wsc) h
    obtain ⟨rfl, h⟩ | ⟨-, h⟩ := ite_eq_iff.mp h
    · exact encode_of_withSlaveTwo (h := .wsr) h
    obtain ⟨rfl, h⟩ | ⟨-, h⟩ := ite_eq_iff.mp h
    · exact encode_of_withSlaveTwo (h := .wmc) h
    obtain ⟨rfl, h⟩ | ⟨-, h⟩ := ite_eq_iff.mp h
    · exact encode_of_withSlaveTwo (h := .wmr) h
    obtain ⟨rfl, h⟩ | ⟨-, h⟩ := ite_eq_iff.mp h
    · exact encode_of_withSlaveTwo (h := .rwmr) h
    · cases h

/-! ### The row of a response -/

theorem responseRow_rowOf (h : HandlerId) (data : List Byte) : ResponseRow (rowOf h data) (codeOf h) data := by
  cases h <;> simp [ResponseRow, rowOf, codeOf]

theorem responseRow_responseOf (fc : Byte) (data : List Byte) : ResponseRow (responseOf fc data) fc data := by
  obtain ⟨-, e⟩ | ⟨h, rfl, e⟩ | e := responseOf_cases fc data <;> rw [e]
  · simp [ResponseRow]
  · exact responseRow_rowOf h data
  · simp [ResponseRow]

theorem rowOf_ne_unknown (h : HandlerId) (fc : Byte) (data data' : List Byte) : rowOf h data ≠ .rspUnknown fc data' := by
  cases h <;> nofun

/-- Settles O5: the decoded row is `responseOf`, whose three cases are the three clauses. -/
theorem functionCodeSelectsRow : Obligations.FunctionCodeSelectsRow := by
  intro fc data hlen
  have hd : rspDataOk data = true := decide_eq_true (Nat.succ_le_succ hlen)
  refine ⟨responseOf fc data, if_pos hd, responseOf_wellFormed hd rfl, responseRow_responseOf fc data,
    responseOf_exception data, responseOf_unknown data, ?_⟩
  rintro - ⟨h, rfl⟩
  rw [responseOf_codeOf]
  exact rowOf_ne_unknown h _ _ _

/-! ### One step of a program, and words of the spec -/

/-- Settles O3: the three cases of `step`; no bytes at all decode to nothing. -/
theorem stepRunsDecodedInstruction : Obligations.StepRunsDecodedInstruction := by
  intro s
  refine ⟨fun i rest hd _ => ?_, fun he => if_pos he, fun e hd hne => ?_⟩
  · have hne : s.program ≠ [] := fun he => by rw [he] at hd; cases hd
    rw [step, if_neg hne, hd]
  · rw [step, if_neg hne, hd]

/-- Settles O4: each word is evaluated. -/
theorem specWordsDecode : Obligations.SpecWordsDecode :=
  ⟨rfl, rfl, rfl, rfl, rfl, rfl, rfl, rfl, by decide +kernel⟩

end Sys2Proof.Proofs
end

section
/-! SUPPORT. Proofs about requests (spec/43_pdu_requests.md R220 to R231): what `requestCommon` answers in each of its cases, and
the fields of a submitted request read back from the send buffer (spec/30_encoding.md R102). -/

namespace Sys2Proof.Proofs

open Sys2Proof.Machine Sys2Proof.Claims Sys2Proof.Laws

/-! ### A submission -/

theorem submit_read (slave : Byte) {pdu : List Byte} (s : State) (i : Nat) (hlen : pdu.length ≤ 252) :
    Memory.read (submit slave pdu s).txbuf i =
      if h : 1 ≤ i ∧ i < 1 + pdu.length then pdu[i - 1]'(by omega) else Memory.read s.txbuf i := by
  rw [submit_eq, read_bufWriteBytes]
  by_cases hi : 1 ≤ i ∧ i < 1 + pdu.length
  · rw [dif_pos ⟨hi.1, hi.2, by show i < 256; omega⟩, dif_pos hi]
  · rw [dif_neg (fun h => hi ⟨h.1, h.2.1⟩), dif_neg hi]

theorem submitted_submit (slave : Byte) {pdu : List Byte} (s : State) (hlen : pdu.length ≤ 252) :
    Submitted slave pdu s (returnsCode .noError (submit slave pdu s)) := by
  refine ⟨rfl, rfl, ?_, fun k hk => ?_, fun i hi => ?_, by rw [submit_eq]; rfl⟩
  · show (BitVec.ofNat 16 pdu.length).toNat = pdu.length
    simp only [BitVec.toNat_ofNat]; omega
  · have hin : 1 ≤ 1 + k ∧ 1 + k < 1 + pdu.length := by omega
    exact (submit_read slave s (1 + k) hlen).trans (by simp only [dif_pos hin, Nat.add_sub_cancel_left])
  · exact (submit_read slave s i hlen).trans (dif_neg (by omega))

section
variable {h : HandlerId} {slave : Byte} {ok : Bool} {pdu : List Byte} {s : State}

theorem requestCommon_refused (hf : h ∉ s.cfg.enabledFcs) : requestCommon h slave ok pdu s = markRefused s := if_pos hf

theorem requestCommon_invalid (hf : h ∈ s.cfg.enabledFcs) (ha : s.cfg.maxSlaves < slave.toNat ∨ ¬ ok = true) :
    requestCommon h slave ok pdu s = returnsCode .invalidArgument s := by
  rw [requestCommon, if_neg (not_not.mpr hf)]
  split
  · rfl
  · rename_i hs
    exact if_pos (ha.resolve_left hs)

theorem requestCommon_busy (hf : h ∈ s.cfg.enabledFcs) (hs : slave.toNat ≤ s.cfg.maxSlaves) (hok : ok = true)
    (ht : s.token = .held) : requestCommon h slave ok pdu s = returnsCode .busy s := by
  rw [requestCommon, if_neg (not_not.mpr hf), if_neg (Nat.not_lt.mpr hs), if_neg (not_not.mpr hok), if_pos ht]

theorem requestCommon_submit (hf : h ∈ s.cfg.enabledFcs) (hs : slave.toNat ≤ s.cfg.maxSlaves) (hok : ok = true)
    (ht : s.token = .free) : requestCommon h slave ok pdu s = returnsCode .noError (submit slave pdu s) := by
  rw [requestCommon, if_neg (not_not.mpr hf), if_neg (Nat.not_lt.mpr hs), if_neg (not_not.mpr hok), if_neg (by rw [ht]; nofun)]

/-- A step that is `requestCommon` answers as a builder does. -/
theorem builderAnswers_of_requestCommon {i : Instr} {argsOk : Prop} (hi : exec i s = .next (requestCommon h slave ok pdu s))
    (hok : ok = true ↔ argsOk) (hlen : ok = true → pdu.length ≤ 252) : BuilderAnswers h slave argsOk pdu i s := by
  rw [BuilderAnswers, hi, ← hok]
  refine ⟨fun hf => ?_, fun hf ha => ?_, fun hf hs ho ht => ?_, fun hf hs ho ht => ?_⟩
  · rw [requestCommon_refused hf]; rfl
  · rw [requestCommon_invalid hf ha]; rfl
  · rw [requestCommon_busy hf hs ho ht]; rfl
  · exact ⟨_, rfl, by rw [requestCommon_submit hf hs ho ht]; exact submitted_submit slave s (hlen ho)⟩

end

/-- A builder that takes the free token was given arguments it admits, and submitted its PDU. -/
theorem submitted_of_token {h : HandlerId} {slave : Byte} {argsOk : Prop} {pdu : List Byte} {i : Instr} {s t : State}
    (hb : BuilderAnswers h slave argsOk pdu i s) (hs : s.token = .free) (ht : exec i s = .next t) (hheld : t.token = .held) :
    argsOk ∧ Submitted slave pdu s t := by
  have hchanged : t.token ≠ s.token := by rw [hs, hheld]; nofun
  obtain ⟨hrefused, hinvalid, -, hsubmit⟩ := hb
  by_cases hf : h ∈ s.cfg.enabledFcs
  · by_cases ha : s.cfg.maxSlaves < slave.toNat ∨ ¬ argsOk
    · cases ht.symm.trans (hinvalid hf ha)
      exact absurd rfl hchanged
    · obtain ⟨hslave, hargs⟩ := not_or.mp ha
      obtain ⟨u, hu, hsub⟩ := hsubmit hf (Nat.le_of_not_lt hslave) (not_not.mp hargs) hs
      cases ht.symm.trans hu
      exact ⟨not_not.mp hargs, hsub⟩
  · cases ht.symm.trans (hrefused hf)
    exact absurd rfl hchanged

/-! ### Requests of two fields (R221 to R226) -/

theorem builderAnswers_twoFields {h : HandlerId} {slave : Byte} {ok : Bool} {argsOk : Prop} {a b : Half} {i : Instr} {s : State}
    (hi : exec i s = .next (requestCommon h slave ok (pduTwoFields h a b) s)) (hok : ok = true ↔ argsOk) :
    BuilderAnswers h slave argsOk (pduTwoFields h a b) i s :=
  builderAnswers_of_requestCommon hi hok (fun _ => by rw [pduTwoFields_length]; omega)

/-! ### Request rows with data (R227 to R229; log 5) -/

theorem builderAnswers_reqWmc (s : State) (a n : Half) (bytes : List Byte) :
    BuilderAnswers .wmc s.destAddr (InRange n maxWriteBits ∧ Counted bytes (ceil8 n.toNat)) (pduWithBytes .wmc a n bytes)
      (.reqWmc a n bytes) s := by
  refine builderAnswers_of_requestCommon rfl
    (Bool.and_eq_true_iff.trans (and_congr (countOk_iff ..) (countedOk_iff ..))) fun h => ?_
  obtain ⟨hc, hb⟩ := Bool.and_eq_true_iff.mp h
  have := ceil8_maxWriteBits hc
  have := ((countedOk_iff _ _).mp hb).1
  rw [pduWithBytes_length]; omega

theorem builderAnswers_reqWmr (s : State) (a n : Half) (bytes : List Byte) :
    BuilderAnswers .wmr s.destAddr (InRange n maxWriteWords ∧ Counted bytes (2 * n.toNat)) (pduWithBytes .wmr a n bytes)
      (.reqWmr a n bytes) s := by
  refine builderAnswers_of_requestCommon rfl
    (Bool.and_eq_true_iff.trans (and_congr (countOk_iff ..) (countedOk_iff ..))) fun h => ?_
  obtain ⟨hc, hb⟩ := Bool.and_eq_true_iff.mp h
  have := toNat_maxWriteWords hc
  have := ((countedOk_iff _ _).mp hb).1
  rw [pduWithBytes_length]; omega

theorem builderAnswers_reqRwmr (s : State) (ra rn wa wn : Half) (bytes : List Byte) :
    BuilderAnswers .rwmr s.destAddr (InRange rn maxReadWords ∧ InRange wn maxWriteWords ∧ Counted bytes (2 * wn.toNat))
      (pduReadWriteBytes ra rn wa wn bytes) (.reqRwmr ra rn wa wn bytes) s := by
  refine builderAnswers_of_requestCommon rfl ?_ fun h => ?_
  · rw [Bool.and_eq_true_iff, Bool.and_eq_true_iff, and_assoc]
    exact and_congr (countOk_iff ..) (and_congr (countOk_iff ..) (countedOk_iff ..))
  · obtain ⟨hc, hb⟩ := Bool.and_eq_true_iff.mp h
    have := toNat_maxWriteWords (Bool.and_eq_true_iff.mp hc).2
    have := ((countedOk_iff _ _).mp hb).1
    rw [pduReadWriteBytes_length]; omega

/-- Settles O26: every row but that of 0x11 is `requestCommon` for the slave in the address register. -/
theorem requestPdusSubmit : Obligations.RequestPdusSubmit := fun s a n wa wn bytes =>
  ⟨builderAnswers_twoFields rfl (countOk_iff ..), builderAnswers_twoFields rfl (countOk_iff ..),
    builderAnswers_twoFields rfl (countOk_iff ..), builderAnswers_twoFields rfl (countOk_iff ..),
    builderAnswers_twoFields rfl decide_eq_true_iff, builderAnswers_twoFields rfl (iff_of_true rfl trivial),
    builderAnswers_reqWmc s a n bytes, builderAnswers_reqWmr s a n bytes, builderAnswers_reqRwmr s a n wa wn bytes, rfl⟩

/-! ### Builders with data (R227 to R229) -/

theorem builderAnswers_writeMultipleCoils (s : State) (slave : Byte) (a n : Half) (bits : List Byte) :
    BuilderAnswers .wmc slave (InRange n maxWriteBits ∧ ceil8 n.toNat ≤ bits.length)
      (pduWithData .wmc a n (bits.take (ceil8 n.toNat))) (.appRequestWriteMultipleCoils slave a n bits) s :=
  builderAnswers_of_requestCommon rfl
    (Bool.and_eq_true_iff.trans (and_congr (countOk_iff ..) decide_eq_true_iff))
    fun h => wmcPdu_length (Bool.and_eq_true_iff.mp h).1

theorem wmrPdu_length {a n : Half} {values : List Half} (h : countOk n maxWriteWords = true) :
    (pduWithData .wmr a n (beBytes (values.take n.toNat))).length ≤ 252 := by
  have := beBytes_take_length (values := values) h
  rw [pduWithData_length]; omega

theorem rwmrPdu_length {ra rn wa wn : Half} {values : List Half} (h : countOk wn maxWriteWords = true) :
    (pduReadWrite ra rn wa wn (beBytes (values.take wn.toNat))).length ≤ 252 := by
  have := beBytes_take_length (values := values) h
  rw [pduReadWrite_length]; omega

theorem builderAnswers_writeMultipleRegisters (s : State) (slave : Byte) (a n : Half) (values : List Half) :
    BuilderAnswers .wmr slave (InRange n maxWriteWords ∧ n.toNat ≤ values.length)
      (pduWithData .wmr a n (beBytes (values.take n.toNat))) (.appRequestWriteMultipleHoldingRegister slave a n values) s :=
  builderAnswers_of_requestCommon rfl
    (Bool.and_eq_true_iff.trans (and_congr (countOk_iff ..) decide_eq_true_iff))
    fun h => wmrPdu_length (Bool.and_eq_true_iff.mp h).1

theorem builderAnswers_readWriteRegisters (s : State) (slave : Byte) (ra rn wa wn : Half) (values : List Half) :
    BuilderAnswers .rwmr slave (InRange rn maxReadWords ∧ InRange wn maxWriteWords ∧ wn.toNat ≤ values.length)
      (pduReadWrite ra rn wa wn (beBytes (values.take wn.toNat)))
      (.appRequestReadWriteMultipleHoldingRegister slave ra rn wa wn values) s := by
  refine builderAnswers_of_requestCommon rfl ?_
    fun h => rwmrPdu_length (Bool.and_eq_true_iff.mp (Bool.and_eq_true_iff.mp h).1).2
  rw [Bool.and_eq_true_iff, Bool.and_eq_true_iff, and_assoc]
  exact and_congr (countOk_iff ..) (and_congr (countOk_iff ..) decide_eq_true_iff)

/-! ### The fields of a submitted request (R102) -/

section
variable {slave : Byte} {s t : State}

theorem txByte_of_submitted {pdu : List Byte} (hs : Submitted slave pdu s t) (hlen : pdu.length ≤ 252) {k : Nat}
    (hk : k < pdu.length) : txByte t (1 + k) = pdu[k] := by
  obtain ⟨-, -, -, hread, -, -⟩ := hs
  exact (if_pos (show 1 + k < 256 by omega)).trans (hread k hk)

theorem reqField_of_submitted {pdu : List Byte} (hs : Submitted slave pdu s t) (hlen : pdu.length ≤ 252) {k : Nat}
    (hk : k + 1 < pdu.length) : reqField t k = be16 pdu[k] pdu[k + 1] := by
  rw [reqField, show 2 + k = 1 + (k + 1) by omega, txByte_of_submitted hs hlen, txByte_of_submitted hs hlen]

theorem txSlice_of_submitted {pdu : List Byte} (hs : Submitted slave pdu s t) (hlen : pdu.length ≤ 252) {k n : Nat}
    (hk : k + n = pdu.length) : txSlice t (1 + k) n = pdu.drop k := by
  refine List.ext_getElem (by simp only [txSlice_length, List.length_drop]; omega) fun j hj _ => ?_
  rw [txSlice_length] at hj
  simp only [txSlice, List.getElem_map, List.getElem_range, List.getElem_drop, Nat.add_assoc]
  exact txByte_of_submitted hs hlen (by omega)

theorem fields_of_submitted {h : HandlerId} {a n : Half} {tail : List Byte}
    (hs : Submitted slave (pduWithBytes h a n tail) s t) (hlen : (pduWithBytes h a n tail).length ≤ 252) :
    reqAddr t = a ∧ reqCount t = n :=
  have hl := pduWithBytes_length h a n tail
  ⟨(reqField_of_submitted hs hlen (by omega)).trans (be16_hi8_lo8 a),
    (reqField_of_submitted hs hlen (by omega)).trans (be16_hi8_lo8 n)⟩

theorem data_of_submitted {h : HandlerId} {a n : Half} {data : List Byte}
    (hs : Submitted slave (pduWithData h a n data) s t) (hlen : (pduWithData h a n data).length ≤ 252) :
    (reqBc t).toNat = data.length ∧ reqData t data.length = data := by
  have hl := pduWithData_length h a n data
  have hbc : reqBc t = BitVec.ofNat 8 data.length := txByte_of_submitted hs hlen (k := 5) (by omega)
  refine ⟨?_, txSlice_of_submitted hs hlen (k := 6) (by omega)⟩
  rw [hbc, BitVec.toNat_ofNat]; omega

theorem fields_of_submitted_readWrite {ra rn wa wn : Half} {tail : List Byte}
    (hs : Submitted slave (pduReadWriteBytes ra rn wa wn tail) s t)
    (hlen : (pduReadWriteBytes ra rn wa wn tail).length ≤ 252) :
    reqAddr t = ra ∧ reqCount t = rn ∧ rwWaddr t = wa ∧ rwWcount t = wn :=
  have hl := pduReadWriteBytes_length ra rn wa wn tail
  ⟨(reqField_of_submitted hs hlen (by omega)).trans (be16_hi8_lo8 ra),
    (reqField_of_submitted hs hlen (by omega)).trans (be16_hi8_lo8 rn),
    (reqField_of_submitted hs hlen (by omega)).trans (be16_hi8_lo8 wa),
    (reqField_of_submitted hs hlen (by omega)).trans (be16_hi8_lo8 wn)⟩

theorem data_of_submitted_readWrite {ra rn wa wn : Half} {data : List Byte}
    (hs : Submitted slave (pduReadWrite ra rn wa wn data) s t) (hlen : (pduReadWrite ra rn wa wn data).length ≤ 252) :
    (rwWbc t).toNat = data.length ∧ rwWdata t data.length = data := by
  have hl := pduReadWrite_length ra rn wa wn data
  have hbc : rwWbc t = BitVec.ofNat 8 data.length := txByte_of_submitted hs hlen (k := 9) (by omega)
  refine ⟨?_, txSlice_of_submitted hs hlen (k := 10) (by omega)⟩
  rw [hbc, BitVec.toNat_ofNat]; omega

/-- A builder of two fields that takes the free token leaves them in the send buffer. -/
theorem twoFields_readBack {h : HandlerId} {ok : Bool} {a n : Half} {i : Instr}
    (hi : exec i s = .next (requestCommon h slave ok (pduTwoFields h a n) s)) (hfree : s.token = .free)
    (ht : exec i s = .next t) (hheld : t.token = .held) : reqAddr t = a ∧ reqCount t = n := by
  obtain ⟨-, hsub⟩ := submitted_of_token (builderAnswers_twoFields hi Iff.rfl) hfree ht hheld
  exact fields_of_submitted (tail := []) hsub (by simp)

end

/-- Settles O6: a builder that took the free token submitted its PDU, whose bytes are the fields. -/
theorem requestFieldsReadBack : Obligations.RequestFieldsReadBack := by
  intro s slave a n wa wn bits values hfree
  refine ⟨fun i hi t ht hheld => ?_, fun t ht hheld => ?_, fun t ht hheld => ?_, fun t ht hheld => ?_⟩
  · simp only [List.mem_cons, List.not_mem_nil, or_false] at hi
    obtain rfl | rfl | rfl | rfl | rfl | rfl := hi <;> exact twoFields_readBack rfl hfree ht hheld
  · obtain ⟨⟨hn, hbits⟩, hsub⟩ := submitted_of_token (builderAnswers_writeMultipleCoils s slave a n bits) hfree ht hheld
    have hlen := wmcPdu_length (a := a) (bits := bits) ((countOk_iff ..).mpr hn)
    have hdata := data_of_submitted hsub hlen
    rw [List.length_take_of_le hbits] at hdata
    obtain ⟨haddr, hcount⟩ := fields_of_submitted hsub hlen
    exact ⟨haddr, hcount, hdata⟩
  · obtain ⟨⟨hn, hvalues⟩, hsub⟩ :=
      submitted_of_token (builderAnswers_writeMultipleRegisters s slave a n values) hfree ht hheld
    have hlen := wmrPdu_length (a := a) (values := values) ((countOk_iff ..).mpr hn)
    have hdata := data_of_submitted hsub hlen
    rw [beBytes_length, List.length_take_of_le hvalues] at hdata
    obtain ⟨haddr, hcount⟩ := fields_of_submitted hsub hlen
    exact ⟨haddr, hcount, hdata⟩
  · obtain ⟨⟨-, hn, hvalues⟩, hsub⟩ :=
      submitted_of_token (builderAnswers_readWriteRegisters s slave a n wa wn values) hfree ht hheld
    have hlen := rwmrPdu_length (ra := a) (rn := n) (wa := wa) (values := values) ((countOk_iff ..).mpr hn)
    have hdata := data_of_submitted_readWrite hsub hlen
    rw [beBytes_length, List.length_take_of_le hvalues] at hdata
    obtain ⟨haddr, hcount, hwaddr, hwcount⟩ := fields_of_submitted_readWrite hsub hlen
    exact ⟨haddr, hcount, hwaddr, hwcount, hdata⟩

end Sys2Proof.Proofs
end

section
/-! SUPPORT. Proofs about a frame on the receive line (spec/41_rtu_receive.md R170 to R173, spec/30_encoding.md R106): the steps it
is made of, and what it leaves when it starts while the receive machine is idle. -/

namespace Sys2Proof.Proofs

open Sys2Proof.Machine Sys2Proof.Claims Sys2Proof.Laws

theorem runSteps_portRx (bs : List Byte) (s : State) :
    runSteps (bs.map Instr.portRx) s = .next (bs.foldl (fun t b => byteReceived b t) s) := by
  induction bs generalizing s with
  | nil => rfl
  | cons b bs ih => exact (runSteps_cons _ rfl).trans (ih (byteReceived b s))

theorem runSteps_rxFrameSteps (bs : List Byte) (s : State) : runSteps (rxFrameSteps bs) s = .next (receiveFrame bs s) := by
  rw [rxFrameSteps, runSteps_append _ (runSteps_portRx bs s)]; rfl

/-- Settles O31: the byte steps fold `byteReceived`, and the last step is the expiry. -/
theorem frameIsItsSteps : Obligations.FrameIsItsSteps :=
  fun s _ _ _ _ => (runSteps_rxFrameSteps _ s).symm

/-- Bytes that arrive while a frame is being received, and fit the buffer, are appended to it (R173). -/
theorem receiveBytes_receiving (bs : List Byte) {s : State} (hr : s.running = true) (hx : s.rxState = .receiving)
    (ht : s.timer = .armed .t35) (hfit : s.rxPos + bs.length ≤ bufSize) :
    bs.foldl (fun t b => byteReceived b t) s =
      { s with rxbuf := Memory.bufWriteBytes s.rxbuf s.rxPos bs, rxPos := s.rxPos + bs.length } := by
  induction bs generalizing s with
  | nil => rfl
  | cons b bs ih =>
    rw [List.length_cons] at hfit
    rw [List.foldl_cons, byteReceived_receiving hr hx (by omega)]
    refine (ih ?_ ?_ ?_ ?_).trans ?_
    · exact hr
    · exact hx
    · rfl
    · show s.rxPos + 1 + bs.length ≤ bufSize
      omega
    · simp only [Memory.bufWriteBytes, List.length_cons, Nat.add_assoc, Nat.add_comm 1, ht]

/-- The bytes of a frame that starts while the receive machine is idle (R172, R173). -/
theorem receiveBytes_idle (b : Byte) (bs : List Byte) {s : State} (hr : s.running = true) (hx : s.rxState = .idle)
    (htx : s.txState ≠ .transmitting) (hfit : bs.length + 1 ≤ bufSize) :
    (b :: bs).foldl (fun t b => byteReceived b t) s = { s with
      rxbuf := Memory.bufWriteBytes s.rxbuf 0 (b :: bs), rxPos := bs.length + 1, rxState := .receiving, txState := .idle
      timer := .armed .t35 } := by
  have hidle : (if s.txState = .done then TxState.idle else s.txState) = .idle := by
    cases h : s.txState with
    | idle => rfl
    | transmitting => exact absurd h htx
    | done => rfl
  rw [List.foldl_cons, byteReceived_idle hr hx, hidle]
  refine (receiveBytes_receiving bs ?_ rfl rfl ?_).trans ?_
  · exact hr
  · show 1 + bs.length ≤ bufSize
    omega
  · simp only [Memory.bufWriteBytes, Nat.add_comm 1, Nat.zero_add]

/-- The expiry that ends a frame while nothing is sent posts `FrameReceived` (R198). -/
theorem portTimerExpiry_receiving {s : State} {p : TimerPurpose} (ht : s.timer = .armed p) (hr : s.running = true)
    (hx : s.rxState = .receiving) (htx : s.txState = .idle) :
    portTimerExpiry s = post .frameReceived { s with rxState := .idle, timer := .off } := by
  have hmid : timerExpiredRx (timerDisable s) = post .frameReceived { s with rxState := .idle, timer := .off } := by
    simp only [timerExpiredRx, timerDisable_rxState, hx]; rfl
  rw [portTimerExpiry_armed ht hr, hmid]
  simp only [timerExpiredTx, post_txState, htx]

theorem receiveFrame_idle (b : Byte) (bs : List Byte) {s : State} (hr : s.running = true) (hx : s.rxState = .idle)
    (htx : s.txState ≠ .transmitting) (hfit : bs.length + 1 ≤ bufSize) :
    receiveFrame (b :: bs) s = post .frameReceived { s with
      rxbuf := Memory.bufWriteBytes s.rxbuf 0 (b :: bs), rxPos := bs.length + 1, rxState := .idle, txState := .idle
      timer := .off } := by
  rw [receiveFrame, receiveBytes_idle b bs hr hx htx hfit]
  refine portTimerExpiry_receiving rfl ?_ rfl rfl
  exact hr

/-- Settles O32: the frame's bytes stand in the buffer from index 0, and the expiry posts. -/
theorem frameArrivesWhole : Obligations.FrameArrivesWhole := by
  intro s a lo hi pdu _ hlen hr hx htx
  have hframe : ((a :: pdu) ++ [lo, hi]).length = pdu.length + 3 := by simp
  have hread : ∀ i, Memory.read (Memory.bufWriteBytes s.rxbuf 0 ((a :: pdu) ++ [lo, hi])) i =
      if h : i < ((a :: pdu) ++ [lo, hi]).length then ((a :: pdu) ++ [lo, hi])[i] else Memory.read s.rxbuf i := by
    intro i
    rw [read_bufWriteBytes]
    by_cases h : i < ((a :: pdu) ++ [lo, hi]).length
    · rw [dif_pos ⟨Nat.zero_le i, by omega, by show i < 256; omega⟩, dif_pos h]; rfl
    · rw [dif_neg (by omega), dif_neg h]
  refine ⟨_, congrArg Host.Outcome.next (receiveFrame_idle a (pdu ++ [lo, hi]) hr hx htx (by simp [bufSize]; omega)),
    fun k hk => (hread k).trans (dif_pos hk), fun i hi' => (hread i).trans (dif_neg (by omega)), ?_⟩
  simp only [post, queued, marked, List.length_append, List.length_cons, List.length_nil]

end Sys2Proof.Proofs
end

section
/-! SUPPORT. Proofs about the lifecycle calls and the handler table (spec/40_dispatcher.md R130 to R134, R190 to R192). -/

namespace Sys2Proof.Proofs

open Sys2Proof.Machine Sys2Proof.Claims Sys2Proof.Laws

/-! ### Init (R130, R190) -/

theorem init_initialized {s : State} (arg : InitArg) (h : s.protoState ≠ .notInitialized) : init arg s = markRefused s :=
  if_pos h

section
variable {s : State} (hp : s.protoState = .notInitialized)
include hp

theorem init_null : init .null s = returnsCode .invalidArgument s := if_neg (not_not.mpr hp)

theorem init_ascii : init (.record .ascii) s = markRefused s := if_neg (not_not.mpr hp)

theorem init_tcp : init (.record .tcp) s = markRefused s := if_neg (not_not.mpr hp)

theorem init_rtu : init (.record .rtu) s = initPort s := if_neg (not_not.mpr hp)

end

theorem initPort_serialFails {s : State} (h : s.cfg.serialInitOk = false) : initPort s = returnsCode .portError s := by
  simp [initPort, h]

theorem initPort_timerFails {s : State} (hs : s.cfg.serialInitOk = true) (h : s.cfg.timerInitOk = false) :
    initPort s = returnsCode .portError (timerInit s) := by
  simp [initPort, hs, h]

theorem initPort_queueFails {s : State} (hs : s.cfg.serialInitOk = true) (ht : s.cfg.timerInitOk = true)
    (h : s.cfg.evqInitOk = false) : initPort s = returnsCode .portError (evqInit (rtuInitValues (timerInit s))) := by
  simp [initPort, hs, ht, h]

theorem initPort_succeeds {s : State} (hs : s.cfg.serialInitOk = true) (ht : s.cfg.timerInitOk = true)
    (h : s.cfg.evqInitOk = true) :
    initPort s = returnsCode .noError { tokenInit (evqInit (rtuInitValues (timerInit s))) with
      hfn := buildHandlerTable s.cfg, protoState := .disabled } := by
  simp [initPort, hs, ht, h]

/-- Settles O18: each check of `Init` in its order. -/
theorem initAnswers : Obligations.InitAnswers := by
  intro s arg
  refine ⟨fun hp => ?_, fun hp harg => ?_, fun hp harg => ?_, fun hp harg => ?_⟩
  · exact congrArg Host.Outcome.next (init_initialized arg hp)
  · subst harg
    exact congrArg Host.Outcome.next (init_null hp)
  · obtain rfl | rfl := harg
    · exact congrArg Host.Outcome.next (init_ascii hp)
    · exact congrArg Host.Outcome.next (init_tcp hp)
  · subst harg
    have hexec : exec (.appInit (.record .rtu)) s = .next (initPort s) := congrArg Host.Outcome.next (init_rtu hp)
    rw [hexec]
    refine ⟨fun hs => ?_, fun hs ht => ?_, fun hs ht hq => ?_, fun hs ht hq => ?_⟩
    · rw [initPort_serialFails hs]; rfl
    · rw [initPort_timerFails hs ht]; rfl
    · rw [initPort_queueFails hs ht hq]; rfl
    · rw [initPort_succeeds hs ht hq]; rfl

/-! ### The handler table (R133, R134) -/

theorem buildHandlerTable_length {cfg : Config} (h : (enabledHandlers cfg).length ≤ cfg.funcHandlersMax) :
    (buildHandlerTable cfg).length = cfg.funcHandlersMax := by
  simp [buildHandlerTable, h]

/-- A lookup in the table that `Init` builds is a search by code. -/
theorem lookup_buildHandlerTable (cfg : Config) (fc : Byte) :
    lookup (buildHandlerTable cfg) fc = (enabledHandlers cfg).find? (fun h => codeOf h = fc) := lookup_slots _ _ fc

theorem lookup_enabled {cfg : Config} {h : HandlerId} (hm : h ∈ cfg.enabledFcs) :
    lookup (buildHandlerTable cfg) (codeOf h) = some h := by
  rw [lookup_buildHandlerTable]
  cases hf : (enabledHandlers cfg).find? (fun h' => codeOf h' = codeOf h) with
  | none => exact absurd (decide_eq_true rfl) (List.find?_eq_none.mp hf h (mem_enabledHandlers.mpr hm))
  | some h' =>
    have hcode : codeOf h' = codeOf h := by simpa using List.find?_some hf
    rw [codeOf_inj.mp hcode]

theorem lookup_notEnabled {cfg : Config} {fc : Byte} (hm : ∀ h, h ∈ cfg.enabledFcs → codeOf h ≠ fc) :
    lookup (buildHandlerTable cfg) fc = none := by
  rw [lookup_buildHandlerTable, List.find?_eq_none]
  intro h hh
  rw [decide_eq_true_iff]
  exact hm h (mem_enabledHandlers.mp hh)

/-- Code 0 is the sentinel: a slot that has it ends the scan. -/
theorem lookup_zero (table : List HandlerSlot) : lookup table 0x00#8 = none := by
  induction table with
  | nil => rfl
  | cons slot rest ih =>
    rw [lookup]
    split
    · rfl
    · exact ih

/-- Settles O19: the table is the enabled handlers, searched by code, and empty slots. -/
theorem handlerTableLookup : Obligations.HandlerTableLookup := by
  intro cfg hcfg
  obtain ⟨-, -, -, -, -, -, hcanonical, hfits, -⟩ := hcfg
  exact ⟨buildHandlerTable_length (hcanonical ▸ hfits), fun _ => lookup_enabled, fun _ => lookup_notEnabled, lookup_zero⟩

/-! ### Enable and Disable (R131, R132) -/

theorem enable_disabled {s : State} (h : s.protoState = .disabled) :
    enable s = returnsCode .noError { start s with protoState := .enabled } := if_pos h

theorem enable_notDisabled {s : State} (h : s.protoState ≠ .disabled) : enable s = returnsCode .illegalState s := if_neg h

theorem disable_notInitialized {s : State} (h : s.protoState = .notInitialized) :
    disable s = returnsCode .illegalState s := by
  rw [disable, h]

theorem disable_disabled {s : State} (h : s.protoState = .disabled) : disable s = returnsCode .noError s := by
  rw [disable, h]

theorem disable_enabled {s : State} (h : s.protoState = .enabled) :
    disable s = returnsCode .noError { stop s with protoState := .disabled } := by
  rw [disable, h]

/-- Settles O20: both calls in every protocol state. -/
theorem enableAndDisableAnswer : Obligations.EnableAndDisableAnswer := fun _ =>
  ⟨fun h => congrArg Host.Outcome.next (enable_notDisabled h), fun h => congrArg Host.Outcome.next (enable_disabled h),
    fun h => congrArg Host.Outcome.next (disable_notInitialized h), fun h => congrArg Host.Outcome.next (disable_disabled h),
    fun h => congrArg Host.Outcome.next (disable_enabled h)⟩

end Sys2Proof.Proofs
end

section
/-! SUPPORT. Proofs about the poll step (spec/40_dispatcher.md R140 to R146): each event of an enabled dispatcher. -/

namespace Sys2Proof.Proofs

open Sys2Proof.Machine Sys2Proof.Claims Sys2Proof.Laws

/-- Settles O33: nothing to poll, or the event without an action. -/
theorem pollWithNothingToDo : Obligations.PollWithNothingToDo := by
  intro s
  refine ⟨fun h => ?_, fun rest he hq => exec_poll_event he hq⟩
  obtain he | hq := h
  · exact exec_poll_disabled he
  · exact exec_poll_empty hq

/-- Settles O36: the event's handler is the Error return. -/
theorem pollError : Obligations.PollError := fun _ _ he hq => exec_poll_event he hq

/-- The Error entry is what the statements say of it (R314). -/
theorem errorEntry_eq_failed (v : ErrorEvent) (s : State) : errorEntry v s = failed v s.evq s := rfl

/-! ### FrameReceived (R142) -/

theorem rxByte_zero (s : State) : rxByte s 0 = Memory.read s.rxbuf 0 := rfl

/-- Settles O34: the frame accepted, or its exact negation. -/
theorem pollFrameReceived : Obligations.PollFrameReceived := by
  intro s rest he hq _
  rw [exec_poll_event he hq, handleEvent_frameReceived, ← rxByte_zero]
  refine ⟨fun h => ?_, fun h => ?_⟩
  · rw [handleFrameReceived_accept (s := { s with evq := rest }) h]; rfl
  · rw [handleFrameReceived_reject (s := { s with evq := rest }) h, errorEntry_eq_failed]; rfl

/-! ### FrameSent (R145, R193, R302) -/

theorem frameBytes_length (a : Byte) (s : State) (len : Nat) : (frameBytes a (txSlice s 1 len)).length = len + 3 := by
  simp [frameBytes, crcTail, txSlice_length]

theorem read_putAddress (a : Byte) (s : State) (i : Nat) :
    Memory.read (putAddress a s).txbuf i = if i = 0 then a else Memory.read s.txbuf i :=
  (read_bufWrite s.txbuf 0 i a).trans (if_congr (and_iff_left (by decide)) rfl rfl)

/-- The address and the PDU stand in front of the frame's CRC once the address byte is written. -/
theorem read_putAddress_front (a : Byte) {len i : Nat} (s : State) (hlen : len ≤ pduMax)
    (hi : i < (a :: txSlice s 1 len).length) : Memory.read (putAddress a s).txbuf i = (a :: txSlice s 1 len)[i] := by
  have hlen' : len ≤ 253 := hlen
  simp only [List.length_cons, txSlice_length] at hi
  rw [read_putAddress]
  cases i with
  | zero => rfl
  | succ k =>
    simp only [txSlice, List.getElem_cons_succ, List.getElem_map, List.getElem_range, Nat.add_comm 1 k]
    exact (if_neg (by omega)).trans (if_pos (show k + 1 < 256 by omega)).symm

/-- The bytes that the CRC of a sent frame covers are the address and the PDU. -/
theorem txSlice_putAddress (a : Byte) {len : Nat} (s : State) (hlen : len ≤ pduMax) :
    txSlice (putAddress a s) 0 (1 + len) = a :: txSlice s 1 len := by
  have hlen' : len ≤ 253 := hlen
  refine List.ext_getElem (by simp only [txSlice_length, List.length_cons]; omega) fun i hi hi' => ?_
  rw [txSlice_length] at hi
  simp only [txSlice, List.getElem_map, List.getElem_range, Nat.zero_add]
  exact (if_pos (show i < 256 by omega)).trans (read_putAddress_front a s hlen hi')

theorem sendFrame_txbuf (a : Byte) {len : Nat} (s : State) (hlen : len ≤ pduMax) :
    (sendFrame a len s).txbuf =
      Memory.bufWriteBytes (putAddress a s).txbuf (1 + len) (crcTail (a :: txSlice s 1 len)) := by
  rw [← txSlice_putAddress a s hlen]; rfl

/-- `Send` leaves the frame in the send buffer from index 0. -/
theorem sendFrame_read_frame (a : Byte) {len k : Nat} (s : State) (hlen : len ≤ pduMax)
    (hk : k < (frameBytes a (txSlice s 1 len)).length) :
    Memory.read (sendFrame a len s).txbuf k = (frameBytes a (txSlice s 1 len))[k] := by
  have hlen' : len ≤ 253 := hlen
  have hfront : (a :: txSlice s 1 len).length = 1 + len := by rw [List.length_cons, txSlice_length, Nat.add_comm]
  have htail : (crcTail (a :: txSlice s 1 len)).length = 2 := rfl
  rw [frameBytes_length] at hk
  rw [sendFrame_txbuf a s hlen, read_bufWriteBytes]
  by_cases hi : k < 1 + len
  · rw [dif_neg (by omega), read_putAddress_front a s hlen (by omega)]
    exact (List.getElem_append_left _).symm
  · rw [dif_pos ⟨by omega, by omega, by show k < 256; omega⟩]
    refine Eq.symm ((List.getElem_append_right (by omega)).trans ?_)
    simp only [hfront]

/-- `Send` leaves the bytes behind the frame alone. -/
theorem sendFrame_read_behind (a : Byte) {len i : Nat} (s : State) (hlen : len ≤ pduMax) (hi : len + 3 ≤ i) :
    Memory.read (sendFrame a len s).txbuf i = Memory.read s.txbuf i := by
  have htail : (crcTail (a :: txSlice s 1 len)).length = 2 := rfl
  rw [sendFrame_txbuf a s hlen, read_bufWriteBytes, dif_neg (by omega), read_putAddress, if_neg (by omega)]

theorem frameStarted_sendFrame {s : State} (rest : List Event) {len : Nat} (hlen : len ≤ pduMax) :
    FrameStarted len rest s (sendFrame s.destAddr len { s with evq := rest }) :=
  ⟨fun _ => sendFrame_read_frame s.destAddr { s with evq := rest } hlen,
    fun _ => sendFrame_read_behind s.destAddr { s with evq := rest } hlen, rfl⟩

/-- Settles O35: `Send`'s three ends. -/
theorem pollFrameSent : Obligations.PollFrameSent := by
  intro s rest he hq
  rw [exec_poll_event he hq, handleEvent_frameSent]
  refine ⟨fun hl => ?_, fun hl hx => ?_, fun hl hx => ?_⟩
  · rw [handleFrameSent_oversize (s := { s with evq := rest }) hl]; rfl
  · rw [handleFrameSent_rejected (s := { s with evq := rest }) hl hx]; rfl
  · rw [handleFrameSent_sent (s := { s with evq := rest }) hl hx]
    exact ⟨_, rfl, frameStarted_sendFrame rest hl⟩

/-! ### Execute (R143) -/

/-- The PDU that an Execute step reads: the request on a broadcast, else the accepted response (R143). -/
def ExecuteReads (s : State) (v : View) (L : Nat) : Prop :=
  (s.bcast = true → v = .tx ∧ L = s.sndPduLen.toNat) ∧ (s.bcast = false → v = .rx ∧ L = s.rcvPduLen.toNat)

theorem executePdu_draws (v : View) (L : Nat) (s : State) : (executePdu v L s).draws = s.draws := by
  obtain ⟨_, _, _, _, _, _, _, _, _, _, _, h⟩ := executePdu_frame v L s
  rw [h]

theorem handleExecute_eq {s : State} {v : View} {L : Nat} (hr : ExecuteReads s v L) :
    handleExecute s = { executePdu v L s with draws := s.draws + 1 } := by
  obtain ⟨htx, hrx⟩ := hr
  cases hb : s.bcast with
  | true =>
    obtain ⟨rfl, rfl⟩ := htx hb
    rw [handleExecute_broadcast hb, executePdu_draws]
  | false =>
    obtain ⟨rfl, rfl⟩ := hrx hb
    rw [handleExecute_unicast hb, executePdu_draws]

/-- The end of an Execute step, for a handler's state and exception: no handler touches the queue. -/
theorem concludeExecute_applyHandler {h : HandlerId} {v : View} {L : Nat} {s u : State} {e : Exc}
    (ha : applyHandler h v L s = (u, e)) :
    concludeExecute (applyHandler h v L s) =
      if e = .none then { u with token := .free } else failed .executeFunctionError s.evq u := by
  obtain ⟨_, _, _, _, _, _, _, hu⟩ := applyHandler_frame h v L s
  have hq : u.evq = s.evq := by
    rw [ha] at hu
    rw [show u = _ from hu]
  have hentry : errorEntry .executeFunctionError u = failed .executeFunctionError s.evq u := by
    rw [errorEntry_eq_failed, hq]
  rw [ha, concludeExecute, hentry]; rfl

/-- Settles O37: no handler for the code, or the handler's end. -/
theorem pollExecuteDispatches : Obligations.PollExecuteDispatches := by
  intro s rest he hq v L htx hrx
  have hexec : exec .poll s = .next { executePdu v L { s with evq := rest } with draws := s.draws + 1 } := by
    rw [exec_poll_event he hq, handleEvent_execute]
    exact congrArg Host.Outcome.next (handleExecute_eq (s := { s with evq := rest }) ⟨htx, hrx⟩)
  rw [hexec]
  refine ⟨fun h => ?_, fun h h7 hl u e hbroadcast hunicast => ?_⟩
  · have hentry : executePdu v L { s with evq := rest } = errorEntry .executeFunctionError { s with evq := rest } := by
      obtain h7 | hl := h
      · exact executePdu_exception h7
      · exact executePdu_unknown hl
    rw [hentry, errorEntry_eq_failed]; rfl
  · have ha : applyHandler h v L { s with evq := rest } = (u, e) := by
      rcases Bool.eq_false_or_eq_true s.bcast with hb | hb
      · exact (applyHandler_broadcast (s := { s with evq := rest }) hb).trans (hbroadcast hb).symm
      · obtain ⟨rfl, rfl⟩ := hunicast hb
        exact applyHandler_unicast (s := { s with evq := rest }) hb
    rw [executePdu_handler (s := { s with evq := rest }) h7 hl, concludeExecute_applyHandler ha]
    split <;> rfl

end Sys2Proof.Proofs
end

section
/-! SUPPORT. Proofs about the store writes of the handlers, for the four tables at once (spec/44_pdu_handlers.md R252 to R260,
spec/45_register_store.md R281 to R287): the points a store write leaves, and the write that a request asks for. -/

namespace Sys2Proof.Proofs

open Sys2Proof.Machine Sys2Proof.Claims Sys2Proof.Laws

/-! ### Points of a table -/

/-- The bytes that n points of a table take (R100). -/
def payloadLength : Table → Nat → Nat
  | .coils, n => ceil8 n
  | .disc, n => ceil8 n
  | .hold, n => 2 * n
  | .input, n => 2 * n

/-- `BitsWritten` for a table of bits, `WordsWritten` for a table of words. -/
def PointsWritten : Table → (m m' : Memory) → (slave idx n : Nat) → List Byte → Prop
  | .coils => BitsWritten
  | .disc => BitsWritten
  | .hold => WordsWritten
  | .input => WordsWritten

/-- `BitsWrittenToAll` or `WordsWrittenToAll`. -/
def PointsWrittenToAll : Table → (m m' : Memory) → (maxSlaves idx n : Nat) → List Byte → Prop
  | .coils => BitsWrittenToAll
  | .disc => BitsWrittenToAll
  | .hold => WordsWrittenToAll
  | .input => WordsWrittenToAll

/-- The window of every table of an admitted configuration lies inside the address space (R3). -/
theorem windowOk_windowOf {cfg : Config} (h : configOk cfg) (t : Table) : windowOk (windowOf cfg t) := by
  obtain ⟨-, -, hcoils, hdisc, hhold, hinput, -⟩ := h
  cases t
  · exact hcoils
  · exact hdisc
  · exact hhold
  · exact hinput

/-- What `tableWrite` leaves, point by point, for a payload of the points' length (R284 to R287). -/
theorem pointsWritten_tableWrite (t : Table) (m : Memory) (slave : Nat) {idx n : Nat} {bytes : List Byte}
    (hlen : bytes.length = payloadLength t n) (hfit : idx + n ≤ 65536) :
    PointsWritten t m (tableWrite t m slave idx n bytes) slave idx n bytes := by
  cases t
  · exact fun sl i => bitAt_writeBits m slave idx n bytes hlen hfit sl i
  · exact fun sl i => bitAt_writeBits m slave idx n bytes hlen hfit sl i
  · exact fun sl i => wordAt_writeBytes m slave idx n bytes hlen hfit sl i
  · exact fun sl i => wordAt_writeBytes m slave idx n bytes hlen hfit sl i

theorem getD_take_of_lt {bytes : List Byte} {k n : Nat} (h : k < n) : (bytes.take n).getD k 0#8 = bytes.getD k 0#8 := by
  simp [List.getD_eq_getElem?_getD, List.getElem?_take_of_lt h]

theorem bitsWritten_of_take {m m' : Memory} {slave idx n : Nat} {bytes : List Byte}
    (h : BitsWritten m m' slave idx n (bytes.take (ceil8 n))) : BitsWritten m m' slave idx n bytes := by
  intro sl i hi
  rw [h sl i hi]
  refine if_ctx_congr Iff.rfl (fun hin => ?_) fun _ => rfl
  rw [getD_take_of_lt (by simp only [ceil8]; omega)]

theorem wordsWritten_of_take {m m' : Memory} {slave idx n : Nat} {bytes : List Byte}
    (h : WordsWritten m m' slave idx n (bytes.take (2 * n))) : WordsWritten m m' slave idx n bytes := by
  intro sl i hi
  rw [h sl i hi]
  refine if_ctx_congr Iff.rfl (fun hin => ?_) fun _ => rfl
  rw [getD_take_of_lt (by omega), getD_take_of_lt (by omega)]

/-- Payload bytes beyond those of the points say nothing. -/
theorem pointsWritten_of_take {t : Table} {m m' : Memory} {slave idx n : Nat} {bytes : List Byte}
    (h : PointsWritten t m m' slave idx n (bytes.take (payloadLength t n))) : PointsWritten t m m' slave idx n bytes := by
  cases t
  · exact bitsWritten_of_take h
  · exact bitsWritten_of_take h
  · exact wordsWritten_of_take h
  · exact wordsWritten_of_take h

/-- No slave has been written yet. -/
theorem pointsWrittenToAll_zero (t : Table) (m : Memory) (idx n : Nat) (bytes : List Byte) :
    PointsWrittenToAll t m m 0 idx n bytes := by
  cases t
  iterate 4 exact fun sl i _ => (if_neg (by omega)).symm

/-- Slaves 1 to k, then slave k + 1. -/
theorem pointsWrittenToAll_succ {t : Table} {m m₁ m₂ : Memory} {k idx n : Nat} {bytes : List Byte}
    (h : PointsWrittenToAll t m m₁ k idx n bytes) (h' : PointsWritten t m₁ m₂ (k + 1) idx n bytes) :
    PointsWrittenToAll t m m₂ (k + 1) idx n bytes := by
  have hsplit : ∀ {α : Type} (sl i : Nat) (new old : α),
      (if sl = k + 1 ∧ idx ≤ i ∧ i < idx + n then new
        else if (1 ≤ sl ∧ sl ≤ k) ∧ idx ≤ i ∧ i < idx + n then new else old) =
        if (1 ≤ sl ∧ sl ≤ k + 1) ∧ idx ≤ i ∧ i < idx + n then new else old := by
    intro α sl i new old
    rw [← ite_or]
    exact if_congr (by omega) rfl rfl
  cases t
  iterate 4 exact fun sl i hi => ((h' sl i hi).trans (by rw [h sl i hi])).trans (hsplit ..)

/-! ### The store write of a handler -/

theorem storeWrite_inWindow {s : State} {t : Table} {slave : Byte} {a : Half} {n : Nat} {bytes : List Byte}
    (hcfg : configOk s.cfg) (hin : InWindow s.cfg t slave a n) (hlen : bytes.length = payloadLength t n) :
    ∃ m, storeWrite t slave (storeAddr a) n bytes s = (withTable t m s, .noError) ∧
      PointsWritten t (tableOf t s) m slave.toNat (indexOf s.cfg t a) n bytes := by
  have hidx : storeIndex s.cfg t slave (storeAddr a) n = .ok (indexOf s.cfg t a) :=
    (storeIndex_cases ..).trans (if_pos hin)
  have hwindow := windowOk_windowOf hcfg t
  obtain ⟨-, -, hbase, hend⟩ := hin
  refine ⟨tableWrite t (tableOf t s) slave.toNat (indexOf s.cfg t a) n bytes, by rw [storeWrite, hidx], ?_⟩
  refine pointsWritten_tableWrite t (tableOf t s) slave.toNat hlen ?_
  unfold indexOf; omega

theorem storeWrite_outside {s : State} {t : Table} {slave : Byte} {a : Half} {n : Nat} (bytes : List Byte)
    (hout : ¬ InWindow s.cfg t slave a n) :
    storeWrite t slave (storeAddr a) n bytes s = (s, .noSuchRegister) := by
  have hidx : storeIndex s.cfg t slave (storeAddr a) n = .error .noSuchRegister :=
    (storeIndex_cases ..).trans (if_neg hout)
  rw [storeWrite, hidx]

/-! ### The write that a request asks for -/

/-- The store write that a write request in the send buffer asks for, and the check of its own fields. -/
structure WriteRequest where
  table    : Table
  addr     : Half
  count    : Nat
  payload  : List Byte
  admitted : Prop

/-- The write of each write function (R256 to R260); the other functions ask for none. -/
def writeRequest (s : State) : HandlerId → Option WriteRequest
  | .wsc => some ⟨.coils, reqAddr s, 1, [coilBit (reqCount s)], reqCount s = coilOn ∨ reqCount s = coilOff⟩
  | .wsr => some ⟨.hold, reqAddr s, 1, [hi8 (reqCount s), lo8 (reqCount s)], True⟩
  | .wmc => some ⟨.coils, reqAddr s, (reqCount s).toNat, reqData s (ceil8 (reqCount s).toNat),
      (reqBc s).toNat = ceil8 (reqCount s).toNat⟩
  | .wmr => some ⟨.hold, reqAddr s, (reqCount s).toNat, reqData s (2 * (reqCount s).toNat),
      (reqBc s).toNat = 2 * (reqCount s).toNat⟩
  | .rwmr => some ⟨.hold, rwWaddr s, (rwWcount s).toNat, rwWdata s (2 * (rwWcount s).toNat),
      (rwWbc s).toNat = 2 * (rwWcount s).toNat⟩
  | _ => none

/-- On a broadcast the read/write handler is the write alone (R260, D25). -/
theorem readWrite_broadcast (v : View) (L : Nat) {s : State} (hb : s.bcast = true)
    (hbc : (rwWbc s).toNat = 2 * (rwWcount s).toNat) : runHandler .rwmr v L s = fromStore (readWriteWritePart s) L := by
  have hok : ((s.bcast || readResponseOk v L (2 * (reqCount s).toNat) s) &&
      decide ((rwWbc s).toNat = 2 * (rwWcount s).toNat)) = true := by simp [hb, hbc]
  refine (if_pos hok).trans ?_
  by_cases he : (readWriteWritePart s).2 = .noError
  · refine (if_neg (not_not.mpr he)).trans ((if_pos hb).trans ?_)
    rw [fromStore, he]; rfl
  · exact if_pos he

section
variable {h : HandlerId} {s : State} {r : WriteRequest} (hw : writeRequest s h = some r)
include hw

theorem writeRequest_payload_length : r.payload.length = payloadLength r.table r.count := by
  cases h <;> cases hw
  case wsc => exact (by decide : 1 = ceil8 1)
  case wsr => rfl
  all_goals exact txSlice_length ..

variable {v : View} {L : Nat}

/-- The checks of a write handler passed: its request's store write (R256 to R259, and R260 on a broadcast). -/
theorem runHandler_admitted (hc : s.bcast = true ∨ (L = 5 ∧ h ≠ .rwmr)) (ha : r.admitted) :
    runHandler h v L s =
      fromStore (storeWrite r.table s.destAddr (storeAddr r.addr) r.count r.payload s) L := by
  have hecho : echoOk L s = true := Bool.or_eq_true_iff.mpr (hc.imp id fun h5 => decide_eq_true h5.1)
  cases h <;> cases hw
  case wsc => exact if_pos (Bool.and_eq_true_iff.mpr ⟨hecho, decide_eq_true ha⟩)
  case wsr => exact if_pos hecho
  case wmc => exact if_pos (Bool.and_eq_true_iff.mpr ⟨hecho, decide_eq_true ha⟩)
  case wmr => exact if_pos (Bool.and_eq_true_iff.mpr ⟨hecho, decide_eq_true ha⟩)
  case rwmr =>
    have hb : s.bcast = true := hc.resolve_right fun h5 => h5.2 rfl
    exact readWrite_broadcast v L hb ha

/-- A request whose window is outside the table changes nothing. -/
theorem runHandler_outside (hc : s.bcast = true ∨ (L = 5 ∧ h ≠ .rwmr)) (ha : r.admitted)
    (hout : ¬ InWindow s.cfg r.table s.destAddr r.addr r.count) : runHandler h v L s = ⟨s, .illegalDataAddress, L⟩ := by
  rw [runHandler_admitted hw hc ha, storeWrite_outside _ hout]; rfl

/-- An admitted request whose window is inside the table is written to the addressed slave. -/
theorem runHandler_written (hc : s.bcast = true ∨ (L = 5 ∧ h ≠ .rwmr)) (hcfg : configOk s.cfg) (ha : r.admitted)
    (hin : InWindow s.cfg r.table s.destAddr r.addr r.count) :
    ∃ m, runHandler h v L s = ⟨withTable r.table m s, .none, L⟩ ∧
      PointsWritten r.table (tableOf r.table s) m s.destAddr.toNat (indexOf s.cfg r.table r.addr) r.count r.payload := by
  obtain ⟨m, hwrite, hpoints⟩ := storeWrite_inWindow hcfg hin (writeRequest_payload_length hw)
  exact ⟨m, by rw [runHandler_admitted hw hc ha, hwrite]; rfl, hpoints⟩

/-- A request whose own fields fail the check changes nothing. -/
theorem runHandler_notAdmitted (ha : ¬ r.admitted) : runHandler h v L s = ⟨s, .illegalDataValue, L⟩ := by
  cases h <;> cases hw
  case wsr => exact absurd trivial ha
  all_goals exact if_neg fun hok => ha (of_decide_eq_true (Bool.and_eq_true_iff.mp hok).2)

end

end Sys2Proof.Proofs
end

section
/-! SUPPORT. Proofs about the Execute step of a broadcast (spec/40_dispatcher.md R143, R144): the fan-out of a request to every
configured slave. -/

namespace Sys2Proof.Proofs

open Sys2Proof.Machine Sys2Proof.Claims Sys2Proof.Laws

/-! ### The fan-out (R144) -/

@[simp] theorem withTable_tableOf (t : Table) (s : State) : withTable t (tableOf t s) s = s := by
  cases t <;> rfl

@[simp] theorem withTable_bcast (t : Table) (m : Memory) (s : State) : (withTable t m s).bcast = s.bcast := by
  cases t <;> rfl

/-- For every slave in turn the handler answers `None` and writes at most one table: from a memory with P j, the invocation for
slave j + 1 leaves one with P (j + 1). -/
def WritesInTurn (h : HandlerId) (v : View) (L : Nat) (s : State) (t : Table) (P : Nat → Memory → Prop) : Prop :=
  ∀ j m, j < s.cfg.maxSlaves → P j m → ∃ m', P (j + 1) m' ∧
    runHandler h v L (setAddress (BitVec.ofNat 8 (j + 1)) (withTable t m s)) =
      ⟨setAddress (BitVec.ofNat 8 (j + 1)) (withTable t m' s), .none, L⟩

/-- One iteration sets the address anew, whatever it was. -/
theorem fanOutOne_setAddress {h : HandlerId} {v : View} {L j : Nat} {s u : State} {e e' : Exc} {L' : Nat} (a : Byte)
    (hrun : runHandler h v L (setAddress (BitVec.ofNat 8 j) s) = ⟨u, e', L'⟩) :
    fanOutOne h v L (setAddress a s, e) j = (u, e') := by
  have hset : setAddress (BitVec.ofNat 8 j) (setAddress a s) = setAddress (BitVec.ofNat 8 j) s := rfl
  simp only [fanOutOne, hset, hrun]

/-- The writes of the invocations add up, and the address register ends at the last slave. -/
theorem fanOut_writes {h : HandlerId} {v : View} {L : Nat} {s : State} {t : Table} {P : Nat → Memory → Prop}
    (hm : 1 ≤ s.cfg.maxSlaves) (h0 : P 0 (tableOf t s)) (hstep : WritesInTurn h v L s t P) :
    ∃ m, P s.cfg.maxSlaves m ∧
      fanOut h v L s = (setAddress (BitVec.ofNat 8 s.cfg.maxSlaves) (withTable t m s), .none) := by
  have key : ∀ n ≤ s.cfg.maxSlaves, ∃ m a, P n m ∧ (1 ≤ n → a = BitVec.ofNat 8 n) ∧
      (List.range' 1 n).foldl (fanOutOne h v L) (s, .none) = (setAddress a (withTable t m s), .none) := by
    intro n
    induction n with
    | zero => exact fun _ => ⟨tableOf t s, s.destAddr, h0, nofun, by rw [withTable_tableOf]; rfl⟩
    | succ n ih =>
      intro hn
      obtain ⟨m, a, hP, -, hfold⟩ := ih (by omega)
      obtain ⟨m', hP', hrun⟩ := hstep n m (by omega) hP
      refine ⟨m', BitVec.ofNat 8 (n + 1), hP', fun _ => rfl, ?_⟩
      rw [List.range'_concat, List.foldl_append, hfold, List.foldl_cons, List.foldl_nil, show 1 + 1 * n = n + 1 by omega]
      exact fanOutOne_setAddress a hrun
  obtain ⟨m, a, hP, ha, hfold⟩ := key s.cfg.maxSlaves le_rfl
  exact ⟨m, hP, by rw [fanOut, hfold, ha hm]⟩

/-! ### The Execute step -/

theorem exceptionBit_codeOf (h : HandlerId) : (codeOf h).getLsbD 7 = false := by
  cases h <;> rfl

/-- The Execute step of a broadcast whose handler is in the table, for what the fan-out answers. -/
theorem exec_poll_broadcast {h : HandlerId} {rest : List Event} {s u : State} {e : Exc} (hd : BroadcastDue h rest s)
    (hf : fanOut h .tx s.sndPduLen.toNat { s with evq := rest } = (u, e)) :
    exec .poll s = .next (if e = .none then { u with token := .free, draws := s.draws + 1 }
      else { failed .executeFunctionError rest u with draws := s.draws + 1 }) := by
  obtain ⟨he, hb, -, hq, hcode, hl⟩ := hd
  have hfc : pduByte .tx s 0 = codeOf h := hcode
  have hnot : s.bcast ≠ false := by rw [hb]; decide
  obtain ⟨-, hhandled⟩ := pollExecuteDispatches s rest he hq .tx s.sndPduLen.toNat (fun _ => ⟨rfl, rfl⟩)
    fun hu => absurd hu hnot
  rw [hfc] at hhandled
  exact hhandled h (exceptionBit_codeOf h) hl u e (fun _ => hf.symm) fun hu => absurd hu hnot

theorem broadcastConcluded_eq (t : Table) (m : Memory) (rest : List Event) (s : State) :
    { setAddress (BitVec.ofNat 8 s.cfg.maxSlaves) (withTable t m { s with evq := rest }) with
      token := .free, draws := s.draws + 1 } = BroadcastConcluded t m rest s := by
  cases t <;> rfl

/-- The Execute step of a broadcast that every slave's handler answers with `None` and with at most one table written. -/
theorem exec_poll_broadcastConcluded {h : HandlerId} {rest : List Event} {s : State} {t : Table} {P : Nat → Memory → Prop}
    (hd : BroadcastDue h rest s) (h0 : P 0 (tableOf t s))
    (hstep : WritesInTurn h .tx s.sndPduLen.toNat { s with evq := rest } t P) :
    ∃ m, exec .poll s = .next (BroadcastConcluded t m rest s) ∧ P s.cfg.maxSlaves m := by
  have ⟨_, _, ⟨hm, _⟩, _⟩ := hd
  have h0' : P 0 (tableOf t { s with evq := rest }) := by cases t <;> exact h0
  obtain ⟨m, hP, hf⟩ := fanOut_writes (s := { s with evq := rest }) hm h0' hstep
  refine ⟨m, (exec_poll_broadcast hd hf).trans ?_, hP⟩
  exact congrArg Host.Outcome.next ((if_pos rfl).trans (broadcastConcluded_eq t m rest s))

/-! ### Reads (R250) -/

theorem runHandler_read_broadcast {h : HandlerId} (hr : h = .rc ∨ h = .rdi ∨ h = .rhr ∨ h = .rir) (v : View) (L : Nat)
    {s : State} (hb : s.bcast = true) : runHandler h v L s = ⟨s, .none, L⟩ := by
  obtain rfl | rfl | rfl | rfl := hr
  iterate 4 exact if_pos hb

/-- Settles O39: every invocation of a read handler leaves the state as it is. -/
theorem broadcastReadsTouchNoTable : Obligations.BroadcastReadsTouchNoTable := by
  intro s rest h hr hd
  have ⟨_, hb, _⟩ := hd
  obtain ⟨m, hexec, rfl⟩ := exec_poll_broadcastConcluded (t := .coils) (P := fun _ m => m = s.coils) hd rfl
    (by rintro j m - rfl; exact ⟨s.coils, rfl, runHandler_read_broadcast hr .tx _ hb⟩)
  exact hexec

/-! ### Writes (R256 to R260) -/

/-- A request's fields depend on neither a table nor the address register. -/
theorem writeRequest_withTable (h : HandlerId) (t : Table) (m : Memory) (a : Byte) (s : State) :
    writeRequest (setAddress a (withTable t m s)) h = writeRequest s h := by
  cases t <;> rfl

/-- The write for one slave after the writes for the slaves before it. -/
theorem storeWrite_afterWrites {s : State} {t : Table} {slave : Byte} {a : Half} {n : Nat} {bytes : List Byte} (m : Memory)
    (hcfg : configOk s.cfg) (hin : InWindow s.cfg t slave a n) (hlen : bytes.length = payloadLength t n) :
    ∃ m', storeWrite t slave (storeAddr a) n bytes (setAddress slave (withTable t m s)) =
        (setAddress slave (withTable t m' s), .noError) ∧
      PointsWritten t m m' slave.toNat (indexOf s.cfg t a) n bytes := by
  cases t
  iterate 4 exact storeWrite_inWindow (s := setAddress slave (withTable _ m s)) hcfg hin hlen

theorem toNat_slave {cfg : Config} (hcfg : configOk cfg) {j : Nat} (hj : j ≤ cfg.maxSlaves) : (BitVec.ofNat 8 j).toNat = j := by
  obtain ⟨-, hmax, -⟩ := hcfg
  rw [BitVec.toNat_ofNat]; omega

/-- A window is inside the table for one configured slave as for another (D28). -/
theorem inWindow_slave {cfg : Config} (hcfg : configOk cfg) {j : Nat} (h1 : 1 ≤ j) (hj : j ≤ cfg.maxSlaves) (t : Table)
    (a : Half) (n : Nat) : InWindow cfg t (BitVec.ofNat 8 j) a n ↔ InWindow cfg t 1#8 a n := by
  have hone : (1#8).toNat = 1 := rfl
  simp only [InWindow, toNat_slave hcfg hj, hone]
  omega

section
variable {h : HandlerId} {rest : List Event} {s : State} {r : WriteRequest} (hd : BroadcastDue h rest s)
  (hw : writeRequest s h = some r)
include hd hw

/-- A request that the handlers admit is written to every configured slave. -/
theorem exec_poll_broadcastWrite (ha : r.admitted) (hin : InWindow s.cfg r.table 1#8 r.addr r.count) :
    ∃ m, exec .poll s = .next (BroadcastConcluded r.table m rest s) ∧
      PointsWrittenToAll r.table (tableOf r.table s) m s.cfg.maxSlaves (indexOf s.cfg r.table r.addr) r.count r.payload := by
  have ⟨_, hb, hcfg, _⟩ := hd
  refine exec_poll_broadcastConcluded (P := fun k m =>
    PointsWrittenToAll r.table (tableOf r.table s) m k (indexOf s.cfg r.table r.addr) r.count r.payload)
    hd (pointsWrittenToAll_zero ..) fun j m hj hm => ?_
  have hinj := (inWindow_slave hcfg (Nat.le_add_left 1 j) hj r.table r.addr r.count).mpr hin
  obtain ⟨m', hwrite, hpoints⟩ := storeWrite_afterWrites (s := { s with evq := rest }) m hcfg hinj
    (writeRequest_payload_length hw)
  rw [toNat_slave hcfg (j := j + 1) hj] at hpoints
  refine ⟨m', pointsWrittenToAll_succ hm hpoints, ?_⟩
  have hwj : writeRequest (setAddress (BitVec.ofNat 8 (j + 1)) (withTable r.table m { s with evq := rest })) h = some r :=
    (writeRequest_withTable ..).trans hw
  exact (runHandler_admitted hwj (.inl ((withTable_bcast ..).trans hb)) ha).trans
    (congrArg (fromStore · s.sndPduLen.toNat) hwrite)

/-- A request that the handlers refuse is refused by every slave. -/
theorem exec_poll_broadcastRefused (hno : ¬ (r.admitted ∧ InWindow s.cfg r.table 1#8 r.addr r.count)) :
    exec .poll s = .next (BroadcastFailed rest s) := by
  have ⟨_, hb, hcfg, _⟩ := hd
  have hrefused : ∀ j, 1 ≤ j → j ≤ s.cfg.maxSlaves → ∃ e, e ≠ Exc.none ∧
      runHandler h .tx s.sndPduLen.toNat { s with evq := rest, destAddr := BitVec.ofNat 8 j } =
        ⟨{ s with evq := rest, destAddr := BitVec.ofNat 8 j }, e, s.sndPduLen.toNat⟩ := by
    intro j h1 hj
    have hwj : writeRequest { s with evq := rest, destAddr := BitVec.ofNat 8 j } h = some r := hw
    by_cases ha : r.admitted
    · have hout : ¬ InWindow s.cfg r.table (BitVec.ofNat 8 j) r.addr r.count := fun hin =>
        hno ⟨ha, (inWindow_slave hcfg h1 hj _ _ _).mp hin⟩
      exact ⟨.illegalDataAddress, nofun, runHandler_outside hwj (.inl hb) ha hout⟩
    · exact ⟨.illegalDataValue, nofun, runHandler_notAdmitted hwj ha⟩
  obtain ⟨e, he, hf⟩ := fanOut_refused (s := { s with evq := rest }) hcfg.1 hrefused
  rw [exec_poll_broadcast hd hf, if_neg he]; rfl

end

/-- Settles O38: the request's store write for each slave in turn, or a refusal by each. -/
theorem broadcastWritesEverySlave : Obligations.BroadcastWritesEverySlave := by
  intro s rest
  refine ⟨?wsc, ?wscRefused, ?wsr, ?wsrRefused, ?wmc, ?wmcRefused, ?wmr, ?wmrRefused, ?rwmr, ?rwmrRefused⟩
  case wsr => exact fun hd hin => exec_poll_broadcastWrite hd rfl trivial hin
  case wsrRefused => exact fun hd hout => exec_poll_broadcastRefused hd rfl fun hin => hout hin.2
  case wsc | wmc | wmr | rwmr => exact fun hd ha hin => exec_poll_broadcastWrite hd rfl ha hin
  case wscRefused | wmcRefused | wmrRefused | rwmrRefused => exact fun hd hno => exec_poll_broadcastRefused hd rfl hno

end Sys2Proof.Proofs
end

section
/-! SUPPORT. Proofs about the response rows (spec/40_dispatcher.md R143, spec/44_pdu_handlers.md): each is the Execute step that
finds its PDU accepted, and what that step leaves in unicast. -/

namespace Sys2Proof.Proofs

open Sys2Proof.Machine Sys2Proof.Claims Sys2Proof.Laws

/-! ### A row is an Execute step (R140, R143; log 5) -/

theorem exec_responseRow {i : Instr} {fc : Byte} {data : List Byte} (hi : ResponseRow i fc data) (s : State) :
    exec i s = .next (dispatchResponse (fc :: data) s) := by
  unfold ResponseRow at hi
  obtain ⟨rfl, rfl⟩ | ⟨rfl, rfl⟩ | ⟨rfl, rfl⟩ | ⟨rfl, rfl⟩ | ⟨rfl, rfl⟩ | ⟨rfl, rfl⟩ | ⟨rfl, rfl⟩ | ⟨rfl, rfl⟩ | ⟨rfl, rfl⟩ |
    ⟨rfl, rfl⟩ | rfl | rfl := hi
  iterate 12 rfl

/-- A response PDU is its code and at most 252 bytes (R90). -/
theorem pdu_length_le (fc : Byte) {data : List Byte} (h : data.length ≤ 252) : (fc :: data).length ≤ pduMax :=
  Nat.succ_le_succ h

section
variable {pdu : List Byte} (s : State) (h : pdu.length ≤ pduMax)
include h

theorem holdsResponse_acceptResponse : HoldsResponse pdu s (acceptResponse pdu s) := by
  refine ⟨acceptResponse_len s h, fun k hk => ?_, fun i hi => ?_⟩
  · have hin : 1 ≤ 1 + k ∧ 1 + k < 1 + pdu.length := by omega
    exact (acceptResponse_read pdu s (1 + k) h).trans (by simp only [dif_pos hin, Nat.add_sub_cancel_left])
  · exact (acceptResponse_read pdu s i h).trans (dif_neg (by omega))

theorem pduByte_acceptResponse {k : Nat} (hk : k < pdu.length) : pduByte .rx (acceptResponse pdu s) k = pdu[k] := by
  have h' : pdu.length ≤ 253 := h
  obtain ⟨-, hread, -⟩ := holdsResponse_acceptResponse s h
  exact (if_pos (show 1 + k < 256 by omega)).trans (hread k hk)

theorem pduSlice_acceptResponse {k n : Nat} (hn : k + n ≤ pdu.length) :
    pduSlice .rx (acceptResponse pdu s) k n = (pdu.drop k).take n := by
  refine List.ext_getElem (by simp [pduSlice, rxSlice]; omega) fun j hj _ => ?_
  have hj' : j < n := by simpa [pduSlice, rxSlice] using hj
  simp only [pduSlice, rxSlice, List.getElem_map, List.getElem_range, List.getElem_take, List.getElem_drop, Nat.add_assoc]
  exact pduByte_acceptResponse s h (by omega)

end

/-- Settles O48: an enabled dispatcher runs the Execute step in the state that holds the PDU. -/
theorem responseRowsAreExecuteSteps : Obligations.ResponseRowsAreExecuteSteps := by
  intro i fc data s hi hlen
  rw [exec_responseRow hi]
  refine ⟨fun he => congrArg Host.Outcome.next (if_neg he), fun he => ?_⟩
  refine ⟨acceptResponse (fc :: data) s, holdsResponse_acceptResponse s (pdu_length_le _ hlen), rfl, ?_⟩
  exact (congrArg Host.Outcome.next (if_pos he)).trans
    (exec_poll_event (s := { acceptResponse (fc :: data) s with evq := .execute :: s.evq }) he rfl).symm

/-! ### Unicast -/

section
variable {i : Instr} {s : State} {data : List Byte} (hr : UnicastReady s) (hlen : data.length ≤ 252)
include hr hlen

/-- The Execute step of a row in unicast reads the row's PDU. -/
theorem exec_row_unicast {fc : Byte} (hi : ResponseRow i fc data) :
    exec i s = .next { executePdu .rx (data.length + 1) (acceptResponse (fc :: data) s) with draws := s.draws + 1 } := by
  obtain ⟨hp, hb, -⟩ := hr
  have hreads : ExecuteReads (acceptResponse (fc :: data) s) .rx (data.length + 1) :=
    ⟨fun hu => absurd (hb.symm.trans hu) (by decide),
      fun _ => ⟨rfl, (acceptResponse_len s (pdu_length_le fc hlen)).symm⟩⟩
  rw [exec_responseRow hi, dispatchResponse, if_pos hp, handleExecute_eq hreads]; rfl

/-- An exception response or a code with no handler takes the Error entry. -/
theorem exec_row_rejected {fc : Byte} (hi : ResponseRow i fc data) (hno : fc.getLsbD 7 = true ∨ lookup s.hfn fc = none) :
    exec i s = .next { failed .executeFunctionError s.evq (acceptResponse (fc :: data) s) with draws := s.draws + 1 } := by
  have hfc : pduByte .rx (acceptResponse (fc :: data) s) 0 = fc :=
    pduByte_acceptResponse s (pdu_length_le fc hlen) (Nat.succ_pos _)
  have hentry : executePdu .rx (data.length + 1) (acceptResponse (fc :: data) s) =
      errorEntry .executeFunctionError (acceptResponse (fc :: data) s) := by
    obtain h7 | hl := hno
    · exact executePdu_exception (hfc.symm ▸ h7)
    · exact executePdu_unknown (hfc.symm ▸ hl)
  rw [exec_row_unicast hr hlen hi, hentry]; rfl

/-- A handler that answers `None` releases the token. -/
theorem exec_row_concluded {h : HandlerId} {w : State} {L : Nat} (hl : lookup s.hfn (codeOf h) = some h)
    (hrun : runHandler h .rx (data.length + 1) (acceptResponse (codeOf h :: data) s) = ⟨w, .none, L⟩) :
    exec (rowOf h data) s = .next { w with token := .free, draws := s.draws + 1 } := by
  have hb : (acceptResponse (codeOf h :: data) s).bcast = false := by
    obtain ⟨-, hb, -⟩ := hr
    exact hb
  have hfc : pduByte .rx (acceptResponse (codeOf h :: data) s) 0 = codeOf h :=
    pduByte_acceptResponse s (pdu_length_le (codeOf h) hlen) (Nat.succ_pos _)
  have hpdu : executePdu .rx (data.length + 1) (acceptResponse (codeOf h :: data) s) = tokenRelease w := by
    rw [executePdu_handler (by rw [hfc]; exact exceptionBit_codeOf h) (by rw [hfc]; exact hl), applyHandler_unicast hb, hrun]
    exact if_pos rfl
  rw [exec_row_unicast hr hlen (responseRow_rowOf h data), hpdu]; rfl

/-- The same for a handler that writes one table. -/
theorem concluded_of_runHandler {h : HandlerId} {t : Table} {m : Memory} {L : Nat} (hl : lookup s.hfn (codeOf h) = some h)
    (hrun : runHandler h .rx (data.length + 1) (acceptResponse (codeOf h :: data) s) =
      ⟨withTable t m (acceptResponse (codeOf h :: data) s), .none, L⟩) :
    ∃ u, exec (rowOf h data) s = .next u ∧ Concluded t (codeOf h :: data) m s u := by
  refine ⟨_, exec_row_concluded hr hlen hl hrun, ?_⟩
  have hholds := holdsResponse_acceptResponse s (pdu_length_le (codeOf h) hlen)
  cases t
  iterate 4 exact ⟨hholds, rfl, rfl⟩

end

/-- Settles O53: the Error entry in the state that holds the PDU. -/
theorem rejectedResponsesAreRecorded : Obligations.RejectedResponsesAreRecorded := fun _ s _ _ hr hlen hi hno =>
  ⟨_, exec_row_rejected hr hlen hi hno, holdsResponse_acceptResponse s (pdu_length_le _ hlen), rfl⟩

/-! ### Reads (R252 to R255) -/

/-- The table that a read function fills. -/
def readTable : HandlerId → Option Table
  | .rc => some .coils
  | .rdi => some .disc
  | .rhr => some .hold
  | .rir => some .input
  | _ => none

theorem runHandler_read {h : HandlerId} {t : Table} (ht : readTable h = some t) (v : View) (L : Nat) (s : State) :
    runHandler h v L s = readHandler t (payloadLength t (reqCount s).toNat) v L s := by
  cases h <;> cases ht <;> rfl

/-- A read handler whose checks pass writes the response's payload (R252 to R255). -/
theorem readHandler_written {t : Table} {v : View} {L : Nat} {s : State} (hb : s.bcast = false) (hcfg : configOk s.cfg)
    (hok : readResponseOk v L (payloadLength t (reqCount s).toNat) s = true)
    (hin : InWindow s.cfg t s.destAddr (reqAddr s) (reqCount s).toNat) :
    ∃ m, readHandler t (payloadLength t (reqCount s).toNat) v L s = ⟨withTable t m s, .none, L⟩ ∧
      PointsWritten t (tableOf t s) m s.destAddr.toNat (indexOf s.cfg t (reqAddr s)) (reqCount s).toNat
        (pduSlice v s 2 (payloadLength t (reqCount s).toNat)) := by
  have hlen : (pduSlice v s 2 (payloadLength t (reqCount s).toNat)).length = payloadLength t (reqCount s).toNat := by
    cases v <;> simp [pduSlice, txSlice, rxSlice]
  obtain ⟨m, hwrite, hpoints⟩ := storeWrite_inWindow hcfg hin hlen
  refine ⟨m, ?_, hpoints⟩
  rw [readHandler, hb, if_neg Bool.false_ne_true, if_pos hok, getAddress, hwrite]; rfl

/-- A read response whose byte count is the expected one and whose payload is long enough passes the check (R252 to R255). -/
theorem readResponseOk_acceptResponse {fc bc : Byte} {payload : List Byte} {nb : Nat} (s : State) (hlen : payload.length ≤ 251)
    (hbc : bc.toNat = nb) (hnb : nb ≤ payload.length) :
    readResponseOk .rx ((bc :: payload).length + 1) nb (acceptResponse (fc :: bc :: payload) s) = true := by
  have hbyte : pduByte .rx (acceptResponse (fc :: bc :: payload) s) 1 = bc :=
    pduByte_acceptResponse s (pdu_length_le fc (data := bc :: payload) (Nat.succ_le_succ hlen)) (by simp)
  refine decide_eq_true ⟨by simp, by rw [hbyte, hbc], ?_⟩
  rw [List.length_cons]; omega

/-- The payload of a read response, up to the expected byte count. -/
theorem pduSlice_readPayload {fc bc : Byte} {payload : List Byte} {nb : Nat} (s : State) (hlen : payload.length ≤ 251)
    (hnb : nb ≤ payload.length) : pduSlice .rx (acceptResponse (fc :: bc :: payload) s) 2 nb = payload.take nb :=
  pduSlice_acceptResponse s (pdu_length_le fc (data := bc :: payload) (Nat.succ_le_succ hlen))
    (by simp only [List.length_cons]; omega)

theorem exec_readResponse {s : State} {bc : Byte} {payload : List Byte} {h : HandlerId} {t : Table} (hr : UnicastReady s)
    (hlen : payload.length ≤ 251) (ht : readTable h = some t) (hl : lookup s.hfn (codeOf h) = some h)
    (hbc : bc.toNat = payloadLength t (reqCount s).toNat) (hnb : payloadLength t (reqCount s).toNat ≤ payload.length)
    (hin : InWindow s.cfg t s.destAddr (reqAddr s) (reqCount s).toNat) :
    ∃ u m, exec (rowOf h (bc :: payload)) s = .next u ∧ Concluded t (codeOf h :: bc :: payload) m s u ∧
      PointsWritten t (tableOf t s) m s.destAddr.toNat (indexOf s.cfg t (reqAddr s)) (reqCount s).toNat payload := by
  have ⟨_, hb, hcfg⟩ := hr
  obtain ⟨m, hrun, hpoints⟩ := readHandler_written (s := acceptResponse (codeOf h :: bc :: payload) s) hb hcfg
    (readResponseOk_acceptResponse s hlen hbc hnb) hin
  obtain ⟨u, hexec, hconcluded⟩ := concluded_of_runHandler hr (data := bc :: payload) (Nat.succ_le_succ hlen) hl
    ((runHandler_read ht ..).trans hrun)
  rw [pduSlice_readPayload s hlen (by exact hnb)] at hpoints
  exact ⟨u, m, hexec, hconcluded, pointsWritten_of_take hpoints⟩

/-- Settles O49: the four read functions. -/
theorem readResponsesComplete : Obligations.ReadResponsesComplete := fun _ _ _ hr hlen =>
  ⟨exec_readResponse (h := .rc) hr hlen rfl, exec_readResponse (h := .rdi) hr hlen rfl,
    exec_readResponse (h := .rhr) hr hlen rfl, exec_readResponse (h := .rir) hr hlen rfl⟩

/-! ### Writes (R256 to R259) -/

theorem exec_writeResponse {s : State} {data : List Byte} {h : HandlerId} {r : WriteRequest} (hr : UnicastReady s)
    (hlen : data.length = 4) (hh : h ≠ .rwmr) (hw : writeRequest s h = some r) (hl : lookup s.hfn (codeOf h) = some h)
    (ha : r.admitted) (hin : InWindow s.cfg r.table s.destAddr r.addr r.count) :
    ∃ u m, exec (rowOf h data) s = .next u ∧ Concluded r.table (codeOf h :: data) m s u ∧
      PointsWritten r.table (tableOf r.table s) m s.destAddr.toNat (indexOf s.cfg r.table r.addr) r.count r.payload := by
  have ⟨_, _, hcfg⟩ := hr
  have hw' : writeRequest (acceptResponse (codeOf h :: data) s) h = some r := hw
  obtain ⟨m, hrun, hpoints⟩ :=
    runHandler_written (v := .rx) hw' (.inr ⟨congrArg (· + 1) hlen, hh⟩) hcfg ha hin
  obtain ⟨u, hexec, hconcluded⟩ := concluded_of_runHandler hr (by omega) hl hrun
  exact ⟨u, m, hexec, hconcluded, hpoints⟩

/-- Settles O50: the four write functions. -/
theorem writeResponsesComplete : Obligations.WriteResponsesComplete := fun _ _ hr hlen =>
  ⟨exec_writeResponse (h := .wsc) hr hlen nofun rfl,
    fun hl hin => exec_writeResponse (h := .wsr) hr hlen nofun rfl hl trivial hin,
    exec_writeResponse (h := .wmc) hr hlen nofun rfl, exec_writeResponse (h := .wmr) hr hlen nofun rfl⟩

/-! ### Read/write (R260) -/

/-- The read/write handler in unicast with every check passed: the write, then the read over it. -/
theorem readWrite_unicast {v : View} {L : Nat} {s : State} (hb : s.bcast = false) (hcfg : configOk s.cfg)
    (hok : readResponseOk v L (2 * (reqCount s).toNat) s = true) (hbc : (rwWbc s).toNat = 2 * (rwWcount s).toNat)
    (hwrite : InWindow s.cfg .hold s.destAddr (rwWaddr s) (rwWcount s).toNat)
    (hread : InWindow s.cfg .hold s.destAddr (reqAddr s) (reqCount s).toNat) :
    ∃ m m', runHandler .rwmr v L s = ⟨withTable .hold m' s, .none, L⟩ ∧
      WordsWritten s.hold m s.destAddr.toNat (indexOf s.cfg .hold (rwWaddr s)) (rwWcount s).toNat
        (rwWdata s (2 * (rwWcount s).toNat)) ∧
      WordsWritten m m' s.destAddr.toNat (indexOf s.cfg .hold (reqAddr s)) (reqCount s).toNat
        (pduSlice v s 2 (2 * (reqCount s).toNat)) := by
  have hlen : (pduSlice v s 2 (2 * (reqCount s).toNat)).length = payloadLength .hold (reqCount s).toNat := by
    cases v <;> simp [pduSlice, txSlice, rxSlice, payloadLength]
  obtain ⟨m, hw, hwords⟩ := storeWrite_inWindow hcfg hwrite (txSlice_length s 11 (2 * (rwWcount s).toNat))
  obtain ⟨m', hr, hwords'⟩ := storeWrite_inWindow (s := withTable .hold m s) hcfg hread hlen
  refine ⟨m, m', ?_, hwords, hwords'⟩
  have hpart : readWriteWritePart s = (withTable .hold m s, .noError) := hw
  have hchecks : ((s.bcast || readResponseOk v L (2 * (reqCount s).toNat) s) &&
      decide ((rwWbc s).toNat = 2 * (rwWcount s).toNat)) = true := by simp [hok, hbc]
  refine (if_pos hchecks).trans ?_
  rw [hpart, if_neg (not_not.mpr rfl), hb, if_neg Bool.false_ne_true, getAddress, hr]; rfl

/-- Settles O51: the write, then the read over it. -/
theorem readWriteResponseCompletes : Obligations.ReadWriteResponseCompletes := by
  intro s bc payload hr hlen hl hbc hnb hwbc hwrite hread
  have ⟨_, hb, hcfg⟩ := hr
  obtain ⟨m, m', hrun, hwords, hwords'⟩ := readWrite_unicast (s := acceptResponse (codeOf .rwmr :: bc :: payload) s) hb hcfg
    (readResponseOk_acceptResponse s hlen hbc hnb) hwbc hwrite hread
  obtain ⟨u, hexec, hconcluded⟩ :=
    concluded_of_runHandler hr (h := .rwmr) (data := bc :: payload) (Nat.succ_le_succ hlen) hl hrun
  rw [pduSlice_readPayload s hlen (by exact hnb)] at hwords'
  exact ⟨u, m, m', hexec, hconcluded, hwords, wordsWritten_of_take hwords'⟩

/-! ### Report Slave ID (R262) -/

/-- The receive buffer after the Report Slave ID handler: the slave-ID buffer from index 2. -/
theorem reportSlaveId_read {s : State} (hs : s.sidLen ≤ 252) (i : Nat) :
    Memory.read (pduWrite .rx 1 (sidBytes s) s).rxbuf i =
      if 2 ≤ i ∧ i < 2 + s.sidLen then Memory.read s.sidBuf (i - 2) else Memory.read s.rxbuf i := by
  have hlen : (sidBytes s).length = s.sidLen := by simp [sidBytes]
  refine (read_bufWriteBytes s.rxbuf (1 + 1) i (sidBytes s)).trans ?_
  by_cases hi : 2 ≤ i ∧ i < 2 + s.sidLen
  · rw [dif_pos ⟨hi.1, by omega, by show i < 256; omega⟩, if_pos hi]
    simp [sidBytes]
  · rw [dif_neg (by omega), if_neg hi]

/-- Settles O52: the PDU stands in the receive buffer, and the handler writes over it. -/
theorem reportSlaveIdResponseCompletes : Obligations.ReportSlaveIdResponseCompletes := by
  intro s data hr hlen hs hl
  obtain ⟨hlength, hpdu, hother⟩ :=
    holdsResponse_acceptResponse s (pdu_length_le (codeOf .rsid) hlen)
  have hread := reportSlaveId_read (s := acceptResponse (codeOf .rsid :: data) s) hs
  refine ⟨_, exec_row_concluded (h := .rsid) hr hlen hl rfl, hlength, ?code, fun k hk => ?sid, fun k hk hkeep => ?data,
    fun i hi => ?rest, rfl⟩
  case code => exact (hread 1).trans ((if_neg (by omega)).trans (hpdu 0 (Nat.succ_pos _)))
  case sid =>
    have hin : 2 ≤ 2 + k ∧ 2 + k < 2 + s.sidLen := by omega
    exact (hread (2 + k)).trans ((if_pos hin).trans (by rw [Nat.add_sub_cancel_left]; rfl))
  case data =>
    have hout : ¬ (2 ≤ 2 + k ∧ 2 + k < 2 + s.sidLen) := by omega
    refine (hread (2 + k)).trans ((if_neg hout).trans ?_)
    rw [show 2 + k = 1 + (k + 1) by omega]
    exact hpdu (k + 1) (Nat.succ_lt_succ hk)
  case rest =>
    have hout : ¬ (2 ≤ i ∧ i < 2 + s.sidLen) := by omega
    refine (hread i).trans ((if_neg hout).trans (hother i ?_))
    rw [List.length_cons]; omega

end Sys2Proof.Proofs
end

section
/-! SUPPORT. Proofs about the receive callback and the invariants of the two framing machines (spec/41_rtu_receive.md R170 to R174,
spec/42_rtu_transmit_timer.md R190 to R200). -/

namespace Sys2Proof.Proofs

open Sys2Proof.Machine Sys2Proof.Claims Sys2Proof.Laws

/-! ### PORT rx (R170 to R174) -/

theorem exec_portRx (b : Byte) (s : State) : exec (.portRx b) s = .next (byteReceived b s) := rfl

/-- Settles O27: the byte in each receive state; a position below 256 lies inside the buffer. -/
theorem byteReceivedMoves : Obligations.ByteReceivedMoves := by
  intro s b
  refine ⟨fun hr => ?stopped, fun hr hx => ?discarded, fun hr hx => ?first, fun hr hx hp => ?later, fun hr hx hp => ?overflow⟩
  case stopped => rw [exec_portRx, byteReceived_stopped hr]
  case discarded => rw [exec_portRx, byteReceived_discard hr hx]
  case first =>
    refine ⟨_, congrArg Host.Outcome.next (byteReceived_idle hr hx), fun i => ?_, rfl⟩
    simp [read_bufWrite]
  case later =>
    refine ⟨_, congrArg Host.Outcome.next (byteReceived_receiving hr hx hp), fun i => ?_, rfl⟩
    simp [read_bufWrite, hp]
  case overflow => rw [exec_portRx, byteReceived_overflow hr hx hp]

/-! ### The phases of the two machines

R200 items 1 to 3 leave the pair of machines four phases. Each operation of the framing layer leads from a phase to a phase. -/

/-- The phases, with what the timer and the line are in each. -/
inductive FramingPhase (s : State) : Prop
  | quiet (hrx : s.rxState = .idle) (htx : s.txState = .idle) (ht : s.timer = .off)
  | guarded (hrx : s.rxState ≠ .idle) (htx : s.txState = .idle) (ht : s.timer = .armed .t35)
  | waiting (hrx : s.rxState = .idle) (htx : s.txState = .done) (ht : s.timer = .armed (waitPurpose s))
  | transmitting (hrx : s.rxState = .idle) (htx : s.txState = .transmitting) (hl : s.lineMode = .tx) (ht : s.timer = .off)

/-- A running state meets the invariant exactly when it is in a phase. -/
theorem framingInv_iff_phase (s : State) : FramingInv s ↔ (s.running = true → FramingPhase s) := by
  refine forall_congr' fun _ => ⟨fun ⟨hdone, hsend, hguard, hquiet⟩ => ?_, fun h => ?_⟩
  · cases htx : s.txState with
    | done => exact .waiting (hdone htx).1 htx (hdone htx).2
    | transmitting =>
      obtain ⟨hrx, hl, ht⟩ := hsend htx
      exact .transmitting hrx htx hl ht
    | idle =>
      by_cases hrx : s.rxState = .idle
      · exact .quiet hrx htx (hquiet hrx htx)
      · exact .guarded hrx htx (hguard hrx)
  · cases h with
    | quiet hrx htx ht | guarded hrx htx ht | waiting hrx htx ht => simp [hrx, htx, ht]
    | transmitting hrx htx hl ht => simp [hrx, htx, hl, ht]

theorem FramingPhase.of_transmitting {s : State} (h : FramingPhase s) (htx : s.txState = .transmitting) :
    s.rxState = .idle ∧ s.lineMode = .tx ∧ s.timer = .off := by
  cases h with
  | transmitting hrx _ hl ht => exact ⟨hrx, hl, ht⟩
  | quiet _ htx' | guarded _ htx' | waiting _ htx' => rw [htx] at htx'; cases htx'

/-- A byte in receive mode starts or restarts the guard interval, and ends a wait (R171 to R174). -/
theorem byteReceived_phase {s : State} (h : FramingPhase s) (hr : s.running = true) (hl : s.lineMode = .rx) (b : Byte) :
    FramingPhase (byteReceived b s) := by
  have hfirst (hrx : s.rxState = .idle) (htx : s.txState = .idle ∨ s.txState = .done) : FramingPhase (byteReceived b s) := by
    rw [byteReceived_idle hr hrx]
    refine .guarded (by simp) ?_ rfl
    rcases htx with htx | htx <;> simp [htx]
  cases h with
  | quiet hrx htx => exact hfirst hrx (.inl htx)
  | waiting hrx htx => exact hfirst hrx (.inr htx)
  | transmitting _ _ hl' => rw [hl] at hl'; cases hl'
  | guarded hrx htx =>
    cases hx : s.rxState with
    | idle => exact absurd hx hrx
    | init => rw [byteReceived_discard hr (.inl hx)]; exact .guarded hrx htx rfl
    | error => rw [byteReceived_discard hr (.inr hx)]; exact .guarded hrx htx rfl
    | receiving =>
      by_cases hp : s.rxPos < bufSize
      · rw [byteReceived_receiving hr hx hp]; exact .guarded hrx htx rfl
      · rw [byteReceived_overflow hr hx (Nat.le_of_not_lt hp)]; exact .guarded (by simp) htx rfl

theorem byteReceived_running (b : Byte) (s : State) : (byteReceived b s).running = s.running := by
  obtain ⟨_, _, _, _, _, e⟩ := byteReceived_frame b s
  rw [e]

theorem byteReceived_lineMode (b : Byte) (s : State) : (byteReceived b s).lineMode = s.lineMode := by
  obtain ⟨_, _, _, _, _, e⟩ := byteReceived_frame b s
  rw [e]

theorem receiveBytes_phase (bs : List Byte) {s : State} (h : FramingPhase s) (hr : s.running = true) (hl : s.lineMode = .rx) :
    FramingPhase (bs.foldl (fun t b => byteReceived b t) s) := by
  induction bs generalizing s with
  | nil => exact h
  | cons b bs ih =>
    exact ih (byteReceived_phase h hr hl b) ((byteReceived_running b s).trans hr) ((byteReceived_lineMode b s).trans hl)

/-- After the send part of an expiry nothing is awaited, and the receive machine and the timer are as before. -/
theorem timerExpiredTx_idle {s : State} (htx : s.txState ≠ .transmitting) :
    (timerExpiredTx s).txState = .idle ∧ (timerExpiredTx s).rxState = s.rxState ∧ (timerExpiredTx s).timer = s.timer := by
  unfold timerExpiredTx
  cases h : s.txState with
  | idle => exact ⟨h, rfl, rfl⟩
  | transmitting => exact absurd h htx
  | done => cases s.bcast <;> exact ⟨rfl, rfl, rfl⟩

/-- An expiry outside a transmission ends what the timer was armed for: both machines are idle after it (R198, R199). -/
theorem portTimerExpiry_quiet {s : State} {p : TimerPurpose} (ht : s.timer = .armed p) (hr : s.running = true)
    (htx : s.txState ≠ .transmitting) : FramingPhase (portTimerExpiry s) := by
  obtain ⟨hrxIdle, htxKept, htimerKept, -⟩ := timerExpiredRx_idle (timerDisable s)
  obtain ⟨htxIdle, hrxKept, htimerKept'⟩ :=
    timerExpiredTx_idle (s := timerExpiredRx (timerDisable s)) (by rw [htxKept]; exact htx)
  rw [portTimerExpiry_armed ht hr]
  exact .quiet (hrxKept.trans hrxIdle) htxIdle (htimerKept'.trans htimerKept)

theorem portTimerExpiry_phase {s : State} (h : FramingPhase s) (hr : s.running = true) : FramingPhase (portTimerExpiry s) := by
  cases h with
  | quiet hrx htx ht => rw [portTimerExpiry_off ht]; exact .quiet hrx htx ht
  | transmitting hrx htx hl ht => rw [portTimerExpiry_off ht]; exact .transmitting hrx htx hl ht
  | guarded _ htx ht => exact portTimerExpiry_quiet ht hr (by simp [htx])
  | waiting _ htx ht => exact portTimerExpiry_quiet ht hr (by simp [htx])

theorem receiveFrame_phase (bs : List Byte) {s : State} (h : FramingPhase s) (hr : s.running = true) (hl : s.lineMode = .rx) :
    FramingPhase (receiveFrame bs s) := by
  refine portTimerExpiry_phase (receiveBytes_phase bs h hr hl) ?_
  obtain ⟨_, _, _, _, _, e⟩ := receiveBytes_frame bs s
  rw [e]; exact hr

/-- A transmitter-empty callback goes on with the transmission, or ends it in the wait (R195, R196). -/
theorem transmitterEmpty_phase {s : State} (h : FramingPhase s) : FramingPhase (transmitterEmpty s) := by
  rcases transmitterEmpty_cases s with e | ⟨-, htx, hsend⟩
  · rw [e]; exact h
  obtain ⟨hrx, hl, ht⟩ := h.of_transmitting htx
  obtain ⟨-, e⟩ | ⟨-, e⟩ := hsend
  · rw [e]; exact .transmitting hrx htx hl ht
  · rw [e]; exact .waiting hrx rfl rfl

/-! ### The invariant, operation by operation -/

theorem framingInv_of_stopped {s : State} (h : s.running = false) : FramingInv s := fun hr => by
  rw [h] at hr; cases hr

/-- A step that neither starts nor stops the block, and leads from a phase to a phase, keeps the invariant. -/
theorem framingInv_of_phase {s t : State} (h : FramingInv s) (hrun : t.running = s.running)
    (hstep : s.running = true → FramingPhase s → FramingPhase t) : FramingInv t := by
  rw [framingInv_iff_phase] at h ⊢
  rw [hrun]
  exact fun hr => hstep hr (h hr)

theorem handleFrameReceived_framingInv {s : State} (h : FramingInv s) : FramingInv (handleFrameReceived s) := by
  obtain ⟨_, _, _, _, e⟩ := handleFrameReceived_frame s
  rw [e]; exact h

theorem handleExecute_framingInv {s : State} (h : FramingInv s) : FramingInv (handleExecute s) := by
  obtain ⟨_, _, _, _, _, _, _, _, _, _, _, _, e⟩ := handleExecute_frame s
  rw [e]; exact h

/-- `Send` finds the timer off, because both machines are idle (R193). -/
theorem handleFrameSent_framingInv {s : State} (h : FramingInv s) (htx : s.txState = .idle) :
    FramingInv (handleFrameSent s) := by
  by_cases hlen : s.sndPduLen.toNat ≤ pduMax
  · by_cases hrx : s.rxState = .idle
    · rw [handleFrameSent_sent hlen hrx, framingInv_iff_phase]
      intro hr
      obtain ⟨-, -, -, hquiet⟩ := h hr
      exact .transmitting hrx rfl rfl (hquiet hrx htx)
    · rw [handleFrameSent_rejected hlen hrx]; exact h
  · rw [handleFrameSent_oversize (Nat.lt_of_not_le hlen)]; exact h

theorem handleEvent_framingInv {s : State} (h : FramingInv s) {ev : Event} (hsend : ev = .frameSent → s.txState = .idle) :
    FramingInv (handleEvent ev s) := by
  cases ev with
  | ready => exact h
  | frameReceived => exact handleFrameReceived_framingInv h
  | execute => exact handleExecute_framingInv h
  | frameSent => exact handleFrameSent_framingInv h (hsend rfl)
  | error => exact h

theorem dispatchResponse_framingInv {s : State} (h : FramingInv s) (pdu : List Byte) : FramingInv (dispatchResponse pdu s) := by
  unfold dispatchResponse
  split
  · have haccepted : FramingInv (acceptResponse pdu s) := h
    exact handleExecute_framingInv haccepted
  · exact h

theorem initPort_running {s : State} (hr : s.running = false) : (initPort s).running = false := by
  unfold initPort
  split
  · exact hr
  split
  · exact hr
  split
  · rfl
  · rfl

/-- A block not yet initialised does not run (R34), so `Init` has no machine to disturb. -/
theorem init_framingInv {s : State} (hlife : LifecycleInv s) (h : FramingInv s) (arg : InitArg) : FramingInv (init arg s) := by
  unfold init
  split
  · exact h
  case isFalse hp =>
    have hr : s.running = false := by
      rw [← Bool.not_eq_true, hlife.1, not_not.mp hp]; decide
    split
    · exact h
    · exact framingInv_of_stopped (initPort_running hr)
    · exact h
    · exact h

theorem enable_framingInv {s : State} (h : FramingInv s) : FramingInv (enable s) := by
  by_cases hp : s.protoState = .disabled
  · rw [enable_disabled hp, framingInv_iff_phase]
    exact fun _ => .guarded (by simp [start]) rfl rfl
  · rw [enable_notDisabled hp]; exact h

theorem disable_framingInv {s : State} (h : FramingInv s) : FramingInv (disable s) := by
  cases hp : s.protoState with
  | notInitialized => rw [disable_notInitialized hp]; exact h
  | disabled => rw [disable_disabled hp]; exact h
  | enabled => rw [disable_enabled hp]; exact framingInv_of_stopped rfl

theorem setSlaveId_framingInv {s : State} (h : FramingInv s) (id : Byte) (running : Bool) (extra : List Byte) :
    FramingInv (setSlaveId id running extra s) := by
  unfold setSlaveId
  split <;> exact h

theorem requestCommon_framingInv {s : State} (h : FramingInv s) (hid : HandlerId) (slave : Byte) (ok : Bool) (pdu : List Byte) :
    FramingInv (requestCommon hid slave ok pdu s) := by
  obtain ⟨_, _, _, _, _, _, _, _, e⟩ := requestCommon_frame hid slave ok pdu s
  rw [e]; exact h

/-- Only the lifecycle calls start or stop the block. -/
theorem Effect.running_eq {i : Instr} {s t : State} (he : Effect s i t) (hi : ¬ (IsInit i ∨ i = .appEnable ∨ i = .appDisable)) :
    t.running = s.running :=
  not_imp_comm.mp he.controlWriters.running hi

/-- Settles O56: the callbacks lead from phase to phase, and the other operations leave the machines alone or start them anew. -/
theorem framingInvariantKept : Obligations.FramingInvariantKept := by
  intro i s t hlife h hport hsend hexec
  have he := effect_of_exec hexec
  have hrun := he.running_eq
  cases he with
  | request hid slave ok pdu => exact requestCommon_framingInv h hid slave ok pdu
  | noBuilder => exact h
  | response => exact dispatchResponse_framingInv h _
  | frame a pdu lo hi =>
    refine framingInv_of_phase h (hrun (by simp [IsInit])) fun hr hp => ?_
    obtain ⟨-, -, hline⟩ := hport hr
    exact receiveFrame_phase _ hp hr (hline a pdu lo hi rfl).2
  | init arg => exact init_framingInv hlife h arg
  | enable => exact enable_framingInv h
  | disable => exact disable_framingInv h
  | setSlaveId id running extra => exact setSlaveId_framingInv h id running extra
  | storeRead => exact h
  | pollIdle => exact h
  | @pollEvent ev rest henabled hq =>
    have hdequeued : FramingInv { s with evq := rest } := h
    exact handleEvent_framingInv hdequeued fun hev => hsend rfl henabled (by rw [hq, hev]; rfl)
  | byte b =>
    refine framingInv_of_phase h (hrun (by simp [IsInit])) fun hr hp => ?_
    obtain ⟨hline, -, -⟩ := hport hr
    exact byteReceived_phase hp hr (hline b rfl).2 b
  | transmitterEmpty => exact framingInv_of_phase h (hrun (by simp [IsInit])) fun _ => transmitterEmpty_phase
  | expiry => exact framingInv_of_phase h (hrun (by simp [IsInit])) fun hr hp => portTimerExpiry_phase hp hr

end Sys2Proof.Proofs
end

section
/-! SUPPORT. Proofs about the transmitter-empty and the timer callback (spec/42_rtu_transmit_timer.md R194 to R200, R333). -/

namespace Sys2Proof.Proofs

open Sys2Proof.Machine Sys2Proof.Claims Sys2Proof.Laws

/-! ### PORT txe (R194 to R197) -/

theorem exec_portTxe (s : State) : exec .portTxe s = .next (transmitterEmpty s) := rfl

theorem txByte_inside {s : State} {i : Nat} (h : i < bufSize) : txByte s i = Memory.read s.txbuf i := if_pos h

/-- With bytes left, the one at the cursor goes to the wire (R195). -/
theorem txNextByte_eq {s : State} (h : s.txCur < bufSize) :
    txNextByte s = { s with
      wire := s.wire ++ [Memory.read s.txbuf s.txCur], txCur := s.txCur + 1, txRem := s.txRem - 1 } := by
  rw [txNextByte, txByte_inside h]; rfl

theorem broadcastLatch_eq (s : State) : broadcastLatch s = decide (Memory.read s.txbuf 0 = 0x00#8) := by
  rw [broadcastLatch, txByte_inside (by decide)]

/-- The turnaround: the timer is armed for what the address byte of the sent frame calls for (R196). -/
theorem txEnd_eq (s : State) :
    txEnd s = { s with
      bcast := decide (Memory.read s.txbuf 0 = 0x00#8), lineMode := .rx, txState := .done
      timer := .armed (if Memory.read s.txbuf 0 = 0x00#8 then .convertDelay else .respondTimeout) } := by
  simp only [txEnd, broadcastLatch_eq, decide_eq_true_eq]; rfl

/-- Settles O28: nothing to do, the next byte, or the end of the transmission. -/
theorem transmitterEmptyMoves : Obligations.TransmitterEmptyMoves := by
  intro s
  refine ⟨fun hstill => ?still, fun hr htx hleft hcur => ?next, fun hr htx hnone => ?turnaround⟩
  case still => rw [exec_portTxe, transmitterEmpty_still hstill]
  case next => rw [exec_portTxe, transmitterEmpty_next hr htx hleft, txNextByte_eq hcur]
  case turnaround => rw [exec_portTxe, transmitterEmpty_end hr htx hnone, txEnd_eq]

/-! ### PORT tmo (R198, R199, R333) -/

theorem exec_portTmo (s : State) : exec .portTmo s = .next (portTimerExpiry s) := rfl

theorem portTimerExpiry_stopped {s : State} {p : TimerPurpose} (ht : s.timer = .armed p) (hr : s.running = false) :
    portTimerExpiry s = { s with timer := .off } := by
  simp [portTimerExpiry, ht, timerExpired, timerDisable, hr]

/-! The receive part, state by state (R198). -/

theorem timerExpiredRx_of_init {s : State} (h : s.rxState = .init) :
    timerExpiredRx s = { post .ready s with rxState := .idle } := by
  simp only [timerExpiredRx, h]

theorem timerExpiredRx_of_receiving {s : State} (h : s.rxState = .receiving) :
    timerExpiredRx s = { post .frameReceived s with rxState := .idle } := by
  simp only [timerExpiredRx, h]

theorem timerExpiredRx_of_error {s : State} (h : s.rxState = .error) :
    timerExpiredRx s = { errorEntry .receiveDataError s with rxState := .idle } := by
  simp only [timerExpiredRx, h]

theorem timerExpiredRx_of_idle {s : State} (h : s.rxState = .idle) : timerExpiredRx s = s := by
  simp only [timerExpiredRx, h]

/-! The send part, state by state (R199). -/

theorem timerExpiredTx_of_timeout {s : State} (htx : s.txState = .done) (hb : s.bcast = false) :
    timerExpiredTx s = { errorEntry .respondTimeout s with txState := .idle } := by
  simp [timerExpiredTx, htx, hb]

theorem timerExpiredTx_of_broadcast {s : State} (htx : s.txState = .done) (hb : s.bcast = true) :
    timerExpiredTx s = { post .execute s with txState := .idle } := by
  simp [timerExpiredTx, htx, hb]

theorem timerExpiredTx_of_notDone {s : State} (htx : s.txState ≠ .done) : timerExpiredTx s = s := by
  cases h : s.txState with
  | idle | transmitting => simp only [timerExpiredTx, h]
  | done => exact absurd h htx

/-- Settles O30: the middle state is the receive part's, on the state with the timer disarmed. -/
theorem timerExpiryMoves : Obligations.TimerExpiryMoves := by
  intro s p
  refine ⟨fun ht hr => ?stopped, fun ht hr => ⟨timerExpiredRx (timerDisable s), _,
    congrArg Host.Outcome.next (portTimerExpiry_armed ht hr), fun hrx => ?init, fun hrx => ?receiving, fun hrx => ?error,
    fun hrx => ?idle, fun htx hb => ?timeout, fun htx hb => ?broadcast, timerExpiredTx_of_notDone⟩⟩
  case stopped => rw [exec_portTmo, portTimerExpiry_stopped ht hr]
  case init => exact timerExpiredRx_of_init (s := timerDisable s) hrx
  case receiving => exact timerExpiredRx_of_receiving (s := timerDisable s) hrx
  case error => exact timerExpiredRx_of_error (s := timerDisable s) hrx
  case idle => exact timerExpiredRx_of_idle (s := timerDisable s) hrx
  case timeout => exact timerExpiredTx_of_timeout htx hb
  case broadcast => exact timerExpiredTx_of_broadcast htx hb

/-! ### One expiry, one event (R200 item 4) -/

theorem post_evq_length_le (ev : Event) (s : State) : (post ev s).evq.length ≤ s.evq.length + 1 := by
  rw [post_evq]
  split
  · rw [List.length_append, List.length_singleton]
  · exact Nat.le_succ _

theorem errorEntry_evq_length_le (v : ErrorEvent) (s : State) : (errorEntry v s).evq.length ≤ s.evq.length + 1 :=
  post_evq_length_le .error { s with errEvent := some v }

/-- The receive part posts at most one event. -/
theorem timerExpiredRx_evq_length_le (s : State) : (timerExpiredRx s).evq.length ≤ s.evq.length + 1 := by
  cases hrx : s.rxState with
  | init => rw [timerExpiredRx_of_init hrx]; exact post_evq_length_le .ready s
  | receiving => rw [timerExpiredRx_of_receiving hrx]; exact post_evq_length_le .frameReceived s
  | error => rw [timerExpiredRx_of_error hrx]; exact errorEntry_evq_length_le .receiveDataError s
  | idle => rw [timerExpiredRx_of_idle hrx]; exact Nat.le_succ _

/-- The send part posts at most one event. -/
theorem timerExpiredTx_evq_length_le (s : State) : (timerExpiredTx s).evq.length ≤ s.evq.length + 1 := by
  by_cases htx : s.txState = .done
  · cases hb : s.bcast with
    | false => rw [timerExpiredTx_of_timeout htx hb]; exact errorEntry_evq_length_le .respondTimeout s
    | true => rw [timerExpiredTx_of_broadcast htx hb]; exact post_evq_length_le .execute s
  · rw [timerExpiredTx_of_notDone htx]; exact Nat.le_succ _

/-- In no phase do both parts of an expiry post: a pending guard leaves the send part nothing to end, and a wait finds the receive
machine idle. -/
theorem portTimerExpiry_evq_length_le {s : State} (h : FramingPhase s) (hr : s.running = true) :
    (portTimerExpiry s).evq.length ≤ s.evq.length + 1 := by
  cases h with
  | quiet _ _ ht | transmitting _ _ _ ht => rw [portTimerExpiry_off ht]; exact Nat.le_succ _
  | guarded _ htx ht =>
    obtain ⟨-, htxKept, -⟩ := timerExpiredRx_idle (timerDisable s)
    have hnotDone : (timerExpiredRx (timerDisable s)).txState ≠ .done := by rw [htxKept, timerDisable_txState, htx]; simp
    rw [portTimerExpiry_armed ht hr, timerExpiredTx_of_notDone hnotDone]
    exact timerExpiredRx_evq_length_le (timerDisable s)
  | waiting hrx _ ht =>
    rw [portTimerExpiry_armed ht hr, timerExpiredRx_of_idle (s := timerDisable s) hrx]
    exact timerExpiredTx_evq_length_le (timerDisable s)

/-- Settles O57: an expiry in each phase; while transmitting the timer is off. -/
theorem oneExpiryPostsOneEvent : Obligations.OneExpiryPostsOneEvent := by
  refine ⟨fun s t hinv hr hexec => ?_, fun s ht => by rw [exec_portTmo, portTimerExpiry_off ht]⟩
  have hphase : FramingPhase s := (framingInv_iff_phase s).mp hinv hr
  obtain rfl : portTimerExpiry s = t := Host.Outcome.next.inj hexec
  refine ⟨portTimerExpiry_evq_length_le hphase hr, fun htx => ?_⟩
  obtain ⟨-, -, ht⟩ := hphase.of_transmitting htx
  exact portTimerExpiry_off ht

end Sys2Proof.Proofs
end

section
/-! SUPPORT. Proofs about `SetSlaveId` (spec/43_pdu_requests.md R230) and about the builders of the API (R221 to R229): each builds
the PDU layout that R95 and R100 write out. -/

namespace Sys2Proof.Proofs

open Sys2Proof.Machine Sys2Proof.Claims Sys2Proof.Laws

/-! ### SetSlaveId (R230) -/

section
variable {id : Byte} {running : Bool} {extra : List Byte} {s : State}

theorem setSlaveId_of_tooLong (h : s.cfg.repSlaveIdSize < extra.length + 2) :
    setSlaveId id running extra s = returnsCode .insufficientResources s := if_pos h

theorem setSlaveId_of_fits (h : extra.length + 2 ≤ s.cfg.repSlaveIdSize) :
    setSlaveId id running extra s = returnsCode .noError { s with
      sidBuf := Memory.writeBytes s.sidBuf 0 (id :: runningByte running :: extra), sidLen := extra.length + 2 } :=
  if_neg (Nat.not_lt.mpr h)

end

theorem read_writeBytes_inside (m : Memory) {bs : List Byte} {k : Nat} (hk : k < bs.length) :
    Memory.read (Memory.writeBytes m 0 bs) k = bs[k] :=
  (read_writeBytes m 0 k bs).trans (dif_pos (by omega))

theorem read_writeBytes_beyond (m : Memory) {bs : List Byte} {k : Nat} (hk : bs.length ≤ k) :
    Memory.read (Memory.writeBytes m 0 bs) k = Memory.read m k :=
  (read_writeBytes m 0 k bs).trans (dif_neg (by omega))

/-- Settles O21: the buffer is one write of the id, the running byte and the extra bytes at address 0. -/
theorem setSlaveIdAnswers : Obligations.SetSlaveIdAnswers := by
  intro s id running extra
  refine ⟨fun hlong => congrArg Host.Outcome.next (setSlaveId_of_tooLong hlong), fun hfits => ?_⟩
  have hlen : (id :: runningByte running :: extra).length = 2 + extra.length := Nat.add_comm _ 2
  refine ⟨_, congrArg Host.Outcome.next (setSlaveId_of_fits hfits), ?_, ?_, fun k hk => ?_, fun i hi => ?_, rfl⟩
  · exact read_writeBytes_inside _ (by omega)
  · exact read_writeBytes_inside _ (by omega)
  · refine (read_writeBytes_inside _ (by omega)).trans ?_
    simp only [Nat.add_comm 2 k, List.getElem_cons_succ]
  · exact read_writeBytes_beyond _ (by omega)

/-! ### Builders of two fields (R221 to R226) -/

/-- Settles O22: each builder is `requestCommon` with its count bound and its PDU of two fields. -/
theorem readRequestsBuild : Obligations.ReadRequestsBuild := fun _ _ _ _ =>
  ⟨builderAnswers_twoFields rfl (countOk_iff ..), builderAnswers_twoFields rfl (countOk_iff ..),
    builderAnswers_twoFields rfl (countOk_iff ..), builderAnswers_twoFields rfl (countOk_iff ..)⟩

/-- Settles O23: the coil builder checks its value, the register builder admits every one. -/
theorem singleWriteRequestsBuild : Obligations.SingleWriteRequestsBuild := fun _ _ _ _ =>
  ⟨builderAnswers_twoFields rfl decide_eq_true_iff, builderAnswers_twoFields rfl (iff_of_true rfl trivial)⟩

/-! ### Builders with data (R227 to R229)

The model counts the data it took from the payload, R100 counts what the count asks for: the two agree when the payload is long
enough, which the builders check. -/

/-- A builder's PDU matters only for the arguments it admits. -/
theorem builderAnswers_congr_pdu {h : HandlerId} {slave : Byte} {argsOk : Prop} {pdu pdu' : List Byte} {i : Instr} {s : State}
    (hb : BuilderAnswers h slave argsOk pdu i s) (hpdu : argsOk → pdu = pdu') : BuilderAnswers h slave argsOk pdu' i s := by
  obtain ⟨hrefused, hinvalid, hbusy, hsubmit⟩ := hb
  exact ⟨hrefused, hinvalid, hbusy, fun hf hs ha ht => hpdu ha ▸ hsubmit hf hs ha ht⟩

theorem countedBytes_take_bits {bits : List Byte} {n : Nat} (h : n ≤ bits.length) :
    countedBytes (bits.take n) = BitVec.ofNat 8 n :: bits.take n := by
  rw [countedBytes, List.length_take_of_le h]

theorem countedBytes_take_values {values : List Half} {n : Nat} (h : n ≤ values.length) :
    countedBytes (beBytes (values.take n)) = BitVec.ofNat 8 (2 * n) :: beBytes (values.take n) := by
  rw [countedBytes, beBytes_length, List.length_take_of_le h]

theorem pduWithData_eq_coilsPdu {a n : Half} {bits : List Byte} (h : ceil8 n.toNat ≤ bits.length) :
    pduWithData .wmc a n (bits.take (ceil8 n.toNat)) = coilsPdu a n bits := by
  rw [pduWithData, countedBytes_take_bits h]; rfl

theorem pduWithData_eq_registersPdu {a n : Half} {values : List Half} (h : n.toNat ≤ values.length) :
    pduWithData .wmr a n (beBytes (values.take n.toNat)) = registersPdu a n values := by
  rw [pduWithData, countedBytes_take_values h]; rfl

theorem pduReadWrite_eq_readWritePdu {ra rn wa wn : Half} {values : List Half} (h : wn.toNat ≤ values.length) :
    pduReadWrite ra rn wa wn (beBytes (values.take wn.toNat)) = readWritePdu ra rn wa wn values := by
  rw [pduReadWrite, countedBytes_take_values h]; rfl

/-- Settles O24: for admitted arguments the model's PDUs are those of R95 with the byte counts of R100. -/
theorem multipleWriteRequestsBuild : Obligations.MultipleWriteRequestsBuild := fun s slave addr count bits values =>
  ⟨builderAnswers_congr_pdu (builderAnswers_writeMultipleCoils s slave addr count bits)
      fun ⟨_, hbits⟩ => pduWithData_eq_coilsPdu hbits,
    builderAnswers_congr_pdu (builderAnswers_writeMultipleRegisters s slave addr count values)
      fun ⟨_, hvalues⟩ => pduWithData_eq_registersPdu hvalues⟩

/-- Settles O25: for admitted arguments the model's PDU is that of R95 with the write byte count of R100. -/
theorem readWriteRequestBuilds : Obligations.ReadWriteRequestBuilds := fun s slave raddr rcount waddr wcount values =>
  builderAnswers_congr_pdu (builderAnswers_readWriteRegisters s slave raddr rcount waddr wcount values)
    fun ⟨_, _, hvalues⟩ => pduReadWrite_eq_readWritePdu hvalues

end Sys2Proof.Proofs
end

section
/-! SUPPORT. Proofs about the response handlers (spec/44_pdu_handlers.md R250 to R262): what each answers in each of its cases, and
what all of them leave alone. -/

namespace Sys2Proof.Proofs

open Sys2Proof.Machine Sys2Proof.Claims Sys2Proof.Laws

/-! ### Store errors (R251) -/

/-- Settles O46: the errors that R251 does not name are the six that remain. -/
theorem storeErrorsBecomeExceptions : Obligations.StoreErrorsBecomeExceptions := by
  refine ⟨rfl, rfl, rfl, fun e hnone hregister htimeout => ?_⟩
  cases e
  case noError => exact absurd rfl hnone
  case noSuchRegister => exact absurd rfl hregister
  case timeout => exact absurd rfl htimeout
  all_goals rfl

/-! ### Report Slave ID (R262) -/

/-- Settles O45: the receive buffer after the handler, at the bytes of the slave-ID buffer and at the others. -/
theorem reportSlaveIdHandler : Obligations.ReportSlaveIdHandler := by
  intro L s hs
  refine ⟨_, rfl, fun k hk => ?_, fun i hi => ?_⟩
  · have hin : 2 ≤ 2 + k ∧ 2 + k < 2 + s.sidLen := by omega
    exact (reportSlaveId_read hs (2 + k)).trans ((if_pos hin).trans (by rw [Nat.add_sub_cancel_left]))
  · exact (reportSlaveId_read hs i).trans (if_neg (by omega))

/-! ### Reads (R250, R252 to R255) -/

theorem readHandler_unicast {t : Table} {nb : Nat} {v : View} {L : Nat} {s : State} (hb : s.bcast = false)
    (hok : readResponseOk v L nb s = true) :
    readHandler t nb v L s =
      fromStore (storeWrite t s.destAddr (storeAddr (reqAddr s)) (reqCount s).toNat (pduSlice v s 2 nb) s) L := by
  rw [readHandler, hb, if_neg Bool.false_ne_true, if_pos hok, getAddress]

theorem readHandler_rejected {t : Table} {nb : Nat} {v : View} {L : Nat} {s : State} (hb : s.bcast = false)
    (hno : ¬ readResponseOk v L nb s = true) : readHandler t nb v L s = ⟨s, .illegalDataValue, L⟩ := by
  rw [readHandler, hb, if_neg Bool.false_ne_true, if_neg hno]

/-- The outcomes of a read handler in unicast: the response's check, then the store's. -/
theorem runHandler_readUnicast {h : HandlerId} {t : Table} (ht : readTable h = some t) (v : View) (L : Nat) {s : State}
    (hcfg : configOk s.cfg) (hb : s.bcast = false) {nb : Nat} (hnb : nb = payloadLength t (reqCount s).toNat) :
    (¬ (2 ≤ L ∧ (pduByte v s 1).toNat = nb ∧ 2 + nb ≤ L) → runHandler h v L s = ⟨s, .illegalDataValue, L⟩) ∧
    (2 ≤ L ∧ (pduByte v s 1).toNat = nb ∧ 2 + nb ≤ L →
      (¬ InWindow s.cfg t s.destAddr (reqAddr s) (reqCount s).toNat → runHandler h v L s = ⟨s, .illegalDataAddress, L⟩) ∧
      (InWindow s.cfg t s.destAddr (reqAddr s) (reqCount s).toNat →
        ∃ m, runHandler h v L s = ⟨withTable t m s, .none, L⟩ ∧
          PointsWritten t (tableOf t s) m s.destAddr.toNat (indexOf s.cfg t (reqAddr s)) (reqCount s).toNat
            (pduSlice v s 2 nb))) := by
  subst hnb
  rw [runHandler_read ht]
  refine ⟨fun hno => readHandler_rejected hb (mt of_decide_eq_true hno), fun hok => ⟨fun hout => ?_, fun hin => ?_⟩⟩
  · rw [readHandler_unicast hb (decide_eq_true hok), storeWrite_outside _ hout]; rfl
  · exact readHandler_written hb hcfg (decide_eq_true hok) hin

/-- Settles O40: the two read functions of the bit tables. -/
theorem bitReadHandlers : Obligations.BitReadHandlers := by
  rintro h t v L s (⟨rfl, rfl⟩ | ⟨rfl, rfl⟩) hcfg
  · exact ⟨runHandler_read_broadcast (.inl rfl) v L, fun hb _ => runHandler_readUnicast (h := .rc) rfl v L hcfg hb⟩
  · exact ⟨runHandler_read_broadcast (.inr (.inl rfl)) v L, fun hb _ => runHandler_readUnicast (h := .rdi) rfl v L hcfg hb⟩

/-- Settles O41: the two read functions of the word tables. -/
theorem wordReadHandlers : Obligations.WordReadHandlers := by
  rintro h t v L s (⟨rfl, rfl⟩ | ⟨rfl, rfl⟩) hcfg
  · exact ⟨runHandler_read_broadcast (.inr (.inr (.inl rfl))) v L, fun hb _ => runHandler_readUnicast (h := .rhr) rfl v L hcfg hb⟩
  · exact ⟨runHandler_read_broadcast (.inr (.inr (.inr rfl))) v L, fun hb _ => runHandler_readUnicast (h := .rir) rfl v L hcfg hb⟩

/-! ### Writes (R256 to R259) -/

section
variable {h : HandlerId} {s : State} {r : WriteRequest} (hw : writeRequest s h = some r) (hh : h ≠ .rwmr) {v : View} {L : Nat}
include hw hh

/-- A unicast response that has not the length of the echo changes nothing. -/
theorem runHandler_notEcho (hb : s.bcast = false) (hL : L ≠ 5) : runHandler h v L s = ⟨s, .illegalDataValue, L⟩ := by
  have hecho : ¬ echoOk L s = true := by simp [echoOk, hb, hL]
  cases h <;> cases hw
  case wsr => exact if_neg hecho
  case rwmr => exact absurd rfl hh
  all_goals exact if_neg fun hok => hecho (Bool.and_eq_true_iff.mp hok).1

theorem runHandler_writeRejected (hno : (s.bcast = false ∧ L ≠ 5) ∨ ¬ r.admitted) :
    runHandler h v L s = ⟨s, .illegalDataValue, L⟩ :=
  hno.elim (fun ⟨hb, hL⟩ => runHandler_notEcho hw hh hb hL) (runHandler_notAdmitted hw)

end

/-- Settles O42: the write of the coil function is admitted for the two coil values, that of the register function always. -/
theorem singleWriteHandlers : Obligations.SingleWriteHandlers := by
  intro v L s hcfg
  refine ⟨fun hb hL => ⟨?_, ?_⟩, fun hon hoff => ?_, fun hc => ⟨fun ha => ⟨?_, ?_⟩, ?_, ?_⟩⟩
  · exact runHandler_writeRejected (h := .wsc) rfl nofun (.inl ⟨hb, hL⟩)
  · exact runHandler_writeRejected (h := .wsr) rfl nofun (.inl ⟨hb, hL⟩)
  · exact runHandler_writeRejected (h := .wsc) rfl nofun (.inr (not_or.mpr ⟨hon, hoff⟩))
  · exact runHandler_outside (h := .wsc) rfl (hc.imp_right (⟨·, nofun⟩)) ha
  · exact runHandler_written (h := .wsc) rfl (hc.imp_right (⟨·, nofun⟩)) hcfg ha
  · exact runHandler_outside (h := .wsr) rfl (hc.imp_right (⟨·, nofun⟩)) trivial
  · exact runHandler_written (h := .wsr) rfl (hc.imp_right (⟨·, nofun⟩)) hcfg trivial

/-- Settles O43: each write is admitted when its byte count is the one of its count. -/
theorem multipleWriteHandlers : Obligations.MultipleWriteHandlers := by
  rintro v L s hcfg n rfl
  refine ⟨?_, ?_, fun hc ha => ⟨?_, ?_⟩, fun hc ha => ⟨?_, ?_⟩⟩
  · exact runHandler_writeRejected (h := .wmc) rfl nofun
  · exact runHandler_writeRejected (h := .wmr) rfl nofun
  · exact runHandler_outside (h := .wmc) rfl (hc.imp_right (⟨·, nofun⟩)) ha
  · exact runHandler_written (h := .wmc) rfl (hc.imp_right (⟨·, nofun⟩)) hcfg ha
  · exact runHandler_outside (h := .wmr) rfl (hc.imp_right (⟨·, nofun⟩)) ha
  · exact runHandler_written (h := .wmr) rfl (hc.imp_right (⟨·, nofun⟩)) hcfg ha

/-! ### Read/write (R260) -/

theorem pduSlice_length (v : View) (s : State) (k n : Nat) : (pduSlice v s k n).length = n := by
  cases v <;> simp [pduSlice, txSlice, rxSlice]

/-- The read half of 0x17 (R260), over the state that the write half left. -/
def readWriteReadPart (v : View) (s u : State) : State × LocalError :=
  storeWrite .hold s.destAddr (storeAddr (reqAddr s)) (reqCount s).toNat (pduSlice v s 2 (2 * (reqCount s).toNat)) u

/-- The checks of the read/write handler before its write: the response's in unicast, and the request's own. -/
def ReadWriteChecked (v : View) (L : Nat) (s : State) : Prop :=
  (s.bcast = true ∨ (2 ≤ L ∧ (pduByte v s 1).toNat = 2 * (reqCount s).toNat ∧ 2 + 2 * (reqCount s).toNat ≤ L)) ∧
  (rwWbc s).toNat = 2 * (rwWcount s).toNat

section
variable {v : View} {L : Nat} {s u : State} {e : LocalError}

theorem readWriteChecked_iff : ReadWriteChecked v L s ↔
    ((s.bcast || readResponseOk v L (2 * (reqCount s).toNat) s) &&
      decide ((rwWbc s).toNat = 2 * (rwWcount s).toNat)) = true := by
  simp [ReadWriteChecked, readResponseOk]

theorem readWrite_rejected (hno : ¬ ReadWriteChecked v L s) : runHandler .rwmr v L s = ⟨s, .illegalDataValue, L⟩ :=
  if_neg (mt readWriteChecked_iff.mpr hno)

theorem readWrite_writeFailed (hok : ReadWriteChecked v L s) (hw : readWriteWritePart s = (u, e)) (he : e ≠ .noError) :
    runHandler .rwmr v L s = ⟨u, errorToException e, L⟩ := by
  refine (if_pos (readWriteChecked_iff.mp hok)).trans ?_
  rw [hw, if_pos he]

theorem readWrite_writeOnly (hok : ReadWriteChecked v L s) (hw : readWriteWritePart s = (u, .noError)) (hb : s.bcast = true) :
    runHandler .rwmr v L s = ⟨u, .none, L⟩ := by
  refine (if_pos (readWriteChecked_iff.mp hok)).trans ?_
  rw [hw, if_neg (not_not.mpr rfl), if_pos hb]

theorem readWrite_thenRead (hok : ReadWriteChecked v L s) (hw : readWriteWritePart s = (u, .noError)) (hb : s.bcast = false) :
    runHandler .rwmr v L s = fromStore (readWriteReadPart v s u) L := by
  refine (if_pos (readWriteChecked_iff.mp hok)).trans ?_
  rw [hw, if_neg (not_not.mpr rfl), hb, if_neg Bool.false_ne_true]; rfl

end

/-- Settles O44: the checks, the write, then the read over what the write left. -/
theorem readWriteHandler : Obligations.ReadWriteHandler := by
  rintro v L s hcfg rn wn rfl rfl
  refine ⟨fun hno => ?_, fun hresponse hbc => ⟨fun hout => ?_, fun hin => ?_⟩⟩
  · refine readWrite_rejected fun ⟨hresponse, hbc⟩ => ?_
    obtain ⟨hb, hbad⟩ | hbad := hno
    · exact hresponse.elim (by simp [hb]) hbad
    · exact hbad hbc
  · exact readWrite_writeFailed ⟨hresponse, hbc⟩ (storeWrite_outside _ hout) nofun
  · have hok : ReadWriteChecked v L s := ⟨hresponse, hbc⟩
    obtain ⟨m, hwrite, hwords⟩ := storeWrite_inWindow hcfg hin (txSlice_length s 11 (2 * (rwWcount s).toNat))
    refine ⟨m, hwords, readWrite_writeOnly hok hwrite, fun hb hout => ?_, fun hb hin' => ?_⟩
    · rw [readWrite_thenRead hok hwrite hb, readWriteReadPart]
      exact congrArg (fromStore · L) (storeWrite_outside (s := withTable .hold m s) _ hout)
    · obtain ⟨m', hread, hwords'⟩ := storeWrite_inWindow (s := withTable .hold m s) hcfg hin' (pduSlice_length v s 2 _)
      exact ⟨m', (readWrite_thenRead hok hwrite hb).trans (congrArg (fromStore · L) hread), hwords'⟩

/-! ### What the handlers leave alone (R261) -/

/-- A handler of at most one store write: it refuses and changes nothing, or it is a write for the addressed slave. -/
def RefusesOrStores (L : Nat) (s : State) (r : HandlerResult) : Prop :=
  (∃ e, r = ⟨s, e, L⟩) ∨
  ∃ t a n bytes, bytes.length = payloadLength t n ∧ r = fromStore (storeWrite t s.destAddr (storeAddr a) n bytes s) L

theorem readHandler_refusesOrStores {h : HandlerId} {t : Table} (ht : readTable h = some t) (v : View) (L : Nat) (s : State) :
    RefusesOrStores L s (runHandler h v L s) := by
  rw [runHandler_read ht]
  cases hb : s.bcast with
  | true => exact .inl ⟨_, if_pos hb⟩
  | false =>
    by_cases hok : readResponseOk v L (payloadLength t (reqCount s).toNat) s = true
    · exact .inr ⟨t, _, _, _, pduSlice_length .., readHandler_unicast hb hok⟩
    · exact .inl ⟨_, readHandler_rejected hb hok⟩

theorem writeHandler_refusesOrStores {h : HandlerId} {s : State} {r : WriteRequest} (hw : writeRequest s h = some r)
    (hh : h ≠ .rwmr) (v : View) (L : Nat) : RefusesOrStores L s (runHandler h v L s) := by
  by_cases hno : (s.bcast = false ∧ L ≠ 5) ∨ ¬ r.admitted
  · exact .inl ⟨_, runHandler_writeRejected hw hh hno⟩
  · obtain ⟨hc, ha⟩ := not_or.mp hno
    have hecho : s.bcast = true ∨ (L = 5 ∧ h ≠ .rwmr) :=
      (Bool.eq_false_or_eq_true s.bcast).imp_right fun hb => ⟨not_not.mp fun hL => hc ⟨hb, hL⟩, hh⟩
    exact .inr ⟨_, _, _, _, writeRequest_payload_length hw, runHandler_admitted hw hecho (not_not.mp ha)⟩

theorem runHandler_refusesOrStores {h : HandlerId} (hrsid : h ≠ .rsid) (hrwmr : h ≠ .rwmr) (v : View) (L : Nat) (s : State) :
    RefusesOrStores L s (runHandler h v L s) := by
  cases h
  case rc => exact readHandler_refusesOrStores (h := .rc) rfl v L s
  case rdi => exact readHandler_refusesOrStores (h := .rdi) rfl v L s
  case rhr => exact readHandler_refusesOrStores (h := .rhr) rfl v L s
  case rir => exact readHandler_refusesOrStores (h := .rir) rfl v L s
  case wsc => exact writeHandler_refusesOrStores (h := .wsc) rfl hrwmr v L
  case wsr => exact writeHandler_refusesOrStores (h := .wsr) rfl hrwmr v L
  case wmc => exact writeHandler_refusesOrStores (h := .wmc) rfl hrwmr v L
  case wmr => exact writeHandler_refusesOrStores (h := .wmr) rfl hrwmr v L
  case rsid => exact absurd rfl hrsid
  case rwmr => exact absurd rfl hrwmr

/-- After its checks such a handler can answer an exception only by a failed store write, which changes nothing. -/
theorem RefusesOrStores.state_of_exc {L : Nat} {s : State} {r : HandlerResult} (h : RefusesOrStores L s r)
    (hexc : r.exc ≠ .none) : r.state = s := by
  obtain ⟨e, rfl⟩ | ⟨t, a, n, bytes, -, rfl⟩ := h
  · rfl
  · exact storeWrite_error (mt errorToException_none.mpr hexc)

/-- Every point of the four tables is kept, but for those of one slave. -/
def OtherSlavesKept (slave : Nat) (s u : State) : Prop :=
  ∀ sl, sl ≠ slave →
    (∀ i, i < 1048576 → bitAt u.coils sl i = bitAt s.coils sl i ∧ bitAt u.disc sl i = bitAt s.disc sl i) ∧
    (∀ i, i < 65536 → wordAt u.hold sl i = wordAt s.hold sl i ∧ wordAt u.input sl i = wordAt s.input sl i)

theorem OtherSlavesKept.refl (slave : Nat) (s : State) : OtherSlavesKept slave s s :=
  fun _ _ => ⟨fun _ _ => ⟨rfl, rfl⟩, fun _ _ => ⟨rfl, rfl⟩⟩

theorem OtherSlavesKept.trans {slave : Nat} {s u w : State} (h : OtherSlavesKept slave s u) (h' : OtherSlavesKept slave u w) :
    OtherSlavesKept slave s w := by
  intro sl hsl
  obtain ⟨hbits, hwords⟩ := h sl hsl
  obtain ⟨hbits', hwords'⟩ := h' sl hsl
  exact ⟨fun i hi => ⟨(hbits' i hi).1.trans (hbits i hi).1, (hbits' i hi).2.trans (hbits i hi).2⟩,
    fun i hi => ⟨(hwords' i hi).1.trans (hwords i hi).1, (hwords' i hi).2.trans (hwords i hi).2⟩⟩

theorem otherSlavesKept_of_pointsWritten {t : Table} {s : State} {m : Memory} {slave idx n : Nat} {bytes : List Byte}
    (h : PointsWritten t (tableOf t s) m slave idx n bytes) : OtherSlavesKept slave s (withTable t m s) := by
  intro sl hsl
  cases t
  case coils => exact ⟨fun i hi => ⟨(h sl i hi).trans (if_neg (hsl ·.1)), rfl⟩, fun _ _ => ⟨rfl, rfl⟩⟩
  case disc => exact ⟨fun i hi => ⟨rfl, (h sl i hi).trans (if_neg (hsl ·.1))⟩, fun _ _ => ⟨rfl, rfl⟩⟩
  case hold => exact ⟨fun _ _ => ⟨rfl, rfl⟩, fun i hi => ⟨(h sl i hi).trans (if_neg (hsl ·.1)), rfl⟩⟩
  case input => exact ⟨fun _ _ => ⟨rfl, rfl⟩, fun i hi => ⟨rfl, (h sl i hi).trans (if_neg (hsl ·.1))⟩⟩

theorem storeWrite_otherSlavesKept {s : State} (hcfg : configOk s.cfg) {t : Table} {n : Nat} {bytes : List Byte}
    (hlen : bytes.length = payloadLength t n) (slave : Byte) (a : Half) :
    OtherSlavesKept slave.toNat s (storeWrite t slave (storeAddr a) n bytes s).1 := by
  by_cases hin : InWindow s.cfg t slave a n
  · obtain ⟨m, hwrite, hpoints⟩ := storeWrite_inWindow hcfg hin hlen
    rw [hwrite]
    exact otherSlavesKept_of_pointsWritten hpoints
  · rw [storeWrite_outside _ hin]
    exact OtherSlavesKept.refl _ s

theorem RefusesOrStores.otherSlavesKept {L : Nat} {s : State} {r : HandlerResult} (h : RefusesOrStores L s r)
    (hcfg : configOk s.cfg) : OtherSlavesKept s.destAddr.toNat s r.state := by
  obtain ⟨e, rfl⟩ | ⟨t, a, n, bytes, hlen, rfl⟩ := h
  · exact OtherSlavesKept.refl _ s
  · exact storeWrite_otherSlavesKept hcfg hlen s.destAddr a

theorem cfg_of_onlyStore {s u : State} (h : OnlyStore s u) : u.cfg = s.cfg := by
  unfold OnlyStore at h
  rw [h]

/-- The read/write handler ends after its checks, after its write, or after its read. -/
theorem readWrite_otherSlavesKept {s : State} (hcfg : configOk s.cfg) (v : View) (L : Nat) :
    OtherSlavesKept s.destAddr.toNat s (runHandler .rwmr v L s).state := by
  have hwrite : OtherSlavesKept s.destAddr.toNat s (readWriteWritePart s).1 :=
    storeWrite_otherSlavesKept hcfg (txSlice_length s 11 _) s.destAddr (rwWaddr s)
  have hcfg' : (readWriteWritePart s).1.cfg = s.cfg := cfg_of_onlyStore (storeWrite_onlyStore ..)
  generalize hw : readWriteWritePart s = w at hwrite hcfg'
  obtain ⟨u, e⟩ := w
  by_cases hok : ReadWriteChecked v L s
  case neg => rw [readWrite_rejected hok]; exact OtherSlavesKept.refl _ s
  by_cases he : e = .noError
  case neg => rw [readWrite_writeFailed hok hw he]; exact hwrite
  subst he
  cases hb : s.bcast with
  | true => rw [readWrite_writeOnly hok hw hb]; exact hwrite
  | false =>
    rw [readWrite_thenRead hok hw hb]
    exact hwrite.trans (storeWrite_otherSlavesKept (hcfg' ▸ hcfg) (pduSlice_length ..) s.destAddr (reqAddr s))

theorem runHandler_otherSlavesKept {h : HandlerId} (hr : h ≠ .rsid) {s : State} (hcfg : configOk s.cfg) (v : View) (L : Nat) :
    OtherSlavesKept s.destAddr.toNat s (runHandler h v L s).state := by
  by_cases hrw : h = .rwmr
  · subst hrw; exact readWrite_otherSlavesKept hcfg v L
  · exact (runHandler_refusesOrStores hr hrw v L s).otherSlavesKept hcfg

/-- Settles O47: every store write is for the addressed slave, and the one that fails changes nothing. -/
theorem handlersWriteOnlyTheirSlave : Obligations.HandlersWriteOnlyTheirSlave := by
  rintro h v L s hr hcfg u rfl
  exact ⟨runHandler_onlyStore h hr v L s, runHandler_otherSlavesKept hr hcfg v L,
    fun hrw hexc => congrArg store ((runHandler_refusesOrStores hr hrw v L s).state_of_exc hexc)⟩

end Sys2Proof.Proofs
end

section
/-! SUPPORT. Proofs about the register store (spec/45_register_store.md R280 to R289): each follows from the laws of the bit and
word primitives and of the index check; the store writes are settled by the lemmas that the handlers' proofs use. -/

namespace Sys2Proof.Proofs

open Sys2Proof.Machine Sys2Proof.Claims Sys2Proof.Laws

/-! ### Bit primitive (R282) -/

/-- Settles O12: the payload is the one byte v, so a bit's place in the payload is its place in v. -/
theorem setBitsWritesItsBits : Obligations.SetBitsWritesItsBits := by
  intro m slave off n v _ hn hfit sl i hi
  rw [bitAt_setBits m slave off n v hn (by omega) sl i hi]
  refine if_ctx_congr Iff.rfl (fun hin => ?_) fun _ => rfl
  have hbyte : (i - off) / 8 = 0 := by omega
  have hbit : (i - off) % 8 = i - off := by omega
  rw [hbyte, hbit, List.getD_cons_zero]

/-! ### Packed images (R283, R289) -/

theorem getD_map_range {α : Type} (f : Nat → α) (d : α) {j n : Nat} (hj : j < n) :
    ((List.range n).map f).getD j d = f j := by
  rw [List.getD_eq_getElem _ d (by simpa using hj), List.getElem_map, List.getElem_range]

/-- Bit k of byte q of the packed image; the last byte holds fewer than 8 points when 8 does not divide n. -/
theorem packedBits_getLsbD (m : Memory) (slave i n : Nat) {q k : Nat} (hq : q < ceil8 n) (hk : k < 8) :
    ((packedBits m slave i n).getD q 0#8).getLsbD k = (decide (8 * q + k < n) && bitAt m slave (i + 8 * q + k)) := by
  have hpoint : k < min 8 (n - 8 * q) ↔ 8 * q + k < n := by omega
  rw [packedBits, getD_map_range _ _ hq, getBits_getLsbD _ _ _ _ _ (Nat.min_le_left ..), decide_eq_decide.mpr hpoint]

/-- The bytes of a list of words, read back through the words they hold. -/
theorem beBytes_getD (ws : List Half) {j : Nat} (hj : j < ws.length) :
    (beBytes ws).getD (2 * j) 0#8 = hi8 (ws.getD j 0#16) ∧ (beBytes ws).getD (2 * j + 1) 0#8 = lo8 (ws.getD j 0#16) := by
  have hword := beHalves_getD (beBytes ws) ws.length (beBytes_length ws) j hj
  rw [beHalves_beBytes] at hword
  rw [hword, hi8_be16, lo8_be16]
  exact ⟨rfl, rfl⟩

/-- Settles O13: `GetBits`, then the bytes of the two packed images. -/
theorem packedReadsGiveThePoints : Obligations.PackedReadsGiveThePoints := by
  refine ⟨fun m slave off n k _ hn => getBits_getLsbD m slave off n k hn, fun m slave i n => ⟨?_, fun q k => ?_⟩,
    fun m slave i n => ⟨?_, fun j hj => ?_⟩⟩
  · rw [packedBits, List.length_map, List.length_range, ceil8]
  · exact packedBits_getLsbD m slave i n
  · rw [packedWords, beBytes_length, List.length_map, List.length_range]
  · have hbytes := beBytes_getD ((List.range n).map fun k => wordAt m slave (i + k)) (j := j) (by simpa using hj)
    rwa [getD_map_range _ _ hj] at hbytes

/-! ### Store writes (R284 to R287) -/

/-- Both outcomes of a store write, for the four tables at once. -/
theorem storeWrite_answers {s : State} {t : Table} {slave : Byte} {a : Half} {n : Nat} {bytes : List Byte} (hcfg : configOk s.cfg)
    (hlen : bytes.length = payloadLength t n) :
    (¬ InWindow s.cfg t slave a n → storeWrite t slave (storeAddr a) n bytes s = (s, .noSuchRegister)) ∧
    (InWindow s.cfg t slave a n →
      ∃ m, storeWrite t slave (storeAddr a) n bytes s = (withTable t m s, .noError) ∧
        PointsWritten t (tableOf t s) m slave.toNat (indexOf s.cfg t a) n bytes) :=
  ⟨storeWrite_outside bytes, fun hin => storeWrite_inWindow hcfg hin hlen⟩

/-- Settles O14: the bit tables' points are bits, and `(n + 7) / 8` bytes hold n of them. -/
theorem bitStoreWriteEffect : Obligations.BitStoreWriteEffect := by
  rintro s t slave a n bytes hcfg (rfl | rfl) hlen
  · exact storeWrite_answers (t := .coils) hcfg hlen
  · exact storeWrite_answers (t := .disc) hcfg hlen

/-- Settles O15: the word tables' points are words, and `2 * n` bytes hold n of them. -/
theorem wordStoreWriteEffect : Obligations.WordStoreWriteEffect := by
  rintro s t slave a n bytes hcfg (rfl | rfl) hlen
  · exact storeWrite_answers (t := .hold) hcfg hlen
  · exact storeWrite_answers (t := .input) hcfg hlen

/-! ### Store reads (R288) -/

theorem exec_appStoreRead (t : Table) (slave : Byte) (a : Half) (n : Nat) (s : State) :
    exec (.appStoreRead t slave a n) s = .next (returns (storeRead t slave a n s) s) := rfl

theorem storeRead_outside {s : State} {t : Table} {slave : Byte} {a : Half} {n : Nat} (hout : ¬ InWindow s.cfg t slave a n) :
    storeRead t slave a n s = .code .noSuchRegister := by
  have hidx : storeIndex s.cfg t slave (a + 1#16) n = .error .noSuchRegister := (storeIndex_cases ..).trans (if_neg hout)
  rw [storeRead, hidx]

theorem storeRead_inWindow {s : State} {t : Table} {slave : Byte} {a : Half} {n : Nat} (hin : InWindow s.cfg t slave a n) :
    storeRead t slave a n s = tableRead t (tableOf t s) slave.toNat (indexOf s.cfg t a) n := by
  have hidx : storeIndex s.cfg t slave (a + 1#16) n = .ok (indexOf s.cfg t a) := (storeIndex_cases ..).trans (if_pos hin)
  rw [storeRead, hidx]

theorem tableRead_bits {t : Table} (ht : t = .coils ∨ t = .disc) (m : Memory) (slave i n : Nat) :
    tableRead t m slave i n = .bits ((List.range n).map fun j => bitAt m slave (i + j)) := by
  obtain rfl | rfl := ht
  · rfl
  · rfl

theorem tableRead_words {t : Table} (ht : t = .hold ∨ t = .input) (m : Memory) (slave i n : Nat) :
    tableRead t m slave i n = .words ((List.range n).map fun j => wordAt m slave (i + j)) := by
  obtain rfl | rfl := ht
  · rfl
  · rfl

/-- Settles O16: the index check decides between the error and the points of the table. -/
theorem storeReadAnswers : Obligations.StoreReadAnswers := by
  intro s t slave a n
  rw [exec_appStoreRead]
  refine ⟨fun hout => ?_, fun hin ht => ?_, fun hin ht => ?_⟩
  · rw [storeRead_outside hout]; rfl
  · rw [storeRead_inWindow hin, tableRead_bits ht]
    exact ⟨_, by rw [List.length_map, List.length_range], fun j hj => getD_map_range _ _ hj, rfl⟩
  · rw [storeRead_inWindow hin, tableRead_words ht]
    exact ⟨_, by rw [List.length_map, List.length_range], fun j hj => getD_map_range _ _ hj, rfl⟩

end Sys2Proof.Proofs
end

section
/-! SUPPORT. Proofs about the CRC engine (spec/46_crc.md R300 to R304): a shift is linear over XOR and loses nothing, and n shifts of
a word whose low n bits are clear are a plain right shift. -/

namespace Sys2Proof.Proofs

open Sys2Proof.Machine Sys2Proof.Claims Sys2Proof.Laws

/-! ### One shift and n shifts (R300) -/

/-- R300's shift, bit by bit: the polynomial is added where the bit shifted out is 1. -/
theorem crcShift_getLsbD (c : Half) (i : Nat) :
    (crcShift c).getLsbD i = (c.getLsbD (i + 1) ^^ (c.getLsbD 0 && (0xA001#16).getLsbD i)) := by
  unfold crcShift
  split <;> rename_i h
  · rw [BitVec.getLsbD_xor, BitVec.getLsbD_ushiftRight, h, Bool.true_and, Nat.add_comm]
  · rw [BitVec.getLsbD_ushiftRight, Bool.eq_false_of_not_eq_true h, Bool.false_and, Bool.xor_false, Nat.add_comm]

theorem crcShift_xor (a b : Half) : crcShift (a ^^^ b) = crcShift a ^^^ crcShift b := by
  refine BitVec.eq_of_getLsbD_eq fun i _ => ?_
  simp only [crcShift_getLsbD, BitVec.getLsbD_xor, Bool.and_xor_distrib_right]
  simp only [Bool.xor_assoc, Bool.xor_left_comm]

theorem crcShift_of_even {c : Half} (h : c.getLsbD 0 = false) : crcShift c = c >>> 1 := if_neg (Bool.eq_false_iff.mp h)

/-- Bit 15 of a shift's result is the bit shifted out; with it the other bits can be taken back. -/
theorem crcShift_injective : Function.Injective crcShift := by
  intro a b h
  have hbit (i : Nat) := congrArg (fun c : Half => c.getLsbD i) h
  simp only [crcShift_getLsbD] at hbit
  have hout : a.getLsbD 0 = b.getLsbD 0 := by simpa using hbit 15
  refine BitVec.eq_of_getLsbD_eq fun i _ => ?_
  cases i with
  | zero => exact hout
  | succ i => simpa only [hout, Bool.xor_right_inj, Bool.xor_left_inj] using hbit i

theorem crcShifts_xor (n : Nat) (a b : Half) : crcShifts n (a ^^^ b) = crcShifts n a ^^^ crcShifts n b := by
  induction n generalizing a b with
  | zero => rfl
  | succ n ih => rw [crcShifts, crcShift_xor, ih]; rfl

theorem crcShifts_injective (n : Nat) : Function.Injective (crcShifts n) := by
  induction n with
  | zero => exact Function.injective_id
  | succ n ih => exact ih.comp crcShift_injective

/-- Shifts that move out zeros only are a plain right shift. -/
theorem crcShifts_of_low_clear {n : Nat} {c : Half} (h : ∀ i < n, c.getLsbD i = false) : crcShifts n c = c >>> n := by
  induction n generalizing c with
  | zero => rfl
  | succ n ih =>
    rw [crcShifts, crcShift_of_even (h 0 n.succ_pos), ih, Nat.add_comm, BitVec.shiftRight_add]
    intro i hi
    rw [BitVec.getLsbD_ushiftRight]
    exact h (1 + i) (by omega)

/-! ### The table method (R301) -/

theorem xor_lo8_low_clear (c : Half) : ∀ i < 8, (c ^^^ (lo8 c).setWidth 16).getLsbD i = false := by
  intro i hi
  rw [BitVec.getLsbD_xor, BitVec.getLsbD_setWidth, lo8_getLsbD]
  simp only [hi, show i < 16 by omega, decide_true, Bool.true_and, Bool.xor_self]

theorem xor_lo8_ushiftRight (c : Half) : (c ^^^ (lo8 c).setWidth 16) >>> 8 = c >>> 8 := by
  refine BitVec.eq_of_getLsbD_eq fun i _ => ?_
  simp

/-- By linearity the byte's word splits into c without its low byte, which the eight shifts only move down, and the low byte of c
XORed with b, which the table answers. -/
theorem crcByte_eq_crcByteTable (c : Half) (b : Byte) : crcByte c b = crcByteTable c b := by
  have hsplit : c ^^^ b.setWidth 16 = (c ^^^ (lo8 c).setWidth 16) ^^^ (lo8 c ^^^ b).setWidth 16 := by
    rw [BitVec.setWidth_xor, BitVec.xor_assoc, ← BitVec.xor_assoc ((lo8 c).setWidth 16), BitVec.xor_self, BitVec.zero_xor]
  calc crcByte c b
    _ = crcShifts 8 (c ^^^ (lo8 c).setWidth 16) ^^^ crcTable (lo8 c ^^^ b) := by rw [crcByte, hsplit, crcShifts_xor, crcTable]
    _ = crcByteTable c b := by rw [crcShifts_of_low_clear (xor_lo8_low_clear c), xor_lo8_ushiftRight, crcByteTable]

/-- Settles O8: the two methods agree byte by byte. -/
theorem crcTableMethodAgrees : Obligations.CrcTableMethodAgrees := by
  have hstep : crcByteTable = crcByte := funext₂ fun c b => (crcByte_eq_crcByteTable c b).symm
  exact ⟨fun b => by rw [crc16Table, crc16, hstep], by decide, by decide, by decide, by decide, by decide⟩

/-! ### The residue (R303) -/

/-- A byte equal to the low byte of the CRC so far cancels it: only the CRC's high byte is left, moved down. -/
theorem crcByte_lo8 (c : Half) : crcByte c (lo8 c) = c >>> 8 := by
  rw [crcByte_eq_crcByteTable, crcByteTable, BitVec.xor_self, show crcTable 0#8 = 0#16 by decide, BitVec.xor_zero]

theorem crcByte_lo8_hi8 (c : Half) : crcByte (crcByte c (lo8 c)) (hi8 c) = 0#16 := by
  rw [crcByte_lo8]
  calc crcByte (c >>> 8) (lo8 (c >>> 8)) = c >>> 8 >>> 8 := crcByte_lo8 (c >>> 8)
    _ = 0#16 := by rw [← BitVec.shiftRight_add, BitVec.ushiftRight_eq_zero (by decide)]

/-- Settles O7: the low byte first, so that each appended byte cancels the low byte of the CRC it meets. -/
theorem crcOverAppendedIsZero : Obligations.CrcOverAppendedIsZero := by
  intro b
  rw [crc16, List.foldl_append]
  exact crcByte_lo8_hi8 (crc16 b)

/-! ### Corruption of one byte (R303) -/

theorem crcByte_left_injective (b : Byte) : Function.Injective fun c => crcByte c b :=
  fun _ _ h => (BitVec.xor_left_inj _).mp (crcShifts_injective 8 h)

theorem lo8_setWidth (b : Byte) : lo8 (b.setWidth 16) = b :=
  (BitVec.setWidth_setWidth_of_le b (by decide)).trans (BitVec.setWidth_eq b)

theorem crcByte_right_injective (c : Half) : Function.Injective (crcByte c) := by
  intro b b' h
  have hwide : b.setWidth 16 = b'.setWidth 16 := (BitVec.xor_right_inj _).mp (crcShifts_injective 8 h)
  simpa only [lo8_setWidth] using congrArg lo8 hwide

/-- Two CRCs that differ stay different through any bytes that follow. -/
theorem foldl_crcByte_injective (bytes : List Byte) : Function.Injective (bytes.foldl crcByte) := by
  induction bytes with
  | nil => exact Function.injective_id
  | cons b bs ih => exact ih.comp (crcByte_left_injective b)

/-- Settles O10: if both residues were 0, the bytes after the changed one, then the two bytes themselves, would agree. -/
theorem oneCorruptedByteIsDetected : Obligations.OneCorruptedByteIsDetected := by
  intro before after b b' hvalid hne hvalid'
  have hresidue : crc16 (before ++ b :: after) = crc16 (before ++ b' :: after) := hvalid.trans hvalid'.symm
  simp only [crc16, List.foldl_append, List.foldl_cons] at hresidue
  exact hne (crcByte_right_injective _ (foldl_crcByte_injective after hresidue))

/-! ### Reference values (R304) -/

/-- Settles O9: each row of R304 is evaluated. -/
theorem crcReferenceValues : Obligations.CrcReferenceValues := by
  unfold Obligations.CrcReferenceValues
  decide +kernel

end Sys2Proof.Proofs
end

section
/-! SUPPORT. Proofs about a whole transmission (spec/42_rtu_transmit_timer.md R193 to R196, spec/60_exceptions.md R334): the state after n
bytes, the turnaround that follows the last one, and the frame that a poll step starts. -/

namespace Sys2Proof.Proofs

open Sys2Proof.Machine Sys2Proof.Claims Sys2Proof.Laws

/-! ### The bytes that are left, then the turnaround (R195, R196) -/

/-- The state after n more bytes of a transmission are on the wire. -/
def afterBytes (n : Nat) (s : State) : State :=
  { s with wire := s.wire ++ txSlice s s.txCur n, txCur := s.txCur + n, txRem := s.txRem - n }

theorem afterBytes_zero (s : State) : afterBytes 0 s = s := by
  simp only [afterBytes, txSlice, List.range_zero, List.map_nil, List.append_nil, Nat.add_zero, Nat.sub_zero]

/-- One byte, then n more, are n + 1 bytes. -/
theorem afterBytes_txNextByte (n : Nat) (s : State) : afterBytes n (txNextByte s) = afterBytes (n + 1) s := by
  have hslice : txSlice (txNextByte s) (s.txCur + 1) n = txSlice s (s.txCur + 1) n := txSlice_congr _ _ rfl rfl
  have hcur : s.txCur + 1 + n = s.txCur + (n + 1) := by omega
  have hrem : s.txRem - 1 - n = s.txRem - (n + 1) := by omega
  have hwire : s.wire ++ [txByte s s.txCur] ++ txSlice s (s.txCur + 1) n = s.wire ++ txSlice s s.txCur (n + 1) := by
    rw [txSlice_succ, List.append_assoc, List.singleton_append]
  rw [afterBytes, afterBytes, ← hcur, ← hrem, ← hwire, ← hslice]; rfl

theorem runSteps_portTxe_bytes {n : Nat} {s : State} (hr : s.running = true) (htx : s.txState = .transmitting)
    (hn : n ≤ s.txRem) : runSteps (List.replicate n .portTxe) s = .next (afterBytes n s) := by
  induction n generalizing s with
  | zero => rw [afterBytes_zero]; rfl
  | succ n ih =>
    have hbyte : exec .portTxe s = .next (txNextByte s) := by
      rw [exec_portTxe, transmitterEmpty_next hr htx (by omega)]
    have hleft : n ≤ (txNextByte s).txRem := Nat.le_sub_one_of_lt hn
    rw [List.replicate_succ, runSteps_cons _ hbyte, ih (s := txNextByte s) hr htx hleft, afterBytes_txNextByte]

theorem runSteps_portTxe_all {s : State} (hr : s.running = true) (htx : s.txState = .transmitting) :
    runSteps (List.replicate (s.txRem + 1) .portTxe) s = .next (txEnd (afterBytes s.txRem s)) := by
  rw [List.replicate_succ', runSteps_append _ (runSteps_portTxe_bytes hr htx (Nat.le_refl _))]
  refine runSteps_cons [] ?_
  rw [exec_portTxe, transmitterEmpty_end (s := afterBytes s.txRem s) hr htx (Nat.sub_self _)]

theorem txEnd_afterBytes (s : State) :
    txEnd (afterBytes s.txRem s) = { s with
      wire := s.wire ++ txSlice s s.txCur s.txRem, txCur := s.txCur + s.txRem, txRem := 0
      bcast := decide (Memory.read s.txbuf 0 = 0x00#8), lineMode := .rx, txState := .done
      timer := .armed (if Memory.read s.txbuf 0 = 0x00#8 then .convertDelay else .respondTimeout) } := by
  rw [txEnd_eq]
  simp only [afterBytes, Nat.sub_self]

/-! ### What the Port owes (R334) -/

theorem portContract_portTxe {s : State} (h : TransmitterOwed s) : PortContract .portTxe s := ⟨nofun, fun _ => h, nofun⟩

/-- The turnaround ends the Port's duty. -/
theorem not_transmitterOwed_txEnd (s : State) : ¬ TransmitterOwed (txEnd s) := by
  rintro ⟨-, hline⟩
  rw [txEnd_eq] at hline
  cases hline

/-! ### A frame that a poll step starts (R145, R193) -/

theorem getElem_txSlice {s : State} {i n k : Nat} (h : k < (txSlice s i n).length) : (txSlice s i n)[k] = txByte s (i + k) := by
  simp only [txSlice, List.getElem_map, List.getElem_range]

/-- The bytes that a started transmission has left are the frame's. -/
theorem txSlice_sendFrame (a : Byte) {len : Nat} (s : State) (hlen : len ≤ pduMax) :
    txSlice (sendFrame a len s) 0 (len + 3) = frameBytes a (txSlice s 1 len) := by
  have hfit : len + 3 ≤ bufSize := Nat.add_le_add_right hlen 3
  refine List.ext_getElem (by rw [txSlice_length, frameBytes_length]) fun k hk hk' => ?_
  rw [getElem_txSlice, Nat.zero_add, txByte_inside (by rw [txSlice_length] at hk; omega), sendFrame_read_frame a s hlen hk']

theorem exec_poll_sendFrame {s : State} {rest : List Event} (he : s.protoState = .enabled) (hq : s.evq = .frameSent :: rest)
    (hx : s.rxState = .idle) (hlen : s.sndPduLen.toNat ≤ pduMax) :
    exec .poll s = .next (sendFrame s.destAddr s.sndPduLen.toNat { s with evq := rest }) := by
  rw [exec_poll_event he hq, handleEvent_frameSent, handleFrameSent_sent (s := { s with evq := rest }) hlen hx]

/-- From the state that `Send` leaves, one callback for each byte of the frame and one more put the frame on the wire. -/
theorem runSteps_portTxe_sendFrame (a : Byte) {len : Nat} {s : State} (hr : s.running = true) (hlen : len ≤ pduMax) :
    ∃ t, runSteps (List.replicate (len + 4) .portTxe) (sendFrame a len s) = .next t ∧
      t.wire = s.wire ++ frameBytes a (txSlice s 1 len) ∧ t.txState = .done ∧ ¬ TransmitterOwed t :=
  ⟨_, runSteps_portTxe_all (s := sendFrame a len s) hr rfl, congrArg (s.wire ++ ·) (txSlice_sendFrame a s hlen), rfl,
    not_transmitterOwed_txEnd _⟩

/-- Settles O29: n bytes and then the turnaround, by induction on the bytes left; the poll step leaves the len + 3 bytes of its
frame. -/
theorem transmissionCompletes : Obligations.TransmissionCompletes := by
  intro s hr
  refine ⟨fun htx hline _ => ⟨fun n hn => ?owed, ?completes⟩, fun len rest he hq hx hl hlen => ?frame⟩
  case owed =>
    have howed : TransmitterOwed (afterBytes n s) := ⟨hr, hline⟩
    exact ⟨_, runSteps_portTxe_bytes hr htx hn, howed, portContract_portTxe howed⟩
  case completes => exact ⟨_, runSteps_portTxe_all hr htx, not_transmitterOwed_txEnd _, txEnd_afterBytes s⟩
  case frame =>
    subst hl
    have howed : TransmitterOwed (sendFrame s.destAddr s.sndPduLen.toNat { s with evq := rest }) := ⟨hr, rfl⟩
    obtain ⟨t, hrun, hsent⟩ := runSteps_portTxe_sendFrame s.destAddr (s := { s with evq := rest }) hr hlen
    exact ⟨_, t, exec_poll_sendFrame he hq hx hlen, howed, hrun, hsent⟩

end Sys2Proof.Proofs
end

section
/-! SUPPORT. Proofs about process start (spec/70_reset_and_hazards.md R350, spec/00_scope.md R3): which launches there are, and the state
they begin in. -/

namespace Sys2Proof.Proofs

open Sys2Proof.Machine Sys2Proof.Claims Sys2Proof.Laws

section
variable {cfg : Config} {c d h r : Memory}

/-! ### A launch is accepted or refused (R3) -/

theorem launch_of_configOk (hok : configOk cfg) : launch cfg c d h r = .next (State.atStart cfg c d h r) := if_pos hok

theorem launch_of_not_configOk (hbad : ¬ configOk cfg) : launch cfg c d h r = .refused .configurationRefused := if_neg hbad

theorem launch_eq_refused_iff : launch cfg c d h r = .refused .configurationRefused ↔ ¬ configOk cfg := by
  refine ⟨fun href hok => ?_, launch_of_not_configOk⟩
  rw [launch_of_configOk hok] at href
  cases href

/-- A launch answers the state at process start, and only for parameters that meet R3. -/
theorem launch_eq_next_iff {s : State} : launch cfg c d h r = .next s ↔ configOk cfg ∧ State.atStart cfg c d h r = s := by
  refine ⟨fun hnext => ?_, fun ⟨hok, hs⟩ => hs ▸ launch_of_configOk hok⟩
  by_cases hok : configOk cfg
  · rw [launch_of_configOk hok] at hnext
    exact ⟨hok, Host.Outcome.next.inj hnext⟩
  · rw [launch_of_not_configOk hok] at hnext
    cases hnext

/-! ### The state at process start (R350) -/

/-- An empty memory, as the three buffers are at process start, reads as the spec's reset value (R27, R28, R38). -/
theorem read_nil (i : Nat) : Memory.read [] i = 0#8 := rfl

theorem store_atStart : store (State.atStart cfg c d h r) = (c, d, h, r) := rfl

/-- With parameters that meet R3 the invariant asks for canonical tables alone: every other element starts empty, zero or off. -/
theorem inv_atStart (hok : configOk cfg) (hc : Memory.wf c) (hd : Memory.wf d) (hh : Memory.wf h) (hr : Memory.wf r) :
    Inv (State.atStart cfg c d h r) := by
  refine ⟨hok, ⟨wf_nil, wf_nil, wf_nil, hc, hd, hh, hr, nofun, nofun⟩, ?lengths, ?table, ?lifecycle, ?queue, ?address⟩
  case lengths => exact ⟨Nat.zero_le _, Nat.zero_le _, Nat.zero_le _, Nat.zero_le _, Nat.zero_le _⟩
  case table => exact (if_pos rfl).symm
  case lifecycle => exact ⟨⟨nofun, nofun⟩, fun _ => rfl⟩
  case queue => exact Nat.zero_le _
  case address => exact Nat.zero_le _

theorem inv_of_launch {s : State} (hc : Memory.wf c) (hd : Memory.wf d) (hh : Memory.wf h) (hr : Memory.wf r)
    (hnext : launch cfg c d h r = .next s) : Inv s := by
  obtain ⟨hok, rfl⟩ := launch_eq_next_iff.mp hnext
  exact inv_atStart hok hc hd hh hr

end

/-- Reset is the launch with the default parameters and empty tables (log 2, log 3). -/
theorem launch_default : launch Config.default [] [] [] [] = .next State.reset := launch_of_configOk (by decide)

/-- Settles O17: the refused launches are those of `launch_eq_refused_iff`; every other begins in `State.atStart`, read off field by
field. -/
theorem processStartState : Obligations.ProcessStartState := by
  intro cfg c d h r
  refine ⟨launch_eq_refused_iff.symm, fun hok => ⟨_, launch_of_configOk hok, ?column⟩⟩
  case column =>
    simp only [store_atStart]
    simp only [State.atStart, HandlerSlot.empty, read_nil, implies_true, and_self]

/-- Settles O55: every launch with canonical tables meets the invariant, and reset is such a launch. -/
theorem startMeetsInvariant : Obligations.StartMeetsInvariant :=
  ⟨inv_of_launch wf_nil wf_nil wf_nil wf_nil launch_default, fun _ _ _ _ _ _ => inv_of_launch⟩

end Sys2Proof.Proofs
end
